-- ==== Sys2Proof/Word.lean ====
section
/-! DEFINITION. The word types of the block: registers are 32 bits wide and streams carry bytes (00_scope.md R8). -/

namespace Sys2Proof

/-- One byte of an input stream, of the window or of the output memory (R8). -/
abbrev Byte := BitVec 8

/-- A register, a counter or a command word (R8, R31, R81). -/
abbrev Word := BitVec 32

end Sys2Proof
end

