-- ==== Sys2Proof/Config.lean ====
section
/-! DEFINITION. What an implementation of the block fixes (00_scope.md R9), and the format a session gives the stream
tokens (30_encoding.md R92, R95). -/

namespace Sys2Proof

/-- The open implementation parameters, which a model takes as an argument (R9; 92_eei_decisions.md P1, P2, P3).
They stand in State, and no step writes them; see notes/assumptions/1.md. -/
structure Params where
  /-- `MAX_FRAME_LOG2`: the base-2 log of the largest legal frame size. -/
  maxFrameLog2 : Nat
  /-- `OUT_AW`: the width of an output memory address. -/
  outAw : Nat
  /-- `REG_BASE`: the host address of register offset 0x00. -/
  regBase : Nat
deriving DecidableEq, Repr

/-- The legal values of the open parameters (R9; P3: any word-aligned address). -/
def Params.ok (p : Params) : Bool :=
  decide (12 ≤ p.maxFrameLog2) && decide (p.maxFrameLog2 ≤ 24) &&
    decide (1 ≤ p.outAw) && decide (p.outAw ≤ 32) && decide (p.regBase % 4 = 0)

/-- The parameters of `State.reset`: the largest legal frame and address widths, and a base of 0.
DESIGN CHOICE, unsafe: the spec leaves all three open (notes/assumptions/1.md). -/
def Params.chosen : Params := ⟨24, 32, 0⟩

/-- What a session fixes about the shape of its stream tokens: the reader variant (`true` is LSB-first) and the two
back-reference field widths (R92). -/
structure Format where
  lsb : Bool
  distW : Nat
  lenW : Nat
deriving DecidableEq, Repr

end Sys2Proof
end

