-- ==== Sys2Proof/Syntax.lean ====
section
/-! DEFINITION. The instructions of the block: the five command words (30_encoding.md R82) and the seven stream tokens
(R89 to R97), one constructor for each row of the opcode table. -/

namespace Sys2Proof

/-- One instruction: a command the host writes to `CMD`, or a token an engine reads from its input stream. -/
inductive Instr where
  /-- `init`: open a session (R131). -/
  | init
  /-- `continue`: produce up to `COUNT` output bytes (R133). -/
  | cont
  /-- `getbits n`: read n bits in a RAW session (R116). -/
  | getbits (n : Byte)
  /-- `bitreset`: discard the buffered bits of BR0 (R118). -/
  | bitreset
  /-- `close`: end the session (R141). -/
  | close
  /-- `lz.ctrl`, C(x): an LZSS control byte (R90, R162). -/
  | lzCtrl (x : Byte)
  /-- `lz.lit`, L(b): an LZSS literal (R91, R163). -/
  | lzLit (b : Byte)
  /-- `lz.ref`: an LZSS back-reference, its two raw fields before the biases (R92, R164). A field has at most 24 bits. -/
  | lzRef (d l : BitVec 24)
  /-- `huf.branch`, T1: a tree branch (R95, R193). -/
  | hufBranch
  /-- `huf.leaf`, T0(v): a tree leaf (R95, R194). -/
  | hufLeaf (v : Byte)
  /-- `huf.code0`, c0: the code bit 0 (R96, R195). -/
  | hufCode0
  /-- `huf.code1`, c1: the code bit 1 (R96, R195). -/
  | hufCode1
deriving DecidableEq, Repr

end Sys2Proof
end

