-- ==== Sys2Proof/WellFormed.lean ====
section
/-! DEFINITION. Which instructions a session's format can encode. Only a back-reference has fields whose width the
session sets (30_encoding.md R92); every other operand fills its field (R81, R90, R91, R95). -/

namespace Sys2Proof

/-- `i` can be written in format `f`: both field widths of a back-reference are at most 24 (R92) and each raw value fits
its field. The count of GETBITS is 0..255 in the word (R83); whether the reader serves it is the command's check (R116). -/
def Instr.wellFormed (f : Format) : Instr → Bool
  | .init => true
  | .cont => true
  | .getbits _ => true
  | .bitreset => true
  | .close => true
  | .lzCtrl _ => true
  | .lzLit _ => true
  | .lzRef d l =>
    decide (f.distW ≤ 24) && decide (f.lenW ≤ 24) && decide (d.toNat < 2 ^ f.distW) && decide (l.toNat < 2 ^ f.lenW)
  | .hufBranch => true
  | .hufLeaf _ => true
  | .hufCode0 => true
  | .hufCode1 => true

end Sys2Proof
end

