-- ==== Sys2Proof/Decode.lean ====
section
/-! DEFINITION. The two encoding layers of the block (30_encoding.md R80): command words, decoded by R84, and stream
tokens, decoded from the bits of a stream by what the engine reads next (R97). After the decoder, the encoder. -/

namespace Sys2Proof

/-- Why a decoder rejects. The first three are the illegal words of R88; the last two are inputs that end too early. -/
inductive DecodeError where
  /-- `RSV`, bits 31:16, is not 0. -/
  | reservedField
  /-- `N`, bits 15:8, is not 0 and the opcode is not `getbits`. -/
  | strayCount
  /-- `OP`, bits 7:0, is 0x00 or above 0x05. -/
  | reservedOpcode
  /-- Fewer than the four bytes of a command word. -/
  | shortWord
  /-- The stream ends inside the token. -/
  | shortStream
deriving DecidableEq, Repr

/-! ### Bit streams (R12, R110) -/

/-- The low `n` bits of `v`, bit 0 first. -/
def lowBits (n v : Nat) : List Bool := (List.range n).map v.testBit

/-- An n-bit field in stream order: LSB-first its bit 0 comes first, MSB-first its bit n-1 (R12, R110). -/
def fieldBits (lsb : Bool) (n v : Nat) : List Bool :=
  if lsb then lowBits n v else (lowBits n v).reverse

/-- The number whose bit j is entry j of the list. -/
def lowValue : List Bool → Nat
  | [] => 0
  | b :: bs => b.toNat + 2 * lowValue bs

/-- The number a field's bits stand for, given in stream order (R110). -/
def fieldValue (lsb : Bool) (bits : List Bool) : Nat :=
  if lsb then lowValue bits else lowValue bits.reverse

/-- The bit stream of a byte sequence (R12). -/
def bitStream (lsb : Bool) (bytes : List Byte) : List Bool :=
  bytes.flatMap fun b => fieldBits lsb 8 b.toNat

/-- Cut the first `n` bits off a stream, if it has that many. -/
def splitBits (n : Nat) (bits : List Bool) : Option (List Bool × List Bool) :=
  if n ≤ bits.length then some (bits.take n, bits.drop n) else none

/-! ### Command words (R81, R84) -/

/-- `OP`, bits 7:0 of a command word. -/
def opField (w : Word) : Byte := w.extractLsb' 0 8

/-- `N`, bits 15:8 of a command word. -/
def countField (w : Word) : Byte := w.extractLsb' 8 8

/-- `RSV`, bits 31:16 of a command word. -/
def reservedField (w : Word) : BitVec 16 := w.extractLsb' 16 16

/-- The command word with fields `OP`, `N` and `RSV = 0` (R81). -/
def packWord (op n : Byte) : Word := (n.setWidth 32 <<< 8) ||| op.setWidth 32

/-- A command that takes no count: `N` must be 0 (R81). -/
def plainCommand (w : Word) (i : Instr) : Except DecodeError Instr :=
  if countField w = 0 then .ok i else .error .strayCount

/-- The instruction a command word selects (R84), or which of R88's three cases makes it illegal. -/
def decodeWord (w : Word) : Except DecodeError Instr :=
  if reservedField w ≠ 0 then .error .reservedField
  else if opField w = 1 then plainCommand w .init
  else if opField w = 2 then plainCommand w .cont
  else if opField w = 3 then .ok (.getbits (countField w))
  else if opField w = 4 then plainCommand w .bitreset
  else if opField w = 5 then plainCommand w .close
  else .error .reservedOpcode

/-- The bytes of a word as a byte-addressed bus presents them, byte 0 (bits 7:0) at the lowest address (R62). -/
def wordBytes (w : Word) : List Byte :=
  [w.extractLsb' 0 8, w.extractLsb' 8 8, w.extractLsb' 16 8, w.extractLsb' 24 8]

/-- The word whose bytes are given from the lowest address up (R62). -/
def wordOfBytes (b0 b1 b2 b3 : Byte) : Word :=
  b0.setWidth 32 ||| (b1.setWidth 32 <<< 8) ||| (b2.setWidth 32 <<< 16) ||| (b3.setWidth 32 <<< 24)

/-- Decode the command word at the front of a byte list; every command is exactly one word (R81). -/
def decodeBytes : List Byte → Except DecodeError (Instr × List Byte)
  | b0 :: b1 :: b2 :: b3 :: rest =>
    match decodeWord (wordOfBytes b0 b1 b2 b3) with
    | .ok i => .ok (i, rest)
    | .error e => .error e
  | _ => .error .shortWord

/-- The instruction the decoder reads from the `nbits` bits `w` of an opcode-table row. Bits above `nbits` are 0. Only
command rows have words; the kind of a stream token depends on the session (R97; notes/assumptions/15.md). -/
def decodeTableWord (nbits w : Nat) : Option Instr :=
  match decodeBytes (wordBytes (BitVec.ofNat 32 (w % 2 ^ nbits))) with
  | .ok (i, _) => some i
  | .error _ => none

/-! ### Stream tokens (R89 to R97) -/

/-- What the running engine step reads next; with the bits already read it fixes the next token's length (R97). -/
inductive Place where
  /-- A control byte, on the control port (R90). -/
  | ctrl
  /-- A literal, after a control bit that selects one (R91). -/
  | literal
  /-- A back-reference, after a control bit that selects one (R92). -/
  | reference
  /-- A tree description token, in `HUF_BUILD` (R95). -/
  | tree
  /-- A code bit at an internal node, in `HUF_SYM` (R96). -/
  | code
deriving DecidableEq, Repr

/-- The place a token is read at; commands are not read from a stream. -/
def Instr.place : Instr → Option Place
  | .init => none
  | .cont => none
  | .getbits _ => none
  | .bitreset => none
  | .close => none
  | .lzCtrl _ => some .ctrl
  | .lzLit _ => some .literal
  | .lzRef _ _ => some .reference
  | .hufBranch => some .tree
  | .hufLeaf _ => some .tree
  | .hufCode0 => some .code
  | .hufCode1 => some .code

/-- The token of one 8-bit field. -/
def decodeByteToken (f : Format) (mk : Byte → Instr) (bits : List Bool) : Except DecodeError (Instr × List Bool) :=
  match splitBits 8 bits with
  | some (v, rest) => .ok (mk (BitVec.ofNat 8 (fieldValue f.lsb v)), rest)
  | none => .error .shortStream

/-- The token at the front of a bit stream, at the place the engine reads. -/
def decodeToken (f : Format) : Place → List Bool → Except DecodeError (Instr × List Bool)
  | .ctrl, bits => decodeByteToken f .lzCtrl bits
  | .literal, bits => decodeByteToken f .lzLit bits
  | .reference, bits =>
    match splitBits f.distW bits with
    | none => .error .shortStream
    | some (d, bits') =>
      match splitBits f.lenW bits' with
      | none => .error .shortStream
      | some (l, rest) =>
        .ok (.lzRef (BitVec.ofNat 24 (fieldValue f.lsb d)) (BitVec.ofNat 24 (fieldValue f.lsb l)), rest)
  | .tree, [] => .error .shortStream
  | .tree, true :: rest => .ok (.hufBranch, rest)
  | .tree, false :: rest => decodeByteToken f .hufLeaf rest
  | .code, [] => .error .shortStream
  | .code, false :: rest => .ok (.hufCode0, rest)
  | .code, true :: rest => .ok (.hufCode1, rest)

/-! ### The encoder -/

/-- What an instruction is written as: a command word (R81), or the bits of a token in stream order (R86). -/
inductive Encoded where
  | word (w : Word)
  | bits (bs : List Bool)
deriving DecidableEq, Repr

/-- The encoding of an instruction in a session's format: R82's words and R90 to R96's tokens. -/
def encode (f : Format) : Instr → Encoded
  | .init => .word (packWord 1 0)
  | .cont => .word (packWord 2 0)
  | .getbits n => .word (packWord 3 n)
  | .bitreset => .word (packWord 4 0)
  | .close => .word (packWord 5 0)
  | .lzCtrl x => .bits (fieldBits f.lsb 8 x.toNat)
  | .lzLit b => .bits (fieldBits f.lsb 8 b.toNat)
  | .lzRef d l => .bits (fieldBits f.lsb f.distW d.toNat ++ fieldBits f.lsb f.lenW l.toNat)
  | .hufBranch => .bits [true]
  | .hufLeaf v => .bits (false :: fieldBits f.lsb 8 v.toNat)
  | .hufCode0 => .bits [false]
  | .hufCode1 => .bits [true]

/-- How many bits an encoding has. -/
def Encoded.length : Encoded → Nat
  | .word _ => 32
  | .bits bs => bs.length

end Sys2Proof
end

