-- ==== Sys2Proof/Machine/State.lean ====
section
/-! DEFINITION. The state of the block and of its host interface (10_state.md R20 to R49), as plain data, and its reset
value (R49, 70_reset_and_hazards.md R250). -/

namespace Sys2Proof.Machine

/-- `SESS` (R22). -/
inductive Sess where
  | idle
  | active
  | faulted
deriving DecidableEq, Repr

/-- `PHASE`, the sequencer phase (R24). -/
inductive Phase where
  /-- `NONE`: no engine is running. -/
  | none
  /-- `LZ_TOKEN`: the next step decodes an LZSS item. -/
  | lzToken
  /-- `LZ_COPY`: the next step copies one byte of a back-reference. -/
  | lzCopy
  /-- `HUF_BUILD`: the Huffman tree is not yet built. -/
  | hufBuild
  /-- `HUF_SYM`: the next step decodes a Huffman symbol. -/
  | hufSym
deriving DecidableEq, Repr

/-- An input port and the bit reader on it (R26, R27). -/
inductive Port where
  /-- Port 0: the compressed data. -/
  | p0
  /-- Port 1: dedicated LZSS control bytes. -/
  | p1
deriving DecidableEq, Repr

/-- The configuration registers that INIT latches (R23). `State.cfg` holds the registers, `State.lcfg` the copy `LCFG`. -/
structure ConfigRegs where
  mode : Word
  frameSize : Word
  frameFill : Word
  frameInitPos : Word
  lzFields : Word
  packedSize : Word
  unpackedSize : Word
deriving DecidableEq, Repr

/-- An input port (R26). -/
structure InPort where
  /-- `SRC_k`: the finite byte sequence bound at INIT. -/
  src : List Byte
  /-- The count of the bytes fetched so far, exact since no byte is fetched twice (R63); `POS_k` is its low 32 bits,
  `State.posWord` (R10, R26; notes/assumptions/9.md). -/
  pos : Nat
  /-- `LIM_k`: the number of bytes the port will deliver. R26 gives it no width. -/
  lim : Nat
deriving DecidableEq, Repr

/-- A bit reader: `ACC_k` and `CNT_k` (R27). The MSB-first variant uses the low 32 bits of `acc`. -/
structure BitReader where
  acc : BitVec 40
  cnt : BitVec 6
deriving DecidableEq, Repr

/-- The LZSS window `WIN` (R28): the byte the last fill gave every cell, and the cells that differ from it, in canonical
form (indices strictly rising, no cell equal to the fill). -/
structure Window where
  fill : Byte
  cells : List Host.Cell
deriving DecidableEq, Repr

/-- What a control bit selects (R90). -/
inductive LzItem where
  | literal
  | reference
deriving DecidableEq, Repr

/-- One entry of the tree build's return stack: the child of node `v` that the subtree now being read will fill (R193). -/
inductive BuildSlot where
  | left (v : BitVec 9)
  | right (v : BitVec 9)
deriving DecidableEq, Repr

/-- The locals of the running CONTINUE. They are the model's own field: the spec's pseudocode holds them as local
variables, and they are at rest (`Run.rest`) outside a command (notes/assumptions/10.md). -/
structure Run where
  /-- R133's n: the bytes this command has written. -/
  n : Word
  /-- R161's decision: the item the control bit of this token step selected. -/
  sel : Option LzItem
  /-- R195's node, once a code bit of this symbol has been read. -/
  node : Option (BitVec 9)
  /-- The return stack of the tree build (R191), innermost subtree first. -/
  stack : List BuildSlot
deriving DecidableEq, Repr

/-- No command is running. -/
def Run.rest : Run := ⟨0, none, none, []⟩

/-- The width of a host access to the register space (R61). -/
inductive Width where
  | byte
  | half
  | word
deriving DecidableEq, Repr

/-- One operation of the host (30_encoding.md R85; reset: 70_reset_and_hazards.md R250). -/
inductive HostOp where
  /-- A bus write of `v` at host address `addr`. -/
  | write (addr : Nat) (width : Width) (v : Word)
  /-- A bus read at host address `addr`. -/
  | read (addr : Nat) (width : Width)
  /-- `bind`: present a byte sequence to a port; the next INIT takes it. -/
  | bind (k : Port) (bytes : List Byte)
  /-- Hardware reset. -/
  | reset
deriving DecidableEq, Repr

/-- The faults of 60_exceptions.md R221, which the block records and goes on from. -/
inductive FaultCode where
  | truncCtrl
  | truncLit
  | truncRef
  | truncTree
  | truncSymbol
  | malTreeOverflow
  | malBadDistance
  | malZeroLength
  | contractIllegal
  | contractBadState
  | contractBitsTooMany
  | contractBadConfig
deriving DecidableEq, Repr

/-- Where the model itself stops with a fault. -/
inductive Fault where
  /-- Raised by CONTINUE when `PHASE` is `NONE` in an `ACTIVE` LZSS or HUFFMAN session: R134 says this does not occur, and
  gives no step for it. Safe: the model stops, and no state a run reaches has it (notes/assumptions/12.md). -/
  | noEngineStep
deriving DecidableEq, Repr

/-- Why the model refuses a step. -/
inductive Refusal where
  /-- An instruction that has no meaning yet, by its mnemonic; raised in `exec`'s arm. Safe. -/
  | notModelled (mnemonic : String)
  /-- A byte, half-word or misaligned access to the registers, which R61 says a model refuses; raised by a host access. Safe. -/
  | partialAccess
  /-- A host access outside the register block, at an offset of 0x40 or above or below `REG_BASE` (R61); raised by a host
  access. Safe. -/
  | outsideBlock
  /-- A stream token where no engine step reads such a token (R97, R134); raised by the meanings of the tokens, never inside a
  CONTINUE. Safe (notes/assumptions/11.md). -/
  | tokenOutOfPlace
deriving DecidableEq, Repr

/-- Every piece of state the spec gives the block, the host's memory it writes, and what the host presents. -/
structure State where
  /-- The open parameters (R9). -/
  params : Params
  /-- `SESS` (R22). -/
  sess : Sess
  /-- `LCFG` (R23). -/
  lcfg : ConfigRegs
  /-- `PHASE` (R24). -/
  phase : Phase
  /-- `EOS` (R25). -/
  eos : Bool
  /-- `NODATA` (R25). -/
  nodata : Bool
  /-- `SRC_0`, `POS_0`, `LIM_0` (R26). -/
  port0 : InPort
  /-- `SRC_1`, `POS_1`, `LIM_1` (R26). -/
  port1 : InPort
  /-- `ACC_0`, `CNT_0` (R27). -/
  br0 : BitReader
  /-- `ACC_1`, `CNT_1` (R27). -/
  br1 : BitReader
  /-- `WIN` (R28). -/
  win : Window
  /-- `CUR` (R28). -/
  cur : BitVec 24
  /-- `CTRL_SR` (R28). -/
  ctrlSr : Byte
  /-- `CTRL_LEFT` (R28). -/
  ctrlLeft : BitVec 4
  /-- `COPY_SRC` (R28). -/
  copySrc : BitVec 24
  /-- `COPY_LEFT` (R28). -/
  copyLeft : Word
  /-- `LHS[256..511]`, entry i of the vector being `LHS[256 + i]` (R29). -/
  lhs : Vector (BitVec 9) 256
  /-- `RHS[256..511]`, likewise (R29). -/
  rhs : Vector (BitVec 9) 256
  /-- `NEXT_NODE` (R29). -/
  nextNode : BitVec 10
  /-- `ROOT` (R29). -/
  root : BitVec 9
  /-- `OUT_TOTAL` (R30, R46). -/
  outTotal : Word
  /-- `RESULT` (R30, R35). -/
  result : Word
  /-- `CAUSE` (R34). -/
  cause : Word
  /-- The registers `MODE` to `UNPACKED_SIZE` (R36 to R42). -/
  cfg : ConfigRegs
  /-- `OUT_ADDR` (R43). -/
  outAddr : Word
  /-- `COUNT` (R44). -/
  count : Word
  /-- The host's output memory (R60): the bytes written to it, addresses strictly rising. -/
  mem : List Host.Cell
  /-- The byte sequence the host presents to port 0 (R26, R85). -/
  bound0 : List Byte
  /-- The byte sequence the host presents to port 1 (R26, R85). -/
  bound1 : List Byte
  /-- The model's own: the host's pending operations, oldest first (notes/assumptions/6.md). -/
  ops : List HostOp
  /-- The model's own: what the host's last register read returned (notes/assumptions/7.md). -/
  busData : Option Word
  /-- The model's own: the locals of the running CONTINUE (notes/assumptions/10.md). -/
  run : Run
deriving DecidableEq, Repr

/-- The configuration registers and `LCFG` after reset (R23, R36 to R42). -/
def ConfigRegs.zero : ConfigRegs := ⟨0, 0, 0, 0, 0, 0, 0⟩

/-- A port after reset (R26). -/
def InPort.empty : InPort := ⟨[], 0, 0⟩

/-- A reader after reset and after INIT (R27, R131). -/
def BitReader.empty : BitReader := ⟨0, 0⟩

/-- The state after reset (R49, R250), for any parameters. DESIGN CHOICE, unsafe: the window and the child arrays, whose
contents the spec leaves unspecified and no rule reads, are 0 (notes/assumptions/3.md, 4.md). -/
def State.resetWith (p : Params) : State where
  params := p
  sess := .idle
  lcfg := .zero
  phase := .none
  eos := false
  nodata := false
  port0 := .empty
  port1 := .empty
  br0 := .empty
  br1 := .empty
  win := ⟨0, []⟩
  cur := 0
  ctrlSr := 0
  ctrlLeft := 0
  copySrc := 0
  copyLeft := 0
  lhs := Vector.replicate 256 0
  rhs := Vector.replicate 256 0
  nextNode := 256
  root := 0
  outTotal := 0
  result := 0
  cause := 0
  cfg := .zero
  outAddr := 0
  count := 0
  mem := []
  bound0 := []
  bound1 := []
  ops := []
  busData := none
  run := .rest

/-- The machine right after reset, with the parameters of notes/assumptions/1.md. -/
def State.reset : State := .resetWith .chosen

end Sys2Proof.Machine
end

