-- ==== Sys2Proof/Machine/Operands.lean ====
section
/-! DEFINITION. Where the operands of commands and tokens come from: the fields of the configuration registers
(10_state.md R36 to R43), the operand sums of a back-reference (30_encoding.md R94) and the operands of CONTINUE
(R83, R133). -/

namespace Sys2Proof.Machine

/-! ### Fields of a `MODE` word (R36) -/

/-- `ENGINE`, bits 1:0: 0 LZSS, 1 HUFFMAN, 2 RAW, 3 reserved. -/
def ConfigRegs.engine (c : ConfigRegs) : BitVec 2 := c.mode.extractLsb' 0 2

/-- `BRV`, bit 2: `true` is LSB-first. -/
def ConfigRegs.lsb (c : ConfigRegs) : Bool := c.mode.getLsbD 2

/-- `INV`, bit 3: the control bit sense. -/
def ConfigRegs.inv (c : ConfigRegs) : Bool := c.mode.getLsbD 3

/-- `CORD`, bit 4: `true` takes bit 7 of a control byte first. -/
def ConfigRegs.cord (c : ConfigRegs) : Bool := c.mode.getLsbD 4

/-- `CTRL_SRC`, bit 5, as the port control bytes come from (R89). -/
def ConfigRegs.ctrlPort (c : ConfigRegs) : Port := if c.mode.getLsbD 5 then .p1 else .p0

/-- `BOUNDED`, bit 6: `UNPACKED_SIZE` is the target. -/
def ConfigRegs.bounded (c : ConfigRegs) : Bool := c.mode.getLsbD 6

/-- `PLIM`, bit 7: port 0 delivers at most `PACKED_SIZE` bytes. -/
def ConfigRegs.plim (c : ConfigRegs) : Bool := c.mode.getLsbD 7

/-- The value 0 of `ENGINE`. -/
abbrev engineLzss : BitVec 2 := 0

/-- The value 1 of `ENGINE`. -/
abbrev engineHuffman : BitVec 2 := 1

/-- The value 2 of `ENGINE`. -/
abbrev engineRaw : BitVec 2 := 2

/-! ### Fields of an `LZ_FIELDS` word (R40) and the window size -/

/-- `DIST_W`, bits 4:0. -/
def ConfigRegs.distW (c : ConfigRegs) : Nat := (c.lzFields.extractLsb' 0 5).toNat

/-- `LEN_W`, bits 12:8. -/
def ConfigRegs.lenW (c : ConfigRegs) : Nat := (c.lzFields.extractLsb' 8 5).toNat

/-- `DIST_BIAS`, bit 16. -/
def ConfigRegs.distBias (c : ConfigRegs) : Nat := (c.lzFields.getLsbD 16).toNat

/-- `LEN_BIAS`, bits 31:24. -/
def ConfigRegs.lenBias (c : ConfigRegs) : Nat := (c.lzFields.extractLsb' 24 8).toNat

/-- `FRAME_FILL[7:0]` (R38). -/
def ConfigRegs.fillByte (c : ConfigRegs) : Byte := c.frameFill.extractLsb' 0 8

/-- FS, the window size in bytes (R28). -/
def ConfigRegs.frame (c : ConfigRegs) : Nat := c.frameSize.toNat

/-- The format of the session's stream tokens (R92). -/
def ConfigRegs.format (c : ConfigRegs) : Format := ⟨c.lsb, c.distW, c.lenW⟩

/-! ### Which bits of a register are writable (R31, R36 to R44) -/

/-- The writable bits of `MODE` (R36). -/
def modeMask : Word := 0x000000FF

/-- The writable bits of `FRAME_FILL` (R38). -/
def fillMask : Word := 0x000000FF

/-- The writable bits of `LZ_FIELDS` (R40). -/
def lzFieldsMask : Word := 0xFF011F1F

/-- The writable bits of `OUT_ADDR`: `OUT_AW-1:0` (R43). -/
def outAddrMask (p : Params) : Word := BitVec.ofNat 32 (2 ^ p.outAw - 1)

/-! ### Operands of the tokens and commands -/

/-- The distance of a back-reference, `D_raw + DIST_BIAS`, exact (R94). -/
def refDistance (c : ConfigRegs) (d : BitVec 24) : Nat := d.toNat + c.distBias

/-- The length of a back-reference, `L_raw + LEN_BIAS`, exact (R94). -/
def refLength (c : ConfigRegs) (l : BitVec 24) : Nat := l.toNat + c.lenBias

/-- The largest request of a reader variant, `MAXN` (R8, R111). -/
def maxRequest (lsb : Bool) : Nat := if lsb then 32 else 24

/-- The address of the byte that CONTINUE writes k-th, from 0: `(OUT_ADDR + k) mod 2^OUT_AW` (R65). -/
def outByteAddr (p : Params) (base : Word) (k : Nat) : Nat := (base.toNat + k) % 2 ^ p.outAw

/-- INIT's check of an LZSS configuration (R131, D14): the frame size is not a power of two in 1..2^MAX_FRAME_LOG2, or a
field width is above 24. -/
def ConfigRegs.badLzss (p : Params) (c : ConfigRegs) : Bool :=
  c.frameSize == 0 || c.frameSize &&& (c.frameSize - 1) != 0 || decide (2 ^ p.maxFrameLog2 < c.frame) ||
    decide (24 < c.distW) || decide (24 < c.lenW)

end Sys2Proof.Machine
end

