-- ==== Sys2Proof/Machine/Flags.lean ====
section
/-! DEFINITION. The block's flags and the words that show them: the fault codes of `CAUSE` (60_exceptions.md R221), the
`STATUS` word (10_state.md R33), and what sets `EOS` (R25). The block has no arithmetic flags (R25). -/

namespace Sys2Proof.Machine

/-- `CLASS` of a fault (R221): 1 TRUNCATED, 2 MALFORMED, 3 CONTRACT. -/
def FaultCode.classCode : FaultCode → Byte
  | .truncCtrl => 1
  | .truncLit => 1
  | .truncRef => 1
  | .truncTree => 1
  | .truncSymbol => 1
  | .malTreeOverflow => 2
  | .malBadDistance => 2
  | .malZeroLength => 2
  | .contractIllegal => 3
  | .contractBadState => 3
  | .contractBitsTooMany => 3
  | .contractBadConfig => 3

/-- `DETAIL` of a fault (R221). -/
def FaultCode.detailCode : FaultCode → Byte
  | .truncCtrl => 1
  | .truncLit => 2
  | .truncRef => 3
  | .truncTree => 4
  | .truncSymbol => 5
  | .malTreeOverflow => 1
  | .malBadDistance => 2
  | .malZeroLength => 3
  | .contractIllegal => 1
  | .contractBadState => 2
  | .contractBitsTooMany => 3
  | .contractBadConfig => 4

/-- The word a fault writes to `CAUSE`: `(DETAIL << 8) | CLASS` (R34, R221). -/
def FaultCode.causeWord (f : FaultCode) : Word :=
  (f.detailCode.setWidth 32 <<< 8) ||| f.classCode.setWidth 32

/-- The `STATUS` word: bit 0 ACTIVE, bit 1 EOS, bit 2 FAULT, bit 3 NODATA, bits 5:4 ENGINE of `LCFG.MODE` (R33). -/
def statusWord (s : State) : Word :=
  BitVec.ofNat 32 ((s.sess == .active).toNat + 2 * s.eos.toNat + 4 * (s.sess == .faulted).toNat + 8 * s.nodata.toNat +
    16 * s.lcfg.engine.toNat)

/-- A bounded session has reached its target (R137). -/
def targetReached (s : State) : Bool := s.lcfg.bounded && s.outTotal == s.lcfg.unpackedSize

/-- `CheckTarget()` (R137). -/
def checkTarget (s : State) : State := if targetReached s then { s with eos := true } else s

end Sys2Proof.Machine
end

