-- ==== Sys2Proof/Machine/Ops.lean ====
section
/-! DEFINITION. The named operations over the block's state: sparse cells, output memory, window, tree arrays, the fetch of
an input byte, fault entry, the delivery of an output byte, and the tests the meanings share. -/

namespace Sys2Proof.Machine

/-! ### Byte cells, in canonical form (addresses strictly rising) -/

/-- The byte listed at an address. -/
def cellAt : List Host.Cell → Nat → Option Byte
  | [], _ => none
  | (k, v) :: t, a => if a = k then some v else cellAt t a

/-- List a byte at an address, in place of any byte listed there. -/
def putCell : List Host.Cell → Nat → Byte → List Host.Cell
  | [], a, b => [(a, b)]
  | (k, v) :: t, a, b =>
    if a < k then (a, b) :: (k, v) :: t
    else if a = k then (a, b) :: t
    else (k, v) :: putCell t a b

/-- Take the entry of an address out of the list. -/
def dropCell : List Host.Cell → Nat → List Host.Cell
  | [], _ => []
  | (k, v) :: t, a => if a = k then dropCell t a else (k, v) :: dropCell t a

/-- Every listed address is at or above the bound, and they strictly rise. -/
def risingFrom : Nat → List Host.Cell → Bool
  | _, [] => true
  | lo, (k, _) :: t => decide (lo ≤ k) && risingFrom (k + 1) t

/-! ### The output memory (20_memory.md R60, R65) -/

/-- The output memory: the bytes written to it. -/
abbrev Memory := List Host.Cell

/-- What an address of the output memory holds. A byte nothing has written has no value: the spec gives the host's memory
no contents, and the block never reads it (R65; notes/assumptions/5.md). -/
def Memory.read (m : Memory) (a : Nat) : Option Byte := cellAt m a

/-- Store one byte. -/
def Memory.write (m : Memory) (a : Nat) (b : Byte) : Memory := putCell m a b

/-- The canonical form: addresses strictly rising. An unlisted address reads as no value, so no entry equals it. -/
def Memory.wf (m : Memory) : Bool := risingFrom 0 m

/-- `MemWrite(a, 1, b)` (R65). -/
def memWrite (a : Nat) (b : Byte) (s : State) : State :=
  { s with mem := Memory.write s.mem (a % 2 ^ s.params.outAw) b }

/-! ### The LZSS window (R28, R64) -/

/-- `WIN[i]`. -/
def Window.get (w : Window) (i : Nat) : Byte := (cellAt w.cells i).getD w.fill

/-- `WIN[i] <- b`. A cell that holds the fill byte is not listed. -/
def Window.set (w : Window) (i : Nat) (b : Byte) : Window :=
  if b = w.fill then { w with cells := dropCell w.cells i } else { w with cells := putCell w.cells i b }

/-- Fill the whole window, as INIT does (R131). -/
def Window.filled (b : Byte) : Window := ⟨b, []⟩

/-- The canonical form of a window: indices strictly rising, no cell equal to the fill. -/
def Window.wf (w : Window) : Bool := risingFrom 0 w.cells && w.cells.all fun c => c.2 != w.fill

/-- Write one byte at the cursor and advance the cursor mod FS (R160). -/
def windowPush (b : Byte) (s : State) : State :=
  { s with win := s.win.set s.cur.toNat b, cur := BitVec.ofNat 24 ((s.cur.toNat + 1) % s.lcfg.frame) }

/-! ### The Huffman tree arrays (R29) -/

/-- The vector index of node `v`, 256..511: its low 8 bits. -/
def slotOf (v : BitVec 9) : Fin 256 := (v.setWidth 8).toFin

/-- `LHS[v]`. -/
def lhsAt (s : State) (v : BitVec 9) : BitVec 9 := s.lhs[slotOf v]

/-- `RHS[v]`. -/
def rhsAt (s : State) (v : BitVec 9) : BitVec 9 := s.rhs[slotOf v]

/-- `LHS[v] <- x`. -/
def setLhs (v x : BitVec 9) (s : State) : State := { s with lhs := s.lhs.set (slotOf v) x }

/-- `RHS[v] <- x`. -/
def setRhs (v x : BitVec 9) (s : State) : State := { s with rhs := s.rhs.set (slotOf v) x }

/-- A tree value below 256 is a leaf, the byte of that number (R29). -/
def isLeaf (x : BitVec 9) : Bool := decide (x.toNat < 256)

/-- The byte of a leaf, `x[7:0]` (R195). -/
def leafByte (x : BitVec 9) : Byte := x.setWidth 8

/-! ### Input ports and readers (R26, R63) -/

/-- `InByte` on a port: the next byte and the port after it, or none when the port is exhausted (R63). -/
def InPort.inByte (p : InPort) : Option (Byte × InPort) :=
  if p.pos < p.lim then
    match p.src[p.pos]? with
    | some b => some (b, { p with pos := p.pos + 1 })
    | none => none
  else none

/-- The bytes a port has still to deliver. -/
def InPort.unread (p : InPort) : List Byte := (p.src.take p.lim).drop p.pos

/-- Port k. -/
def State.port (s : State) : Port → InPort
  | .p0 => s.port0
  | .p1 => s.port1

/-- `POS_k`: the number of bytes fetched from port k, in 32 bits (R26, R45). `POS_k <- POS_k + 1` wraps mod 2^32 (R10, R63). -/
def State.posWord (s : State) (k : Port) : Word := BitVec.ofNat 32 (s.port k).pos

/-- Reader k. -/
def State.reader (s : State) : Port → BitReader
  | .p0 => s.br0
  | .p1 => s.br1

/-- Put port k and reader k back. -/
def State.setInput (s : State) : Port → InPort → BitReader → State
  | .p0, p, r => { s with port0 := p, br0 := r }
  | .p1, p, r => { s with port1 := p, br1 := r }

/-- How many bits reader k can still deliver: its buffered bits and eight for each byte not yet fetched. -/
def bitsLeft (k : Port) (s : State) : Nat := (s.reader k).cnt.toNat + 8 * (s.port k).unread.length

/-! ### Fault entry (60_exceptions.md R222) -/

/-- `raise CLASS(DETAIL)`: record the fault and abort the session. The command that raised it ends, so its locals go to
rest. No handler, vector or return exists (R222, R230). -/
def raise (f : FaultCode) (s : State) : State :=
  { s with cause := f.causeWord, sess := .faulted, phase := .none, result := 0, run := .rest }

/-- What exhaustion does in a session: the fault `f` when it is bounded, EOS when it is not (R166, R196). The unfinished
token is dropped (R168). -/
def exhaust (f : FaultCode) (s : State) : State :=
  if s.lcfg.bounded then raise f s else { s with eos := true, run := { s.run with sel := none, node := none } }

/-- An illegal command word (R88): a fault, but ignored in `FAULTED` (R227). -/
def illegalCommand (s : State) : State := if s.sess = .faulted then s else raise .contractIllegal s

/-! ### Output (41_session.md R136) -/

/-- `Emit(b)`. -/
def emit (b : Byte) (s : State) : State :=
  { memWrite (outByteAddr s.params s.outAddr s.run.n.toNat) b s with
    run := { s.run with n := s.run.n + 1 }, outTotal := s.outTotal + 1 }

/-! ### What the running step reads next (R97) -/

/-- The node of the running symbol step: the root until a code bit has been read (R195). -/
def symNode (s : State) : BitVec 9 := s.run.node.getD s.root

/-- The place of the token the engine reads next; none where the next step reads none, or no engine may run. -/
def awaits (s : State) : Option Place :=
  if s.sess = .active ∧ s.eos = false then
    match s.phase with
    | .none => none
    | .lzCopy => none
    | .lzToken =>
      match s.run.sel with
      | none => if s.ctrlLeft = 0 then some .ctrl else none
      | some .literal => some .literal
      | some .reference => some .reference
    | .hufBuild => some .tree
    | .hufSym => if isLeaf (symNode s) then none else some .code
  else none

/-- The outcome type of a step. -/
abbrev Res := Host.Outcome State Fault Refusal

/-- Go on from a next state; a fault or refusal stays. -/
def andThen (o : Res) (f : State → Res) : Res :=
  match o with
  | .next s => f s
  | .fault r => .fault r
  | .refused r => .refused r

/-- The meaning of a token: its effect where the engine reads such a token, a refusal elsewhere (R97, R134). -/
def atPlace (p : Place) (s : State) (effect : State → State) : Res :=
  if awaits s = some p then .next (effect s) else .refused .tokenOutOfPlace

end Sys2Proof.Machine
end

