-- ==== Sys2Proof/Machine/BitReader.lean ====
section
/-! DEFINITION. The bit readers (40_bitreader.md R110 to R115, R117), the fetch of a stream token through them, and the
commands that reach BR0 directly (R116, R118). -/

namespace Sys2Proof.Machine

/-- `mask(n)` in a 32-bit word (R10). -/
def maskWord (n : Nat) : Word := BitVec.ofNat 32 (2 ^ n - 1)

/-- Buffer a fetched byte: `ACC <- ((ACC << 8) | b) mod 2^32` MSB-first (R113), `ACC <- ACC | (b << CNT)` LSB-first (R114). -/
def BitReader.push (lsb : Bool) (b : Byte) (r : BitReader) : BitReader :=
  if lsb then ⟨r.acc ||| (b.setWidth 40 <<< r.cnt.toNat), r.cnt + 8⟩
  else ⟨(((r.acc <<< 8) ||| b.setWidth 40).setWidth 32).setWidth 40, r.cnt + 8⟩

/-- The loop `while CNT < n` of R113 and R114: whether n bits were reached, and the port and reader where it stopped. -/
def fillBits (lsb : Bool) (n : Nat) : Nat → InPort → BitReader → Bool × InPort × BitReader
  | 0, p, r => (decide (n ≤ r.cnt.toNat), p, r)
  | k + 1, p, r =>
    if r.cnt.toNat < n then
      match p.inByte with
      | none => (false, p, r)
      | some (b, p') => fillBits lsb n k p' (r.push lsb b)
    else (true, p, r)

/-- The part of R113 and R114 after the loop: the value and the reader without its n bits. -/
def BitReader.take (lsb : Bool) (n : Nat) (r : BitReader) : Word × BitReader :=
  let left := r.cnt - BitVec.ofNat 6 n
  if lsb then (r.acc.setWidth 32 &&& maskWord n, ⟨r.acc >>> n, left⟩)
  else ((r.acc >>> left.toNat).setWidth 32 &&& maskWord n, ⟨r.acc, left⟩)

/-- `GetBits` on a port and its reader, in a variant (R112). `none` is NODATA, which keeps what was fetched (R115). Every
turn of the loop buffers eight bits, so n turns are enough. -/
def readBits (lsb : Bool) (n : Nat) (p : InPort) (r : BitReader) : Option Word × InPort × BitReader :=
  match fillBits lsb n n p r with
  | (false, p', r') => (none, p', r')
  | (true, p', r') => (some (r'.take lsb n).1, p', (r'.take lsb n).2)

/-- `GetBits(k, n)` (R110, R112). -/
def getBits (k : Port) (n : Nat) (s : State) : Option Word × State :=
  let x := readBits s.lcfg.lsb n (s.port k) (s.reader k)
  (x.1, s.setInput k x.2.1 x.2.2)

/-! ### Fetching a stream token -/

/-- What a token fetch ends in: the token and the state after its bits, or exhaustion and the state it leaves (R115). -/
inductive Fetched where
  | token (i : Instr) (s : State)
  | exhausted (s : State)
deriving DecidableEq, Repr

/-- Read an 8-bit field from reader k and make its token. -/
def fetchByte (k : Port) (mk : Byte → Instr) (s : State) : Fetched :=
  match getBits k 8 s with
  | (some v, s') => .token (mk (v.setWidth 8)) s'
  | (none, s') => .exhausted s'

/-- Read the next token of a place through the bit readers (R90, R91, R92, R95, R96). -/
def fetchToken (p : Place) (s : State) : Fetched :=
  match p with
  | .ctrl => fetchByte s.lcfg.ctrlPort .lzCtrl s
  | .literal => fetchByte .p0 .lzLit s
  | .reference =>
    match getBits .p0 s.lcfg.distW s with
    | (none, s') => .exhausted s'
    | (some d, s') =>
      match getBits .p0 s'.lcfg.lenW s' with
      | (none, s'') => .exhausted s''
      | (some l, s'') => .token (.lzRef (d.setWidth 24) (l.setWidth 24)) s''
  | .tree =>
    match getBits .p0 1 s with
    | (none, s') => .exhausted s'
    | (some t, s') => if t = 1 then .token .hufBranch s' else fetchByte .p0 .hufLeaf s'
  | .code =>
    match getBits .p0 1 s with
    | (none, s') => .exhausted s'
    | (some b, s') => .token (if b = 0 then .hufCode0 else .hufCode1) s'

/-! ### Commands of a RAW session -/

/-- An `ACTIVE` session of the RAW engine is open. -/
def rawOpen (s : State) : Bool := s.sess == .active && s.lcfg.engine == engineRaw

/-- What GETBITS leaves after its read (R116). -/
def recordBits (x : Option Word × State) : State :=
  match x with
  | (none, s) => { s with nodata := true, result := 0 }
  | (some r, s) => { s with nodata := false, result := r }

/-- GETBITS (R116): ignored in `FAULTED` (R227); the state check, then the count check (R228), then the read. -/
def execGetbits (n : Byte) (s : State) : Res :=
  if s.sess = .faulted then .next s
  else if rawOpen s = false then .next (raise .contractBadState s)
  else if maxRequest s.lcfg.lsb < n.toNat then .next (raise .contractBitsTooMany s)
  else .next (recordBits (getBits .p0 n.toNat s))

/-- BITRESET (R118). -/
def execBitreset (s : State) : Res :=
  if s.sess = .faulted then .next s
  else if rawOpen s = false then .next (raise .contractBadState s)
  else .next { s with br0 := .empty }

end Sys2Proof.Machine
end

