-- ==== Sys2Proof/Machine/Huffman.lean ====
section
/-! DEFINITION. The Huffman engine (43_huffman.md): the meanings of its four tokens. Its steps are in Engine.lean. -/

namespace Sys2Proof.Machine

/-- Return a subtree to the tree build (R193): fill the child the innermost stack entry waits for. After a left child the
right subtree is read; after a right child its node is returned in turn; with no entry left it is the root (R191). -/
def returnSubtree : List BuildSlot → BitVec 9 → State → State
  | [], x, s => { s with root := x, phase := .hufSym, run := { s.run with stack := [] } }
  | .left v :: rest, x, s => { setLhs v x s with run := { s.run with stack := .right v :: rest } }
  | .right v :: rest, x, s => returnSubtree rest v (setRhs v x s)

/-- T1: allocate the next internal node, or overflow at the 257th, and go on to its left subtree (R193). -/
def execHufBranch (s : State) : Res :=
  atPlace .tree s fun s =>
    if 512 ≤ s.nextNode.toNat then raise .malTreeOverflow s
    else
      { s with
        nextNode := s.nextNode + 1
        run := { s.run with stack := .left (s.nextNode.setWidth 9) :: s.run.stack } }

/-- T0(v): return the leaf v (R194). -/
def execHufLeaf (v : Byte) (s : State) : Res :=
  atPlace .tree s fun s => returnSubtree s.run.stack (v.setWidth 9) s

/-- Move the symbol step to a child: at a leaf emit its byte and end the symbol, at a node stay inside it (R195). -/
def moveTo (child : BitVec 9) (s : State) : State :=
  if isLeaf child then emit (leafByte child) { s with run := { s.run with node := none } }
  else { s with run := { s.run with node := some child } }

/-- c0: follow the left child (R96, R195). -/
def execHufCode0 (s : State) : Res :=
  atPlace .code s fun s => moveTo (lhsAt s (symNode s)) s

/-- c1: follow the right child (R96, R195). -/
def execHufCode1 (s : State) : Res :=
  atPlace .code s fun s => moveTo (rhsAt s (symNode s)) s

end Sys2Proof.Machine
end

