-- ==== Sys2Proof/Machine/Lzss.lean ====
section
/-! DEFINITION. The LZSS engine (42_lzss.md): the meanings of its three tokens. Its steps are in Engine.lean. -/

namespace Sys2Proof.Machine

/-- Take the next control bit of `CTRL_SR` in the order `CORD` sets, and select the item it stands for (R90, R162). -/
def takeCtrlBit (s : State) : State :=
  let c := if s.lcfg.cord then s.ctrlSr.getLsbD 7 else s.ctrlSr.getLsbD 0
  { s with
    ctrlSr := if s.lcfg.cord then s.ctrlSr <<< 1 else s.ctrlSr >>> 1
    ctrlLeft := s.ctrlLeft - 1
    run := { s.run with sel := some (if xor c s.lcfg.inv then .literal else .reference) } }

/-- C(x), in `NextCtrlBit` with no control bit left: load the byte and take its first bit (R162). -/
def execLzCtrl (x : Byte) (s : State) : Res :=
  atPlace .ctrl s fun s => takeCtrlBit { s with ctrlSr := x, ctrlLeft := 8 }

/-- L(b): write the byte to the window and to the output (R163). -/
def execLzLit (b : Byte) (s : State) : Res :=
  atPlace .literal s fun s => emit b (windowPush b { s with run := { s.run with sel := none } })

/-- The header of a back-reference of distance `d` and length `len` starts its copy (R164). -/
def startCopy (d len : Nat) (s : State) : State :=
  { s with
    copySrc := BitVec.ofNat 24 ((s.cur.toNat + s.lcfg.frame - d) % s.lcfg.frame)
    copyLeft := BitVec.ofNat 32 len
    phase := .lzCopy
    run := { s.run with sel := none } }

/-- R(d, len): add the biases, check the distance and then the length (R165), start the copy (R164). -/
def execLzRef (d l : BitVec 24) (s : State) : Res :=
  atPlace .reference s fun s =>
    if refDistance s.lcfg d = 0 ∨ s.lcfg.frame < refDistance s.lcfg d then raise .malBadDistance s
    else if refLength s.lcfg l = 0 then raise .malZeroLength s
    else startCopy (refDistance s.lcfg d) (refLength s.lcfg l) s

end Sys2Proof.Machine
end

