-- ==== Sys2Proof/Machine/Engine.lean ====
section
/-! DEFINITION. The engine steps that CONTINUE runs (41_session.md R134): each fetches its tokens through the bit readers
and runs their meanings. -/

namespace Sys2Proof.Machine

/-- Run a token. A command is no stream token, and no fetch gives one. -/
def runToken (i : Instr) (s : State) : Res :=
  match i with
  | .init => .refused .tokenOutOfPlace
  | .cont => .refused .tokenOutOfPlace
  | .getbits _ => .refused .tokenOutOfPlace
  | .bitreset => .refused .tokenOutOfPlace
  | .close => .refused .tokenOutOfPlace
  | .lzCtrl x => execLzCtrl x s
  | .lzLit b => execLzLit b s
  | .lzRef d l => execLzRef d l s
  | .hufBranch => execHufBranch s
  | .hufLeaf v => execHufLeaf v s
  | .hufCode0 => execHufCode0 s
  | .hufCode1 => execHufCode1 s

/-- What exhaustion does at each place: `Exhaust(CTRL)`, `Exhaust(LIT)`, `Exhaust(REF)` (R166), `HufExhaust()` (R196), and in
the tree a fault in every session (R192, R194). -/
def exhaustAt (p : Place) (s : State) : State :=
  match p with
  | .ctrl => exhaust .truncCtrl s
  | .literal => exhaust .truncLit s
  | .reference => exhaust .truncRef s
  | .tree => raise .truncTree s
  | .code => exhaust .truncSymbol s

/-- Fetch the token of a place and run it, or handle exhaustion. -/
def engineToken (p : Place) (s : State) : Res :=
  match fetchToken p s with
  | .token i s' => runToken i s'
  | .exhausted s' => .next (exhaustAt p s')

/-! ### LZSS (R161, R167) -/

/-- The item the control bit selected: a literal (R163) or a back-reference header (R164). With none selected, exhaustion at
the control byte has ended the step. -/
def lzItemStep (s : State) : Res :=
  match s.run.sel with
  | some .literal => engineToken .literal s
  | some .reference => engineToken .reference s
  | none => .next s

/-- The token step, `PHASE = LZ_TOKEN` (R161): take a control bit, fetching a control byte when none is left (R162), then
the item. -/
def lzTokenStep (s : State) : Res :=
  if s.ctrlLeft = 0 then andThen (engineToken .ctrl s) lzItemStep
  else lzItemStep (takeCtrlBit s)

/-- The copy step, `PHASE = LZ_COPY` (R167): read a window byte, then write it at the cursor and emit it. -/
def lzCopyStep (s : State) : State :=
  emit (s.win.get s.copySrc.toNat)
    { windowPush (s.win.get s.copySrc.toNat) s with
      copySrc := BitVec.ofNat 24 ((s.copySrc.toNat + 1) % s.lcfg.frame)
      copyLeft := s.copyLeft - 1
      phase := if s.copyLeft - 1 = 0 then .lzToken else .lzCopy }

/-! ### Huffman (R191, R195) -/

/-- Read tree tokens until the root is returned or a fault ends the build (R192). Each token takes at least one bit, so with
as much fuel as there are bits the fuel ends only where the stream has none left. -/
def hufBuildLoop : Nat → State → Res
  | 0, s => .next (exhaustAt .tree s)
  | k + 1, s =>
    andThen (engineToken .tree s) fun s' => if s'.phase = .hufBuild then hufBuildLoop k s' else .next s'

/-- The build step, `PHASE = HUF_BUILD` (R191). -/
def hufBuildStep (s : State) : Res := hufBuildLoop (bitsLeft .p0 s) s

/-- Read code bits until a symbol is emitted or the stream ends (R195). The fuel is as in `hufBuildLoop`. -/
def hufSymLoop : Nat → State → Res
  | 0, s => .next (exhaustAt .code s)
  | k + 1, s =>
    andThen (engineToken .code s) fun s' => if s'.run.node = none then .next s' else hufSymLoop k s'

/-- The symbol step, `PHASE = HUF_SYM` (R195). A leaf root is emitted without reading a bit (R197). -/
def hufSymStep (s : State) : Res :=
  if isLeaf s.root then .next (emit (leafByte s.root) s) else hufSymLoop (bitsLeft .p0 s) s

/-! ### The step PHASE selects -/

/-- `Step()` (R134). `NONE` does not occur in an `ACTIVE` LZSS or HUFFMAN session. -/
def engineStep (s : State) : Res :=
  match s.phase with
  | .none => .fault .noEngineStep
  | .lzToken => lzTokenStep s
  | .lzCopy => .next (lzCopyStep s)
  | .hufBuild => hufBuildStep s
  | .hufSym => hufSymStep s

end Sys2Proof.Machine
end

