-- ==== Sys2Proof/Machine/Session.lean ====
section
/-! DEFINITION. The commands that open, drive and close a session (41_session.md R131, R133, R141). -/

namespace Sys2Proof.Machine

/-! ### INIT -/

/-- `LIM_0`: the length of the bound sequence, at most `PACKED_SIZE` when `PLIM` is set (R26). -/
def portLimit (c : ConfigRegs) (bytes : List Byte) : Nat :=
  if c.plim then min bytes.length c.packedSize.toNat else bytes.length

/-- INIT up to its checks: latch the configuration, bind the ports and reset all session state (R131, R252). -/
def openSession (s : State) : State :=
  { s with
    lcfg := s.cfg
    port0 := ⟨s.bound0, 0, portLimit s.cfg s.bound0⟩
    port1 := ⟨s.bound1, 0, s.bound1.length⟩
    br0 := .empty
    br1 := .empty
    eos := false
    nodata := false
    cause := 0
    result := 0
    outTotal := 0
    ctrlSr := 0
    ctrlLeft := 0
    copySrc := 0
    copyLeft := 0
    cur := 0
    nextNode := 256
    root := 0
    sess := .active
    phase := .none
    run := .rest }

/-- INIT's LZSS part: fill the window, set the cursor, start in `LZ_TOKEN` (R131). -/
def startLzss (s : State) : State :=
  { s with
    win := .filled s.lcfg.fillByte
    cur := BitVec.ofNat 24 (s.lcfg.frameInitPos.toNat % s.lcfg.frame)
    phase := .lzToken }

/-- INIT (R131). It acts in every SESS. -/
def execInit (s : State) : Res :=
  if s.cfg.engine = engineLzss then
    if s.cfg.badLzss s.params then .next (raise .contractBadConfig (openSession s))
    else .next (startLzss (openSession s))
  else if s.cfg.engine = engineHuffman then .next { openSession s with phase := .hufBuild }
  else if s.cfg.engine = engineRaw then .next (openSession s)
  else .next (raise .contractBadConfig (openSession s))

/-! ### CONTINUE -/

/-- The loop of R133: run steps while fewer than `want` bytes are written and EOS is 0; a fault ends it. Of two successive
steps at least one emits a byte, sets EOS or raises (R257), so `2 * want` turns are enough. -/
def contLoop (want : Word) : Nat → State → Res
  | 0, s => .next s
  | k + 1, s =>
    if s.run.n < want ∧ s.eos = false then
      andThen (engineStep s) fun s' =>
        if s'.sess = .faulted then .next s' else contLoop want k (checkTarget s')
    else .next s

/-- The end of CONTINUE: `RESULT <- n` unless a step raised, and the locals go to rest (R133, R222). -/
def finishCont (s : State) : State :=
  if s.sess = .faulted then s else { s with result := s.run.n, run := .rest }

/-- An `ACTIVE` session of an engine that CONTINUE drives is open. -/
def engineOpen (s : State) : Bool := s.sess == .active && s.lcfg.engine != engineRaw

/-- CONTINUE (R133): ignored in `FAULTED` (R227); BAD_STATE in `IDLE` or a RAW session; else up to `COUNT` bytes. -/
def execCont (s : State) : Res :=
  if s.sess = .faulted then .next s
  else if engineOpen s = false then .next (raise .contractBadState s)
  else
    andThen (contLoop s.count (2 * s.count.toNat) (checkTarget { s with run := .rest })) fun s' =>
      .next (finishCont s')

/-! ### CLOSE -/

/-- CLOSE (R141): release the sources; an ACTIVE session becomes IDLE, a FAULTED one stays FAULTED. -/
def execClose (s : State) : Res :=
  .next
    { s with
      port0 := { s.port0 with src := [], lim := 0 }
      port1 := { s.port1 with src := [], lim := 0 }
      phase := .none
      sess := if s.sess = .active then .idle else s.sess }

end Sys2Proof.Machine
end

