-- ==== Sys2Proof/Machine/Dispatch.lean ====
section
/-! DEFINITION. The meaning of every instruction: one arm per constructor of Instr. -/

namespace Sys2Proof.Machine

def exec (i : Instr) (s : State) : Host.Outcome State Fault Refusal :=
  match i with
  -- commands (41_session.md, 40_bitreader.md)
  | .init => Sys2Proof.Machine.execInit s
  | .cont => Sys2Proof.Machine.execCont s
  | .getbits n => Sys2Proof.Machine.execGetbits n s
  | .bitreset => Sys2Proof.Machine.execBitreset s
  | .close => Sys2Proof.Machine.execClose s
  -- LZSS stream tokens (42_lzss.md)
  | .lzCtrl x => Sys2Proof.Machine.execLzCtrl x s
  | .lzLit b => Sys2Proof.Machine.execLzLit b s
  | .lzRef d l => Sys2Proof.Machine.execLzRef d l s
  -- Huffman stream tokens (43_huffman.md)
  | .hufBranch => Sys2Proof.Machine.execHufBranch s
  | .hufLeaf v => Sys2Proof.Machine.execHufLeaf v s
  | .hufCode0 => Sys2Proof.Machine.execHufCode0 s
  | .hufCode1 => Sys2Proof.Machine.execHufCode1 s

end Sys2Proof.Machine
end

