-- ==== Sys2Proof/Machine/HostAccess.lean ====
section
/-! DEFINITION. What the host does to the block: register accesses (10_state.md R31 to R46, 20_memory.md R61), `bind`
(30_encoding.md R85), hardware reset (70_reset_and_hazards.md R250), and the pseudo-instructions (R87). -/

namespace Sys2Proof.Machine

/-! ### The register map (R31) -/

/-- The 16 registers. -/
inductive Reg where
  | cmd
  | status
  | cause
  | result
  | mode
  | frameSize
  | frameFill
  | frameInitPos
  | lzFields
  | packedSize
  | unpackedSize
  | outAddr
  | count
  | inPos
  | ctrlPos
  | outTotal
deriving DecidableEq, Repr

/-- The byte offset of a register from `REG_BASE` (R31). -/
def Reg.offset : Reg → Nat
  | .cmd => 0x00
  | .status => 0x04
  | .cause => 0x08
  | .result => 0x0C
  | .mode => 0x10
  | .frameSize => 0x14
  | .frameFill => 0x18
  | .frameInitPos => 0x1C
  | .lzFields => 0x20
  | .packedSize => 0x24
  | .unpackedSize => 0x28
  | .outAddr => 0x2C
  | .count => 0x30
  | .inPos => 0x34
  | .ctrlPos => 0x38
  | .outTotal => 0x3C

/-- The register at a word number of the block, if the block has one (R31). -/
def Reg.ofIndex : Nat → Option Reg
  | 0 => some .cmd
  | 1 => some .status
  | 2 => some .cause
  | 3 => some .result
  | 4 => some .mode
  | 5 => some .frameSize
  | 6 => some .frameFill
  | 7 => some .frameInitPos
  | 8 => some .lzFields
  | 9 => some .packedSize
  | 10 => some .unpackedSize
  | 11 => some .outAddr
  | 12 => some .count
  | 13 => some .inPos
  | 14 => some .ctrlPos
  | 15 => some .outTotal
  | _ => none

/-- What the host reads from a register. Reserved fields read 0 (R31); `CMD` reads 0 (R32). -/
def readReg (r : Reg) (s : State) : Word :=
  match r with
  | .cmd => 0
  | .status => statusWord s
  | .cause => s.cause
  | .result => s.result
  | .mode => s.cfg.mode
  | .frameSize => s.cfg.frameSize
  | .frameFill => s.cfg.frameFill
  | .frameInitPos => s.cfg.frameInitPos
  | .lzFields => s.cfg.lzFields
  | .packedSize => s.cfg.packedSize
  | .unpackedSize => s.cfg.unpackedSize
  | .outAddr => s.outAddr
  | .count => s.count
  | .inPos => s.posWord .p0
  | .ctrlPos => s.posWord .p1
  | .outTotal => s.outTotal

/-- A host write to a register that runs no command. Reserved fields and read-only registers ignore it (R31). A write to
`CMD` runs a command instead, in Step.lean. -/
def writeReg (r : Reg) (v : Word) (s : State) : State :=
  match r with
  | .cmd => s
  | .status => s
  | .cause => s
  | .result => s
  | .mode => { s with cfg := { s.cfg with mode := v &&& modeMask } }
  | .frameSize => { s with cfg := { s.cfg with frameSize := v } }
  | .frameFill => { s with cfg := { s.cfg with frameFill := v &&& fillMask } }
  | .frameInitPos => { s with cfg := { s.cfg with frameInitPos := v } }
  | .lzFields => { s with cfg := { s.cfg with lzFields := v &&& lzFieldsMask } }
  | .packedSize => { s with cfg := { s.cfg with packedSize := v } }
  | .unpackedSize => { s with cfg := { s.cfg with unpackedSize := v } }
  | .outAddr => { s with outAddr := v &&& outAddrMask s.params }
  | .count => { s with count := v }
  | .inPos => s
  | .ctrlPos => s
  | .outTotal => s

/-- The register a host access reaches, or why a model refuses it (R61): outside the block, or not a whole aligned word. -/
def accessReg (p : Params) (addr : Nat) (w : Width) : Except Refusal Reg :=
  if addr < p.regBase ∨ p.regBase + 0x40 ≤ addr then .error .outsideBlock
  else if w ≠ .word ∨ (addr - p.regBase) % 4 ≠ 0 then .error .partialAccess
  else
    match Reg.ofIndex ((addr - p.regBase) / 4) with
    | some r => .ok r
    | none => .error .outsideBlock

/-! ### Host operations -/

/-- Present a byte sequence, of any finite length, to a port (R26, R85). The next INIT binds it. -/
def bindPort (k : Port) (bytes : List Byte) (s : State) : State :=
  match k with
  | .p0 => { s with bound0 := bytes }
  | .p1 => { s with bound1 := bytes }

/-- Hardware reset (R250): every piece of the block's state takes its reset value. The host's memory, what the host
presents to the ports and its pending operations are not the block's (notes/assumptions/18.md). -/
def hardReset (s : State) : State :=
  { State.resetWith s.params with
    mem := s.mem, bound0 := s.bound0, bound1 := s.bound1, ops := s.ops, busData := s.busData }

/-- What the host does next. -/
inductive HostTurn where
  /-- Nothing: the block waits (R250). -/
  | idle
  /-- A word written to `CMD` (R32), and the state without this operation. -/
  | command (w : Word) (s : State)
  /-- Any other operation, done. -/
  | done (o : Res)

/-- Take the host's oldest operation. -/
def hostTurn (s : State) : HostTurn :=
  match s.ops with
  | [] => .idle
  | .write addr w v :: rest =>
    match accessReg s.params addr w with
    | .error e => .done (.refused e)
    | .ok .cmd => .command v { s with ops := rest }
    | .ok r => .done (.next (writeReg r v { s with ops := rest }))
  | .read addr w :: rest =>
    match accessReg s.params addr w with
    | .error e => .done (.refused e)
    | .ok r => .done (.next { s with ops := rest, busData := some (readReg r s) })
  | .bind k bytes :: rest => .done (.next (bindPort k bytes { s with ops := rest }))
  | .reset :: rest => .done (.next (hardReset { s with ops := rest }))

/-! ### The assembler's operations and the pseudo-instructions (R85, R87) -/

/-- `wr REG, v`. -/
def wrOp (p : Params) (r : Reg) (v : Word) : HostOp := .write (p.regBase + r.offset) .word v

/-- `rd REG`. -/
def rdOp (p : Params) (r : Reg) : HostOp := .read (p.regBase + r.offset) .word

/-- A command word written to `CMD`. -/
def cmdOp (p : Params) (w : Word) : HostOp := wrOp p .cmd w

/-- `getbit` expands to `getbits 1`. -/
def getbitOps (p : Params) : List HostOp := [cmdOp p (packWord 3 1)]

/-- `read` expands to `continue`. -/
def readOps (p : Params) : List HostOp := [cmdOp p (packWord 2 0)]

/-- `decode P, U`, the one-shot decode, where `mode` is what `MODE` holds before it. The 0xC0 sets BOUNDED and PLIM. -/
def decodeOps (p : Params) (mode packed unpacked : Word) : List HostOp :=
  [wrOp p .mode (mode ||| 0xC0), wrOp p .packedSize packed, wrOp p .unpackedSize unpacked, wrOp p .count unpacked,
    cmdOp p (packWord 1 0), cmdOp p (packWord 2 0)]

end Sys2Proof.Machine
end

