-- ==== Sys2Proof/Machine/Step.lean ====
section
/-! DEFINITION. One step of the machine: the host's oldest operation, done in full before its next (00_scope.md R7,
20_memory.md R70). -/

namespace Sys2Proof.Machine

/-- One step. A word written to `CMD` is decoded and its command executed (R32); a word R84 does not select is illegal
(R88). With no operation of the host, the block waits (R250). -/
def step (s : State) : Host.Outcome State Fault Refusal :=
  match hostTurn s with
  | .idle => .next s
  | .command w s' =>
    match decodeWord w with
    | .ok i => exec i s'
    | .error _ => .next (illegalCommand s')
  | .done o => o

/-- The state whose next step runs the command word `w`: the host's next operation writes it to `CMD`. The machine fetches
no program (R73); see notes/assumptions/6.md. -/
def State.withFetchWord (s : State) (nbits w : Nat) : State :=
  { s with ops := cmdOp s.params (BitVec.ofNat 32 (w % 2 ^ nbits)) :: s.ops }

end Sys2Proof.Machine
end

