-- ==== Sys2Proof/Safety.lean ====
section
/-! DEFINITION. The terms statements about runs are made in: the bit stream a reader has still to deliver, the invariant of
states between host operations, the trees a Huffman description stands for, and the window history of a session. -/

namespace Sys2Proof.Machine

/-! ### The rest of a bit stream (00_scope.md R12, 40_bitreader.md R110) -/

/-- The bits reader and port have still to deliver, in stream order: the buffered bits, then the bytes not yet fetched. -/
def pendingBits (lsb : Bool) (p : InPort) (r : BitReader) : List Bool :=
  fieldBits lsb r.cnt.toNat r.acc.toNat ++ bitStream lsb p.unread

/-- The rest of port k's bit stream in a session. -/
def State.pending (s : State) (k : Port) : List Bool := pendingBits s.lcfg.lsb (s.port k) (s.reader k)

/-- A port and its reader between requests (R26, R27, R119): the limit is within the sequence, the position within the limit,
and the buffered bits are at most 23 (MSB-first, in 32 bits) or 31 (LSB-first, with no bit at or above the count). -/
structure ReaderOk (lsb : Bool) (p : InPort) (r : BitReader) : Prop where
  limit : p.lim ≤ p.src.length
  position : p.pos ≤ p.lim
  count : r.cnt.toNat ≤ if lsb then 31 else 23
  clean : if lsb then r.acc.toNat < 2 ^ r.cnt.toNat else r.acc.toNat < 2 ^ 32

/-- Both readers of a session are so. -/
def State.readersOk (s : State) : Prop :=
  ReaderOk s.lcfg.lsb s.port0 s.br0 ∧ ReaderOk s.lcfg.lsb s.port1 s.br1

/-- The port a place's tokens come from (R89, R95). -/
def inputPort (c : ConfigRegs) : Place → Port
  | .ctrl => c.ctrlPort
  | .literal => .p0
  | .reference => .p0
  | .tree => .p0
  | .code => .p0

/-! ### The invariant of states between host operations -/

/-- Reserved fields of the configuration registers are 0 (R31, R36, R38, R40). -/
def ConfigRegs.clean (c : ConfigRegs) : Bool :=
  c.mode &&& ~~~modeMask == 0 && c.frameFill &&& ~~~fillMask == 0 && c.lzFields &&& ~~~lzFieldsMask == 0

/-- A frame size INIT accepts (R37): a power of two in 1..2^MAX_FRAME_LOG2. -/
def frameOk (p : Params) (c : ConfigRegs) : Prop := ∃ k, k ≤ p.maxFrameLog2 ∧ c.frame = 2 ^ k

/-- The engine state of an ACTIVE LZSS session (R28, R40, R134). -/
structure LzssOk (s : State) : Prop where
  phase : s.phase = .lzToken ∨ s.phase = .lzCopy
  frame : frameOk s.params s.lcfg
  widths : s.lcfg.distW ≤ 24 ∧ s.lcfg.lenW ≤ 24
  cursor : s.cur.toNat < s.lcfg.frame
  source : s.copySrc.toNat < s.lcfg.frame
  controls : s.ctrlLeft.toNat ≤ 8
  copying : s.phase = .lzCopy → s.copyLeft ≠ 0
  cells : ∀ c ∈ s.win.cells, c.1 < s.lcfg.frame

/-- The engine state of an ACTIVE HUFFMAN session (R29, R191). -/
structure HuffmanOk (s : State) : Prop where
  phase : s.phase = .hufBuild ∨ s.phase = .hufSym
  nodes : 256 ≤ s.nextNode.toNat ∧ s.nextNode.toNat ≤ 512
  fresh : s.phase = .hufBuild → s.nextNode.toNat = 256

/-- An ACTIVE session: its readers, its engine's state, and its target, which it never passes and which is the only EOS of
a bounded session (R137). -/
structure ActiveOk (s : State) : Prop where
  readers : s.readersOk
  lzss : s.lcfg.engine = engineLzss → LzssOk s
  huffman : s.lcfg.engine = engineHuffman → HuffmanOk s
  raw : s.lcfg.engine = engineRaw → s.phase = .none ∧ s.eos = false
  known : s.lcfg.engine ≠ 3
  target : s.lcfg.bounded = true → s.outTotal.toNat ≤ s.lcfg.unpackedSize.toNat
  ended : s.lcfg.bounded = true → s.eos = true → s.outTotal = s.lcfg.unpackedSize

/-- What every state between host operations satisfies. -/
structure Inv (s : State) : Prop where
  params : s.params.ok = true
  memory : Memory.wf s.mem = true
  addresses : ∀ c ∈ s.mem, c.1 < 2 ^ s.params.outAw
  window : s.win.wf = true
  registers : s.cfg.clean = true
  latched : s.lcfg.clean = true
  outAddr : s.outAddr.toNat < 2 ^ s.params.outAw
  atRest : s.run = .rest
  active : s.sess = .active → ActiveOk s
  closed : s.sess ≠ .active → s.phase = .none
  faulted : s.sess = .faulted → s.result = 0 ∧ ∃ f : FaultCode, s.cause = f.causeWord
  noFault : s.sess ≠ .faulted → s.cause = 0

/-- A safe state: the block has not recorded a fault (R222). -/
def State.safe (s : State) : Prop := s.sess ≠ .faulted

/-! ### Which states differ only in what a session does not read -/

/-- The same state with other configuration registers and other sequences presented (R254, R255). -/
def State.reconfigured (s : State) (c : ConfigRegs) (b0 b1 : List Byte) : State :=
  { s with cfg := c, bound0 := b0, bound1 := b1 }

/-! ### Huffman trees (43_huffman.md R190 to R199) -/

/-- A binary code tree. -/
inductive HufTree where
  | leaf (v : Byte)
  | node (l r : HufTree)
deriving DecidableEq, Repr

/-- The internal nodes of a tree. -/
def HufTree.nodes : HufTree → Nat
  | .leaf _ => 0
  | .node l r => 1 + l.nodes + r.nodes

/-- The description of a tree: a pre-order walk, 1 for a branch, 0 and the value for a leaf (R95). -/
def HufTree.describe (lsb : Bool) : HufTree → List Bool
  | .leaf v => false :: fieldBits lsb 8 v.toNat
  | .node l r => true :: (l.describe lsb ++ r.describe lsb)

/-- Follow code bits from the root to a leaf: its byte and the bits after its code; none when the bits end first (R96). -/
def HufTree.walk : HufTree → List Bool → Option (Byte × List Bool)
  | .leaf v, bits => some (v, bits)
  | .node _ _, [] => none
  | .node l r, b :: bits => if b then r.walk bits else l.walk bits

/-- The child arrays hold a tree at an index: a leaf is its own byte (R29), a node an index from 256 up. -/
def Represents (s : State) : BitVec 9 → HufTree → Prop
  | x, .leaf v => x = v.setWidth 9
  | x, .node l r => isLeaf x = false ∧ Represents s (lhsAt s x) l ∧ Represents s (rhsAt s x) r

/-! ### The window as a record of the output (42_lzss.md R173) -/

/-- The window after a session has emitted `out`: the cursor has moved once for each byte, and the j-th cell before it holds
the j-th most recent byte, or the fill byte when the output is shorter. -/
structure WindowHistory (s : State) (out : List Byte) : Prop where
  cursor : s.cur.toNat = (s.lcfg.frameInitPos.toNat + out.length) % s.lcfg.frame
  cells : ∀ j, 1 ≤ j → j ≤ s.lcfg.frame →
    s.win.get ((s.cur.toNat + s.lcfg.frame - j) % s.lcfg.frame) = (out.reverse[j - 1]?).getD s.lcfg.fillByte

end Sys2Proof.Machine
end

