-- ==== Sys2Proof/Certificates/Slice0/Obligations.lean ====
section
/-! DEFINITION. The statements about the block, for the provers: definitions of propositions, one for each obligation. -/

open Sys2Proof Sys2Proof.Machine

/-! ### Encoding -/

/-- R84: a command word selects an instruction exactly when `RSV = 0`, `OP` is in 0x01..0x05 and either `OP = 0x03` or
`N = 0`; as match and mask, every command but `getbits` has mask 0xFFFFFFFF, and `getbits` has mask 0xFFFF00FF. -/
def Obligations.CommandWordSelection : Prop :=
  (∀ w : Word, (∃ i, decodeWord w = .ok i) ↔
    w.extractLsb' 16 16 = 0 ∧ 1 ≤ (w.extractLsb' 0 8).toNat ∧ (w.extractLsb' 0 8).toNat ≤ 5 ∧
      (w.extractLsb' 0 8 = 3 ∨ w.extractLsb' 8 8 = 0)) ∧
  ∀ w : Word,
    (decodeWord w = .ok .init ↔ w &&& 0xFFFFFFFF = 0x00000001) ∧
    (decodeWord w = .ok .cont ↔ w &&& 0xFFFFFFFF = 0x00000002) ∧
    ((∃ n, decodeWord w = .ok (.getbits n)) ↔ w &&& 0xFFFF00FF = 0x00000003) ∧
    (decodeWord w = .ok .bitreset ↔ w &&& 0xFFFFFFFF = 0x00000004) ∧
    (decodeWord w = .ok .close ↔ w &&& 0xFFFFFFFF = 0x00000005)

/-- R81, R82, R84: the bytes of a command's word decode to that command, whatever follows; and a word that decodes is the
encoding of what it decodes to. -/
def Obligations.CommandDecodeEncode : Prop :=
  (∀ (f : Format) (i : Instr) (w : Word) (rest : List Byte),
    encode f i = .word w → decodeBytes (wordBytes w ++ rest) = .ok (i, rest)) ∧
  ∀ (f : Format) (w : Word) (i : Instr), decodeWord w = .ok i → encode f i = .word w

/-- R90 to R97: the bits of a well-formed stream token, read where the engine reads such a token, decode to that token and
leave the bits after it. -/
def Obligations.TokenDecodeEncode : Prop :=
  ∀ (f : Format) (i : Instr) (p : Place) (bits rest : List Bool),
    i.wellFormed f = true → i.place = some p → encode f i = .bits bits →
      decodeToken f p (bits ++ rest) = .ok (i, rest)

/-- R97: what decodes as a token is exactly that token's encoding, followed by the rest. -/
def Obligations.TokenEncodeDecode : Prop :=
  ∀ (f : Format) (p : Place) (bits rest : List Bool) (i : Instr),
    f.distW ≤ 24 → f.lenW ≤ 24 → decodeToken f p bits = .ok (i, rest) →
      i.place = some p ∧ i.wellFormed f = true ∧ ∃ bs, encode f i = .bits bs ∧ bits = bs ++ rest

/-- R82, R85: the command words of the spec, written out, decode to their commands. -/
def Obligations.CommandWordsOfTheSpec : Prop :=
  decodeWord 0x00000001 = .ok .init ∧ decodeWord 0x00000002 = .ok .cont ∧ decodeWord 0x00000303 = .ok (.getbits 3) ∧
    decodeWord 0x00000004 = .ok .bitreset ∧ decodeWord 0x00000005 = .ok .close ∧
    decodeWord 0x00000101 = .error .strayCount ∧ decodeWord 0x00010003 = .error .reservedField ∧
    decodeWord 0x00000006 = .error .reservedOpcode

/-- R93: with `DIST_W = 12` and `LEN_W = 4`, the two bytes of a back-reference, in each variant; and its example. -/
def Obligations.BackReferenceBytes : Prop :=
  (∀ (b0 b1 : Byte) (rest : List Bool),
    decodeToken ⟨false, 12, 4⟩ .reference (bitStream false [b0, b1] ++ rest) =
      .ok (.lzRef ((b0 ++ b1.extractLsb' 4 4).setWidth 24) ((b1.extractLsb' 0 4).setWidth 24), rest) ∧
    decodeToken ⟨true, 12, 4⟩ .reference (bitStream true [b0, b1] ++ rest) =
      .ok (.lzRef ((b1.extractLsb' 0 4 ++ b0).setWidth 24) ((b1.extractLsb' 4 4).setWidth 24), rest)) ∧
  decodeToken ⟨false, 12, 4⟩ .reference (bitStream false [0xAB, 0xCD]) = .ok (.lzRef 0xABC 0xD, []) ∧
  decodeToken ⟨true, 12, 4⟩ .reference (bitStream true [0xAB, 0xCD]) = .ok (.lzRef 0xDAB 0xC, [])

/-! ### Steps -/

/-- R32: a word the host writes to `CMD` runs the command it decodes to, on the state without that operation; and
`withFetchWord` places exactly such a write. -/
def Obligations.StepRunsDecodedCommand : Prop :=
  (∀ (s : State) (w : Word) (rest : List HostOp) (i : Instr),
    s.ops = .write s.params.regBase .word w :: rest → decodeWord w = .ok i → step s = exec i { s with ops := rest }) ∧
  ∀ (s : State) (w : Word) (i : Instr), decodeWord w = .ok i → step (s.withFetchWord 32 w.toNat) = exec i s

/-- R134: when an engine step fetches a token, it runs that token's meaning on the state the fetch left. -/
def Obligations.EngineRunsDecodedToken : Prop :=
  ∀ (p : Place) (s s' : State) (i : Instr),
    fetchToken p s = .token i s' → i.place = some p ∧ engineToken p s = exec i s'

/-- R88: a word that R84 does not select raises `CONTRACT(ILLEGAL_COMMAND)`, unless `SESS = FAULTED`, when it has no
effect. -/
def Obligations.IllegalWords : Prop :=
  ∀ (s : State) (w : Word) (rest : List HostOp),
    s.ops = .write s.params.regBase .word w :: rest →
    (w.extractLsb' 16 16 ≠ 0 ∨ (w.extractLsb' 0 8).toNat = 0 ∨ 5 < (w.extractLsb' 0 8).toNat ∨
      (w.extractLsb' 0 8 ≠ 3 ∧ w.extractLsb' 8 8 ≠ 0)) →
    step s = .next (if s.sess = .faulted then { s with ops := rest }
      else { s with ops := rest, cause := 0x0103, sess := .faulted, phase := .none, result := 0, run := .rest })

/-- R97, R134: a stream token runs only where the engine reads such a token; elsewhere the model refuses it. The refusal is
the model's choice (notes/assumptions/11.md). -/
def Obligations.TokensRunOnlyInPlace : Prop :=
  ∀ (i : Instr) (p : Place) (s : State), i.place = some p →
    (awaits s = some p → ∃ t, exec i s = .next t) ∧ (awaits s ≠ some p → exec i s = .refused .tokenOutOfPlace)

/-! ### Bit readers -/

/-- R110: a request returns the next n bits of the port's bit stream as an unsigned number and advances by n bits, or
NODATA, when fewer than n are left, and advances by none. -/
def Obligations.GetBitsReturnsNextBits : Prop :=
  ∀ (lsb : Bool) (n : Nat) (p : InPort) (r : BitReader), ReaderOk lsb p r → n ≤ maxRequest lsb →
    ∃ v p' r', readBits lsb n p r = (v, p', r') ∧ ReaderOk lsb p' r' ∧ p'.src = p.src ∧ p'.lim = p.lim ∧
      if n ≤ (pendingBits lsb p r).length then
        (∃ x, v = some x ∧ x.toNat = fieldValue lsb ((pendingBits lsb p r).take n)) ∧
          pendingBits lsb p' r' = (pendingBits lsb p r).drop n
      else v = none ∧ pendingBits lsb p' r' = pendingBits lsb p r

/-- R117: a request for 0 bits returns 0 and changes nothing. -/
def Obligations.ZeroRequestChangesNothing : Prop :=
  ∀ (k : Port) (s : State), getBits k 0 s = (some 0, s)

/-- R119: after a request that succeeds, at most 7 bits are buffered if it fetched a byte, and n fewer than before if it
did not; after NODATA fewer than n bits are buffered. -/
def Obligations.BufferedBitsAfterRequest : Prop :=
  ∀ (lsb : Bool) (n : Nat) (p : InPort) (r : BitReader), ReaderOk lsb p r → n ≤ maxRequest lsb →
    match readBits lsb n p r with
    | (some _, p', r') =>
      (p' ≠ p → r'.cnt.toNat ≤ 7) ∧ (p' = p → r'.cnt.toNat + n = r.cnt.toNat) ∧ (r.cnt.toNat ≤ 7 → r'.cnt.toNat ≤ 7)
    | (none, _, r') => r'.cnt.toNat < n

/-- R95, R97, R110: fetching a token through the bit readers is decoding the token at the front of the port's bit stream, and
takes exactly its bits; it is exhausted exactly where the stream ends inside the token. Nothing but the port and its reader
changes. -/
def Obligations.FetchDecodesTheBitStream : Prop :=
  ∀ (p : Place) (s : State), s.readersOk → s.lcfg.distW ≤ 24 → s.lcfg.lenW ≤ 24 →
    match decodeToken s.lcfg.format p (s.pending (inputPort s.lcfg p)) with
    | .ok (i, rest) =>
      ∃ t, fetchToken p s = .token i t ∧ t.pending (inputPort s.lcfg p) = rest ∧ t.readersOk ∧
        t = s.setInput (inputPort s.lcfg p) (t.port (inputPort s.lcfg p)) (t.reader (inputPort s.lcfg p))
    | .error _ =>
      ∃ t, fetchToken p s = .exhausted t ∧ t.readersOk ∧
        t = s.setInput (inputPort s.lcfg p) (t.port (inputPort s.lcfg p)) (t.reader (inputPort s.lcfg p))

/-! ### Commands of a RAW session -/

/-- R116: in an ACTIVE RAW session a legal GETBITS completes. With n bits left it puts their value in RESULT, clears NODATA
and advances by n; with fewer it sets NODATA and RESULT to 0 and keeps every bit. Nothing else changes. -/
def Obligations.GetbitsReadsTheStream : Prop :=
  ∀ (s : State) (n : Byte), s.sess = .active → s.lcfg.engine = 2 → ReaderOk s.lcfg.lsb s.port0 s.br0 →
    n.toNat ≤ (if s.lcfg.lsb then 32 else 24) →
    ∃ t, exec (.getbits n) s = .next t ∧
      t = { s with port0 := { s.port0 with pos := t.port0.pos }, br0 := t.br0, nodata := t.nodata, result := t.result } ∧
      if n.toNat ≤ (s.pending .p0).length then
        t.nodata = false ∧ t.result.toNat = fieldValue s.lcfg.lsb ((s.pending .p0).take n.toNat) ∧
          t.pending .p0 = (s.pending .p0).drop n.toNat
      else t.nodata = true ∧ t.result = 0 ∧ t.pending .p0 = s.pending .p0

/-- R116, R118, R133, R228: GETBITS and BITRESET raise BAD_STATE outside an ACTIVE RAW session, before the count is checked;
in one, a count above the variant's maximum raises BITS_TOO_MANY. CONTINUE raises BAD_STATE in IDLE and in a RAW session. -/
def Obligations.CommandsOutOfStateFault : Prop :=
  ∀ (s : State) (n : Byte),
    (s.sess ≠ .faulted → ¬(s.sess = .active ∧ s.lcfg.engine = 2) →
      exec (.getbits n) s =
        .next { s with cause := 0x0203, sess := .faulted, phase := .none, result := 0, run := .rest } ∧
      exec .bitreset s =
        .next { s with cause := 0x0203, sess := .faulted, phase := .none, result := 0, run := .rest }) ∧
    (s.sess = .active → s.lcfg.engine = 2 → (if s.lcfg.lsb then 32 else 24) < n.toNat →
      exec (.getbits n) s =
        .next { s with cause := 0x0303, sess := .faulted, phase := .none, result := 0, run := .rest }) ∧
    (s.sess = .idle ∨ (s.sess = .active ∧ s.lcfg.engine = 2) →
      exec .cont s =
        .next { s with cause := 0x0203, sess := .faulted, phase := .none, result := 0, run := .rest })

/-- R118: in an ACTIVE RAW session BITRESET discards every buffered bit of BR0 and changes nothing else, so the next bit is
the first of the next byte not yet fetched. -/
def Obligations.BitresetDiscardsBufferedBits : Prop :=
  ∀ s : State, s.sess = .active → s.lcfg.engine = 2 →
    ∃ t, exec .bitreset s = .next t ∧ t = { s with br0 := ⟨0, 0⟩ } ∧ t.pending .p0 = bitStream s.lcfg.lsb s.port0.unread

/-- R227: in FAULTED every command word but INIT and CLOSE changes nothing and raises nothing. -/
def Obligations.FaultedIgnoresCommands : Prop :=
  ∀ s : State, s.sess = .faulted →
    exec .cont s = .next s ∧ (∀ n, exec (.getbits n) s = .next s) ∧ exec .bitreset s = .next s ∧
      ∀ (w : Word) (rest : List HostOp), s.ops = .write s.params.regBase .word w :: rest →
        decodeWord w ≠ .ok .init → decodeWord w ≠ .ok .close → step s = .next { s with ops := rest }

/-! ### Sessions -/

/-- R131, R37: INIT of a legal LZSS configuration (a power of two in 1..2^MAX_FRAME_LOG2, widths at most 24) opens a session
with the window filled and the cursor at `FRAME_INIT_POS mod FRAME_SIZE`. Nothing it does not name changes. -/
def Obligations.InitOpensLzssSession : Prop :=
  ∀ (s : State) (k : Nat), s.params.ok = true → s.cfg.engine = 0 → k ≤ s.params.maxFrameLog2 →
    s.cfg.frameSize.toNat = 2 ^ k → s.cfg.distW ≤ 24 → s.cfg.lenW ≤ 24 →
    ∃ t, exec .init s = .next t ∧
      (∀ i, i < 2 ^ k → t.win.get i = s.cfg.frameFill.extractLsb' 0 8) ∧
      t.cur.toNat = s.cfg.frameInitPos.toNat % 2 ^ k ∧
      t = { s with
        lcfg := s.cfg
        port0 := ⟨s.bound0, 0, if s.cfg.plim then min s.bound0.length s.cfg.packedSize.toNat else s.bound0.length⟩
        port1 := ⟨s.bound1, 0, s.bound1.length⟩
        br0 := ⟨0, 0⟩, br1 := ⟨0, 0⟩, eos := false, nodata := false, cause := 0, result := 0, outTotal := 0
        ctrlSr := 0, ctrlLeft := 0, copySrc := 0, copyLeft := 0, nextNode := 256, root := 0
        sess := .active, phase := .lzToken, run := .rest, win := t.win, cur := t.cur }

/-- R131: INIT of a HUFFMAN or RAW session always completes; HUFFMAN starts in HUF_BUILD, RAW in NONE. -/
def Obligations.InitOpensHuffmanOrRawSession : Prop :=
  ∀ s : State, s.cfg.engine = 1 ∨ s.cfg.engine = 2 →
    exec .init s = .next { s with
      lcfg := s.cfg
      port0 := ⟨s.bound0, 0, if s.cfg.plim then min s.bound0.length s.cfg.packedSize.toNat else s.bound0.length⟩
      port1 := ⟨s.bound1, 0, s.bound1.length⟩
      br0 := ⟨0, 0⟩, br1 := ⟨0, 0⟩, eos := false, nodata := false, cause := 0, result := 0, outTotal := 0
      ctrlSr := 0, ctrlLeft := 0, copySrc := 0, copyLeft := 0, nextNode := 256, root := 0, cur := 0
      sess := .active, phase := if s.cfg.engine = 1 then .hufBuild else .none, run := .rest }

/-- R131, R224: INIT raises BAD_CONFIG when the engine value is 3, or the engine is LZSS and the frame size is not a power of
two in 1..2^MAX_FRAME_LOG2 or a field width is above 24. The session state is reset first; the window is not filled. -/
def Obligations.InitRejectsBadConfiguration : Prop :=
  ∀ s : State, s.params.ok = true →
    (s.cfg.engine = 3 ∨ (s.cfg.engine = 0 ∧
      ((¬∃ k, k ≤ s.params.maxFrameLog2 ∧ s.cfg.frameSize.toNat = 2 ^ k) ∨ 24 < s.cfg.distW ∨ 24 < s.cfg.lenW))) →
    exec .init s = .next { s with
      lcfg := s.cfg
      port0 := ⟨s.bound0, 0, if s.cfg.plim then min s.bound0.length s.cfg.packedSize.toNat else s.bound0.length⟩
      port1 := ⟨s.bound1, 0, s.bound1.length⟩
      br0 := ⟨0, 0⟩, br1 := ⟨0, 0⟩, eos := false, nodata := false, cause := 0x0403, result := 0, outTotal := 0
      ctrlSr := 0, ctrlLeft := 0, copySrc := 0, copyLeft := 0, nextNode := 256, root := 0, cur := 0
      sess := .faulted, phase := .none, run := .rest }

/-- R141: the word 0x00000005 is CLOSE, which completes in every state: it releases both sources and ends the session; an
ACTIVE session becomes IDLE, a FAULTED one stays FAULTED. The flags, CAUSE, RESULT, the counters and the positions keep
their values. -/
def Obligations.CloseReleasesSources : Prop :=
  decodeWord 0x00000005 = .ok .close ∧
  ∀ s : State, exec .close s = .next { s with
    port0 := ⟨[], s.port0.pos, 0⟩
    port1 := ⟨[], s.port1.pos, 0⟩
    phase := .none
    sess := if s.sess = .active then .idle else s.sess }

/-- R135, R138: a CONTINUE with COUNT = 0 runs no step and sets RESULT = 0; it sets EOS when a bounded target is already
reached. Once EOS is 1, a CONTINUE runs no step, returns 0 and raises nothing, and EOS stays 1. -/
def Obligations.ContinueWithoutSteps : Prop :=
  ∀ s : State, s.sess = .active → s.lcfg.engine ≠ 2 →
    (s.count = 0 → exec .cont s = .next { s with
      result := 0, run := .rest
      eos := s.eos || (s.lcfg.bounded && s.outTotal == s.lcfg.unpackedSize) }) ∧
    (s.eos = true → exec .cont s = .next { s with result := 0, run := .rest })

/-- R140: a CONTINUE that did not fault returns at most COUNT, and has set EOS if it returned less; OUT_TOTAL has grown by
RESULT. -/
def Obligations.ContinueResultAndEnd : Prop :=
  ∀ s t : State, s.sess = .active → s.lcfg.engine ≠ 2 → exec .cont s = .next t → t.sess ≠ .faulted →
    t.result.toNat ≤ s.count.toNat ∧ (t.result.toNat < s.count.toNat → t.eos = true) ∧
      t.outTotal = s.outTotal + t.result

/-- R65, R133, R136: the frame of CONTINUE. The configuration registers, LCFG, NODATA, OUT_ADDR, COUNT and the bound
sequences keep their values, and memory changes only at the addresses `(OUT_ADDR + k) mod 2^OUT_AW` for k below the number
of bytes emitted. -/
def Obligations.ContinueFrame : Prop :=
  ∀ s t : State, exec .cont s = .next t →
    t = { s with
      sess := t.sess, phase := t.phase, eos := t.eos
      port0 := { s.port0 with pos := t.port0.pos }, port1 := { s.port1 with pos := t.port1.pos }
      br0 := t.br0, br1 := t.br1, win := t.win, cur := t.cur, ctrlSr := t.ctrlSr, ctrlLeft := t.ctrlLeft
      copySrc := t.copySrc, copyLeft := t.copyLeft, lhs := t.lhs, rhs := t.rhs, nextNode := t.nextNode, root := t.root
      outTotal := t.outTotal, result := t.result, cause := t.cause, mem := t.mem, run := t.run } ∧
    ∀ a, (∀ k, k < (t.outTotal - s.outTotal).toNat → a ≠ outByteAddr s.params s.outAddr k) →
      Memory.read t.mem a = Memory.read s.mem a

/-- R139: two CONTINUEs, the second with OUT_ADDR advanced by the first's RESULT (R256), end where one CONTINUE for the sum of
their counts ends: the same bytes in memory, the same session state, the same EOS or fault. They differ only in the registers
COUNT, OUT_ADDR and RESULT. -/
def Obligations.ChunkedContinueEqualsOne : Prop :=
  ∀ (s s1 t : State) (a b : Word), s.params.ok = true → s.sess = .active → s.lcfg.engine ≠ 2 → a.toNat + b.toNat < 2 ^ 32 →
    exec .cont { s with count := a } = .next s1 → exec .cont { s with count := a + b } = .next t →
    ∃ s2, exec .cont { s1 with count := b, outAddr := s.outAddr + s1.result } = .next s2 ∧
      { s2 with count := t.count, outAddr := t.outAddr, result := t.result } = t

/-- R254, R255: a session's commands read neither the configuration registers nor the sequences the host presents after
INIT: with any others they end in the same state. -/
def Obligations.SessionIgnoresLaterConfiguration : Prop :=
  ∀ (s t : State) (i : Instr) (c : ConfigRegs) (b0 b1 : List Byte), i ≠ .init →
    exec i s = .next t → exec i (s.reconfigured c b0 b1) = .next (t.reconfigured c b0 b1)

/-- R137: in a bounded session a CONTINUE that does not fault returns the smaller of COUNT and the bytes left to the target;
EOS is 1 exactly when the target is reached, and OUT_TOTAL never passes it. -/
def Obligations.BoundedContinueStopsAtTarget : Prop :=
  ∀ s t : State, Inv s → s.sess = .active → s.lcfg.engine ≠ 2 → s.lcfg.bounded = true → exec .cont s = .next t →
    t.sess ≠ .faulted →
    t.result.toNat = min s.count.toNat (s.lcfg.unpackedSize.toNat - s.outTotal.toNat) ∧
      t.outTotal.toNat ≤ s.lcfg.unpackedSize.toNat ∧ (t.eos = true ↔ t.outTotal = s.lcfg.unpackedSize)

/-- R142: after the register writes of the one-shot decode, INIT and then CONTINUE complete, and end in one of two ways: no
fault, exactly U bytes, RESULT = U and EOS = 1; or a fault and RESULT = 0. -/
def Obligations.OneShotDecodeEnds : Prop :=
  ∀ s s1 : State, Inv s → s.cfg.bounded = true → s.cfg.engine ≠ 2 → s.count = s.cfg.unpackedSize →
    exec .init s = .next s1 → s1.sess = .active →
    ∃ t, exec .cont s1 = .next t ∧
      ((t.sess = .active ∧ t.result = s.cfg.unpackedSize ∧ t.outTotal = s.cfg.unpackedSize ∧ t.eos = true) ∨
        (t.sess = .faulted ∧ t.result = 0))

/-- R134, R257: from a state that satisfies the invariant every command completes: it ends in a next state, never in a stop of
the model. -/
def Obligations.CommandsAlwaysComplete : Prop :=
  ∀ (s : State) (i : Instr), Inv s → i.place = none → ∃ t, exec i s = .next t

/-! ### LZSS -/

/-- R162, R90: where a control byte is needed, C(x) is loaded and its first bit taken: bit 0 of x, or bit 7 when CORD is 1;
it selects a literal when it differs from INV. Seven bits are left. Nothing else changes. -/
def Obligations.ControlByteIsTaken : Prop :=
  ∀ (s : State) (x : Byte), s.sess = .active → s.eos = false → s.phase = .lzToken → s.run.sel = none → s.ctrlLeft = 0 →
    exec (.lzCtrl x) s = .next { s with
      ctrlSr := if s.lcfg.cord then x <<< 1 else x >>> 1
      ctrlLeft := 7
      run := { s.run with
        sel := some (if (if s.lcfg.cord then x.getLsbD 7 else x.getLsbD 0) != s.lcfg.inv then .literal
          else .reference) } }

/-- R90: the eight bits of a control byte govern its items in the order CORD sets, bit 0 first or bit 7 first, and after the
j-th of them 7 - j are left. -/
def Obligations.ControlBitOrder : Prop :=
  ∀ (s : State) (x : Byte) (j : Nat), j < 8 →
    (takeCtrlBit^[j + 1] { s with ctrlSr := x, ctrlLeft := 8 }).run.sel =
      some (if x.getLsbD (if s.lcfg.cord then 7 - j else j) != s.lcfg.inv then .literal else .reference) ∧
    (takeCtrlBit^[j + 1] { s with ctrlSr := x, ctrlLeft := 8 }).ctrlLeft.toNat = 7 - j

/-- R163: a literal writes its byte at the cursor and to the output, and advances the cursor mod FS. Every other window cell
and every other byte of memory is unchanged, and so is the rest of the state. -/
def Obligations.LiteralWritesWindowAndOutput : Prop :=
  ∀ (s : State) (b : Byte), s.sess = .active → s.eos = false → s.phase = .lzToken → s.run.sel = some .literal →
    0 < s.lcfg.frame → s.lcfg.frame ≤ 2 ^ 24 →
    ∃ t, exec (.lzLit b) s = .next t ∧
      (∀ i, t.win.get i = if i = s.cur.toNat then b else s.win.get i) ∧
      t.cur.toNat = (s.cur.toNat + 1) % s.lcfg.frame ∧
      (∀ a, Memory.read t.mem a =
        if a = outByteAddr s.params s.outAddr s.run.n.toNat then some b else Memory.read s.mem a) ∧
      t = { s with
        win := t.win, cur := t.cur, mem := t.mem, outTotal := s.outTotal + 1
        run := { s.run with sel := none, n := s.run.n + 1 } }

/-- R164, R94: a back-reference header whose distance is in 1..FS and whose length is not 0 sets COPY_SRC to
`(CUR - d) mod FS`, COPY_LEFT to the length and PHASE to LZ_COPY. It emits nothing and changes nothing else. -/
def Obligations.BackReferenceStartsCopy : Prop :=
  ∀ (s : State) (d l : BitVec 24), s.sess = .active → s.eos = false → s.phase = .lzToken →
    s.run.sel = some .reference → s.cur.toNat < s.lcfg.frame → s.lcfg.frame ≤ 2 ^ 24 →
    1 ≤ d.toNat + s.lcfg.distBias → d.toNat + s.lcfg.distBias ≤ s.lcfg.frame → 1 ≤ l.toNat + s.lcfg.lenBias →
    ∃ t, exec (.lzRef d l) s = .next t ∧
      (t.copySrc.toNat : Int) = ((s.cur.toNat : Int) - ((d.toNat + s.lcfg.distBias : Nat) : Int)) % (s.lcfg.frame : Int) ∧
      t.copyLeft.toNat = l.toNat + s.lcfg.lenBias ∧
      t = { s with
        copySrc := t.copySrc, copyLeft := t.copyLeft, phase := .lzCopy, run := { s.run with sel := none } }

/-- R165: a distance of 0 or above FS raises BAD_DISTANCE, whatever the length; else a length of 0 raises ZERO_LENGTH. -/
def Obligations.BackReferenceRangeChecks : Prop :=
  ∀ (s : State) (d l : BitVec 24), s.sess = .active → s.eos = false → s.phase = .lzToken →
    s.run.sel = some .reference →
    (d.toNat + s.lcfg.distBias = 0 ∨ s.lcfg.frame < d.toNat + s.lcfg.distBias →
      exec (.lzRef d l) s =
        .next { s with cause := 0x0202, sess := .faulted, phase := .none, result := 0, run := .rest }) ∧
    (1 ≤ d.toNat + s.lcfg.distBias → d.toNat + s.lcfg.distBias ≤ s.lcfg.frame → l.toNat + s.lcfg.lenBias = 0 →
      exec (.lzRef d l) s =
        .next { s with cause := 0x0302, sess := .faulted, phase := .none, result := 0, run := .rest })

/-- R167: a copy step emits the window byte at COPY_SRC as it was before the step, writes it at the cursor, advances both mod
FS, and returns to LZ_TOKEN after the last byte. Nothing else changes. -/
def Obligations.CopyStepCopiesOneByte : Prop :=
  ∀ s : State, s.phase = .lzCopy → 0 < s.lcfg.frame → s.lcfg.frame ≤ 2 ^ 24 →
    ∃ t, engineStep s = .next t ∧
      (∀ i, t.win.get i = if i = s.cur.toNat then s.win.get s.copySrc.toNat else s.win.get i) ∧
      t.cur.toNat = (s.cur.toNat + 1) % s.lcfg.frame ∧ t.copySrc.toNat = (s.copySrc.toNat + 1) % s.lcfg.frame ∧
      t.copyLeft = s.copyLeft - 1 ∧ t.phase = (if s.copyLeft - 1 = 0 then .lzToken else .lzCopy) ∧
      (∀ a, Memory.read t.mem a =
        if a = outByteAddr s.params s.outAddr s.run.n.toNat then some (s.win.get s.copySrc.toNat)
        else Memory.read s.mem a) ∧
      t = { s with
        win := t.win, cur := t.cur, copySrc := t.copySrc, copyLeft := t.copyLeft, phase := t.phase, mem := t.mem
        outTotal := s.outTotal + 1, run := { s.run with n := s.run.n + 1 } }

/-- R171: a copy of distance d in 1..FS emits the d bytes before the cursor, repeated as needed: its k-th byte, from 0, is the
byte that sat at `(CUR - d + (k mod d)) mod FS` before the copy. This holds for every k, and when k is at or above FS. -/
def Obligations.CopyRepeatsWithPeriodDistance : Prop :=
  ∀ (s : State) (d k : Nat), s.lcfg.frame ≤ 2 ^ 24 → s.cur.toNat < s.lcfg.frame → 1 ≤ d → d ≤ s.lcfg.frame →
    s.copySrc.toNat = (s.cur.toNat + s.lcfg.frame - d) % s.lcfg.frame →
    (lzCopyStep^[k] s).win.get (lzCopyStep^[k] s).copySrc.toNat =
      s.win.get ((s.cur.toNat + s.lcfg.frame - d + k % d) % s.lcfg.frame)

/-- R172: a copy of distance FS reads each byte at the cursor just before it overwrites it with the same byte, so it leaves
the window unchanged, for any number of copy steps. -/
def Obligations.CopyAtFullDistanceKeepsWindow : Prop :=
  ∀ (s : State) (len k i : Nat), s.lcfg.frame ≤ 2 ^ 24 → s.cur.toNat < s.lcfg.frame →
    (lzCopyStep^[k] (startCopy s.lcfg.frame len s)).win.get i = s.win.get i ∧
    (lzCopyStep^[k] (startCopy s.lcfg.frame len s)).copySrc = (lzCopyStep^[k] (startCopy s.lcfg.frame len s)).cur

/-- R173: after INIT of an LZSS session, and kept by every literal, header and copy step: the cursor is at
`(FRAME_INIT_POS + t) mod FS` after t bytes, and the j-th cell before it holds the j-th most recent output byte, or FRAME_FILL
when the output is shorter. -/
def Obligations.WindowHoldsRecentOutput : Prop :=
  (∀ s t : State, Inv s → s.cfg.engine = 0 → exec .init s = .next t → t.sess = .active → WindowHistory t []) ∧
  ∀ (s t : State) (out : List Byte), WindowHistory s out → 0 < s.lcfg.frame → s.lcfg.frame ≤ 2 ^ 24 →
    (∀ b, exec (.lzLit b) s = .next t → WindowHistory t (out ++ [b])) ∧
    (∀ x, exec (.lzCtrl x) s = .next t → WindowHistory t out) ∧
    (∀ d l, exec (.lzRef d l) s = .next t → WindowHistory t out) ∧
    WindowHistory (lzCopyStep s) (out ++ [s.win.get s.copySrc.toNat])

/-- R166, R192, R194, R196, R223: what exhaustion does. In the LZSS engine and in Huffman traversal it raises the TRUNCATED fault
of its place when the session is bounded and sets EOS when it is not; in the tree description it always raises
TRUNCATED(TREE). It emits nothing. That the buffered bits and the unused control bits, which R168 calls discarded, keep their
values when EOS is set is the model's reading (DEDUCED, notes/assumptions/24.md). -/
def Obligations.ExhaustionByPlace : Prop :=
  ∀ (p : Place) (s t : State), fetchToken p s = .exhausted t →
    engineToken p s = .next (
      if p = .tree ∨ t.lcfg.bounded = true then
        { t with
          cause := (match p with
            | .ctrl => 0x0101
            | .literal => 0x0201
            | .reference => 0x0301
            | .tree => 0x0401
            | .code => 0x0501)
          sess := .faulted, phase := .none, result := 0, run := .rest }
      else { t with eos := true, run := { t.run with sel := none, node := none } })

/-! ### Huffman -/

/-- R193: a tree branch allocates the next node and waits for its left subtree; the 257th raises TREE_OVERFLOW. -/
def Obligations.TreeBranchAllocates : Prop :=
  ∀ s : State, s.sess = .active → s.eos = false → s.phase = .hufBuild →
    (s.nextNode.toNat < 512 →
      exec .hufBranch s = .next { s with
        nextNode := s.nextNode + 1
        run := { s.run with stack := .left (s.nextNode.setWidth 9) :: s.run.stack } }) ∧
    (512 ≤ s.nextNode.toNat →
      exec .hufBranch s =
        .next { s with cause := 0x0102, sess := .faulted, phase := .none, result := 0, run := .rest })

/-- R194, R193, R191: a tree leaf completes in HUF_BUILD. As a left child it is stored in LHS and the right subtree is read
next; as the whole tree it is ROOT and the phase becomes HUF_SYM; as a right child it is stored in RHS, and its node is
returned in turn, as the left child that waits for it or as ROOT. It changes only the tree, ROOT, PHASE and the return
stack. -/
def Obligations.TreeLeafReturns : Prop :=
  ∀ (s : State) (v : Byte), s.sess = .active → s.eos = false → s.phase = .hufBuild →
    ∃ t, exec (.hufLeaf v) s = .next t ∧
      t = { s with
        lhs := t.lhs, rhs := t.rhs, root := t.root, phase := t.phase, run := { s.run with stack := t.run.stack } } ∧
      (∀ n rest, s.run.stack = .left n :: rest →
        t.lhs = s.lhs.set (slotOf n) (v.setWidth 9) ∧ t.rhs = s.rhs ∧ t.root = s.root ∧ t.phase = .hufBuild ∧
          t.run.stack = .right n :: rest) ∧
      (∀ n m rest, s.run.stack = .right n :: .left m :: rest →
        t.rhs = s.rhs.set (slotOf n) (v.setWidth 9) ∧ t.lhs = s.lhs.set (slotOf m) n ∧ t.root = s.root ∧
          t.phase = .hufBuild ∧ t.run.stack = .right m :: rest) ∧
      (∀ n, s.run.stack = [.right n] →
        t.rhs = s.rhs.set (slotOf n) (v.setWidth 9) ∧ t.lhs = s.lhs ∧ t.root = n ∧ t.phase = .hufSym ∧
          t.run.stack = []) ∧
      (s.run.stack = [] → t.lhs = s.lhs ∧ t.rhs = s.rhs ∧ t.root = v.setWidth 9 ∧ t.phase = .hufSym ∧ t.run.stack = [])

/-- R195, R96: at an internal node the code bit 0 moves to the left child and 1 to the right; a leaf's byte is emitted and
ends the symbol, a node is where the next bit is read. Nothing else changes. -/
def Obligations.CodeBitFollowsChild : Prop :=
  ∀ (s : State) (x : BitVec 9), s.sess = .active → s.eos = false → s.phase = .hufSym →
    x = s.run.node.getD s.root → 256 ≤ x.toNat →
    ∀ (i : Instr) (child : BitVec 9),
      (i = .hufCode0 ∧ child = s.lhs[slotOf x]) ∨ (i = .hufCode1 ∧ child = s.rhs[slotOf x]) →
      ∃ t, exec i s = .next t ∧
        (256 ≤ child.toNat → t = { s with run := { s.run with node := some child } }) ∧
        (child.toNat < 256 →
          (∀ a, Memory.read t.mem a =
            if a = outByteAddr s.params s.outAddr s.run.n.toNat then some (child.setWidth 8)
            else Memory.read s.mem a) ∧
          t = { s with
            mem := t.mem, outTotal := s.outTotal + 1, run := { s.run with node := none, n := s.run.n + 1 } })

/-- R192, R193, R199: on the pre-order description of a tree with at most 256 internal nodes, the build step reads exactly
the description, leaves the child arrays holding that tree at ROOT and NEXT_NODE 256 above its number of internal nodes, and
goes to HUF_SYM. Nothing but the input, the tree and PHASE changes. -/
def Obligations.TreeDescriptionBuildsTree : Prop :=
  ∀ (s : State) (tree : HufTree) (rest : List Bool), s.sess = .active → s.eos = false → s.phase = .hufBuild →
    s.run = .rest → s.nextNode = 256 → ReaderOk s.lcfg.lsb s.port0 s.br0 → tree.nodes ≤ 256 →
    s.pending .p0 = tree.describe s.lcfg.lsb ++ rest →
    ∃ t, engineStep s = .next t ∧ Represents t t.root tree ∧ t.nextNode.toNat = 256 + tree.nodes ∧
      t.pending .p0 = rest ∧
      t = { s with
        port0 := { s.port0 with pos := t.port0.pos }, br0 := t.br0
        lhs := t.lhs, rhs := t.rhs, nextNode := t.nextNode, root := t.root, phase := .hufSym }

/-- R193, R200: a description with more than 256 internal nodes ends the build step in TREE_OVERFLOW, in every session. -/
def Obligations.OversizedTreeOverflows : Prop :=
  ∀ (s : State) (tree : HufTree) (rest : List Bool), s.sess = .active → s.eos = false → s.phase = .hufBuild →
    s.run = .rest → s.nextNode = 256 → ReaderOk s.lcfg.lsb s.port0 s.br0 → 256 < tree.nodes →
    s.pending .p0 = tree.describe s.lcfg.lsb ++ rest →
    ∃ t, engineStep s = .next t ∧ t.sess = .faulted ∧ t.cause = 0x0102 ∧ t.phase = .none ∧ t.mem = s.mem

/-- R195, R196: with the tree at ROOT, the symbol step follows the stream's bits to a leaf, emits its byte and takes exactly
its code; when the stream ends inside the code it emits nothing, and a bounded session faults with TRUNCATED(SYMBOL) while an
unbounded one sets EOS. -/
def Obligations.SymbolStepWalksTree : Prop :=
  ∀ (s : State) (tree : HufTree), s.sess = .active → s.eos = false → s.phase = .hufSym → s.run.node = none →
    ReaderOk s.lcfg.lsb s.port0 s.br0 → Represents s s.root tree →
    ∃ t, engineStep s = .next t ∧
      match tree.walk (s.pending .p0) with
      | some (v, rest) =>
        t.pending .p0 = rest ∧ t.outTotal = s.outTotal + 1 ∧ t.run.n = s.run.n + 1 ∧ t.phase = .hufSym ∧ t.eos = false ∧
          ∀ a, Memory.read t.mem a =
            if a = outByteAddr s.params s.outAddr s.run.n.toNat then some v else Memory.read s.mem a
      | none =>
        t.mem = s.mem ∧ t.outTotal = s.outTotal ∧
          if s.lcfg.bounded = true then t.sess = .faulted ∧ t.cause = 0x0501 else t.sess = .active ∧ t.eos = true

/-- R197, R257: in an unbounded HUFFMAN session whose tree is one leaf, a CONTINUE completes with RESULT = COUNT, EOS still 0
and that byte at every address it writes; it reads no input. -/
def Obligations.LeafRootFillsEveryCount : Prop :=
  ∀ s : State, s.sess = .active → s.lcfg.engine = 1 → s.phase = .hufSym → s.eos = false → s.lcfg.bounded = false →
    s.root.toNat < 256 →
    ∃ t, exec .cont s = .next t ∧
      (∀ k, k < s.count.toNat → Memory.read t.mem (outByteAddr s.params s.outAddr k) = some (s.root.setWidth 8)) ∧
      (∀ a, (∀ k, k < s.count.toNat → a ≠ outByteAddr s.params s.outAddr k) → Memory.read t.mem a = Memory.read s.mem a) ∧
      t = { s with mem := t.mem, outTotal := s.outTotal + s.count, result := s.count, run := .rest }

/-! ### Faults, phases and the invariant -/

/-- R221, R222: the value each fault writes to CAUSE; and the fault entry, which writes CAUSE, sets SESS to FAULTED, PHASE to
NONE and RESULT to 0, and leaves IN_POS, CTRL_POS, OUT_TOTAL and everything else where the fault found it (the locals of the
command end with it). -/
def Obligations.FaultEntryAndCodes : Prop :=
  (FaultCode.truncCtrl.causeWord = 0x0101 ∧ FaultCode.truncLit.causeWord = 0x0201 ∧
    FaultCode.truncRef.causeWord = 0x0301 ∧ FaultCode.truncTree.causeWord = 0x0401 ∧
    FaultCode.truncSymbol.causeWord = 0x0501 ∧ FaultCode.malTreeOverflow.causeWord = 0x0102 ∧
    FaultCode.malBadDistance.causeWord = 0x0202 ∧ FaultCode.malZeroLength.causeWord = 0x0302 ∧
    FaultCode.contractIllegal.causeWord = 0x0103 ∧ FaultCode.contractBadState.causeWord = 0x0203 ∧
    FaultCode.contractBitsTooMany.causeWord = 0x0303 ∧ FaultCode.contractBadConfig.causeWord = 0x0403) ∧
  ∀ (f : FaultCode) (s : State), raise f s = { s with
    cause := (f.detailCode.setWidth 32 <<< 8) ||| f.classCode.setWidth 32
    sess := .faulted, phase := .none, result := 0, run := .rest }

/-- R226: an engine step that faults has emitted no byte and written no window cell. -/
def Obligations.FaultingStepWritesNothing : Prop :=
  ∀ s t : State, s.sess = .active → s.run.sel = none → s.run.node = none → engineStep s = .next t → t.sess = .faulted →
    t.mem = s.mem ∧ t.win = s.win ∧ t.cur = s.cur ∧ t.outTotal = s.outTotal

/-- R145: the transitions of PHASE. An engine step that does not fault goes from LZ_TOKEN to LZ_TOKEN or LZ_COPY, from
LZ_COPY to LZ_COPY or LZ_TOKEN, from HUF_BUILD to HUF_SYM, and from HUF_SYM to HUF_SYM; a fault and CLOSE go to NONE; INIT
goes to the phase of its engine. -/
def Obligations.PhaseTransitions : Prop :=
  (∀ s t : State, s.sess = .active → s.eos = false → s.run.sel = none → s.run.node = none → s.run.stack = [] →
    engineStep s = .next t →
    (t.sess = .faulted ∧ t.phase = .none) ∨
    (s.phase = .lzToken ∧ (t.phase = .lzToken ∨ t.phase = .lzCopy)) ∨
    (s.phase = .lzCopy ∧ (t.phase = .lzCopy ∨ t.phase = .lzToken)) ∨
    (s.phase = .hufBuild ∧ t.phase = .hufSym) ∨ (s.phase = .hufSym ∧ t.phase = .hufSym)) ∧
  (∀ s t : State, exec .close s = .next t → t.phase = .none) ∧
  ∀ s t : State, exec .init s = .next t →
    t.phase = if t.sess = .faulted then .none else if s.cfg.engine = 0 then .lzToken
      else if s.cfg.engine = 1 then .hufBuild else .none

/-- The invariant is kept by every step, from every state that satisfies it. Its clauses rest on R26 to R29, R31, R65, R119,
R137, R221 and R222, and on the model's canonical memory and window (notes/assumptions/2.md, 5.md). -/
def Obligations.EveryStepKeepsInv : Prop :=
  ∀ s t : State, Inv s → step s = .next t → Inv t

/-- The invariant holds after reset, for any legal parameters (R250; its window clause rests on notes/assumptions/3.md). -/
def Obligations.ResetSatisfiesInv : Prop :=
  (∀ p : Params, p.ok = true → Inv (State.resetWith p)) ∧ Inv State.reset

/-! ### Reset and the host's accesses -/

/-- R49, R250: what reset leaves, for any parameters: SESS IDLE, PHASE NONE, the flags 0, LCFG 0, both ports and both readers
empty, the LZSS counters 0, NEXT_NODE 256, ROOT 0, and every register 0. (The window and the tree arrays are unspecified.) -/
def Obligations.ResetValues : Prop :=
  ∀ p : Params,
    let s := State.resetWith p
    s.sess = .idle ∧ s.phase = .none ∧ s.eos = false ∧ s.nodata = false ∧ s.lcfg = ⟨0, 0, 0, 0, 0, 0, 0⟩ ∧
    s.port0 = ⟨[], 0, 0⟩ ∧ s.port1 = ⟨[], 0, 0⟩ ∧ s.br0 = ⟨0, 0⟩ ∧ s.br1 = ⟨0, 0⟩ ∧
    s.cur = 0 ∧ s.ctrlSr = 0 ∧ s.ctrlLeft = 0 ∧ s.copySrc = 0 ∧ s.copyLeft = 0 ∧ s.nextNode = 256 ∧ s.root = 0 ∧
    s.outTotal = 0 ∧ s.result = 0 ∧ ∀ r : Reg, readReg r s = 0

/-- R251: after reset, CONTINUE raises BAD_STATE; INIT with the reset configuration raises BAD_CONFIG; INIT with ENGINE 1 or
2 and the other registers at their reset values opens a session. -/
def Obligations.FirstCommandsAfterReset : Prop :=
  ∀ p : Params,
    (∃ t, exec .cont (State.resetWith p) = .next t ∧ t.sess = .faulted ∧ t.cause = 0x0203) ∧
    (∃ t, exec .init (State.resetWith p) = .next t ∧ t.sess = .faulted ∧ t.cause = 0x0403) ∧
    (∃ t, exec .init { State.resetWith p with cfg := ⟨1, 0, 0, 0, 0, 0, 0⟩ } = .next t ∧ t.sess = .active ∧
      t.lcfg.engine = 1 ∧ t.phase = .hufBuild ∧ t.cause = 0) ∧
    ∃ t, exec .init { State.resetWith p with cfg := ⟨2, 0, 0, 0, 0, 0, 0⟩ } = .next t ∧ t.sess = .active ∧
      t.lcfg.engine = 2 ∧ t.phase = .none ∧ t.cause = 0

/-- R31, R36 to R44: a host write to a register other than CMD stores the writable bits of a read/write register and is
ignored by a read-only one; every other register reads as before, and no other state changes. -/
def Obligations.RegisterWrites : Prop :=
  ∀ (s : State) (r : Reg) (v : Word) (rest : List HostOp), r ≠ .cmd →
    s.ops = .write (s.params.regBase + r.offset) .word v :: rest →
    ∃ t, step s = .next t ∧ t = { s with ops := rest, cfg := t.cfg, outAddr := t.outAddr, count := t.count } ∧
      (∀ r', r' ≠ r → readReg r' t = readReg r' s) ∧
      readReg r t =
        match r with
        | .mode => v &&& 0x000000FF
        | .frameFill => v &&& 0x000000FF
        | .lzFields => v &&& 0xFF011F1F
        | .outAddr => BitVec.ofNat 32 (v.toNat % 2 ^ s.params.outAw)
        | .frameSize => v
        | .frameInitPos => v
        | .packedSize => v
        | .unpackedSize => v
        | .count => v
        | .cmd => 0
        | .status => readReg .status s
        | .cause => s.cause
        | .result => s.result
        | .inPos => readReg .inPos s
        | .ctrlPos => readReg .ctrlPos s
        | .outTotal => s.outTotal

/-- R67, R31, R45, R10: a host read of a register returns its value and has no side effect on the block; CMD reads 0; IN_POS and
CTRL_POS read the number of bytes fetched from port 0 and port 1, which wraps mod 2^32. (That the fetch itself counts exactly
is the model's reading, DEDUCED, notes/assumptions/9.md.) -/
def Obligations.RegisterReads : Prop :=
  ∀ (s : State) (r : Reg) (rest : List HostOp),
    s.ops = .read (s.params.regBase + r.offset) .word :: rest →
    step s = .next { s with ops := rest, busData := some (readReg r s) } ∧ readReg .cmd s = 0 ∧
      (readReg .inPos s).toNat = s.port0.pos % 2 ^ 32 ∧ (readReg .ctrlPos s).toNat = s.port1.pos % 2 ^ 32

/-- R33: the fields of STATUS, which a write does not change, and its reset value. -/
def Obligations.StatusFields : Prop :=
  (∀ s : State,
    (readReg .status s).getLsbD 0 = decide (s.sess = .active) ∧ (readReg .status s).getLsbD 1 = s.eos ∧
    (readReg .status s).getLsbD 2 = decide (s.sess = .faulted) ∧ (readReg .status s).getLsbD 3 = s.nodata ∧
    (readReg .status s).extractLsb' 4 2 = s.lcfg.mode.extractLsb' 0 2 ∧ (readReg .status s).extractLsb' 6 26 = 0 ∧
    ∀ v : Word, writeReg .status v s = s) ∧
  ∀ p : Params, readReg .status (State.resetWith p) = 0

/-- R36, R40: the fields the engines read from the latched MODE and LZ_FIELDS words, at the bits the registers give them. -/
def Obligations.ConfigurationFields : Prop :=
  ∀ c : ConfigRegs,
    c.engine = c.mode.extractLsb' 0 2 ∧ c.lsb = c.mode.getLsbD 2 ∧ c.inv = c.mode.getLsbD 3 ∧ c.cord = c.mode.getLsbD 4 ∧
    (c.ctrlPort = .p1 ↔ c.mode.getLsbD 5 = true) ∧ c.bounded = c.mode.getLsbD 6 ∧ c.plim = c.mode.getLsbD 7 ∧
    c.distW = (c.lzFields.extractLsb' 0 5).toNat ∧ c.lenW = (c.lzFields.extractLsb' 8 5).toNat ∧
    c.distBias = (c.lzFields.extractLsb' 16 1).toNat ∧ c.lenBias = (c.lzFields.extractLsb' 24 8).toNat ∧
    c.frame = c.frameSize.toNat ∧ c.fillByte = c.frameFill.extractLsb' 0 8

/-- R61: a byte, half-word or misaligned access to the register block is refused, and so is an access outside it, at an offset
of 0x40 or above or below `REG_BASE` (which refusal is which is the model's choice, notes/assumptions/22.md). -/
def Obligations.PartialAccessesRefused : Prop :=
  ∀ (s : State) (addr : Nat) (w : Width) (v : Word) (rest : List HostOp),
    s.ops = .write addr w v :: rest ∨ s.ops = .read addr w :: rest →
    (s.params.regBase ≤ addr → addr < s.params.regBase + 0x40 →
      (w ≠ .word ∨ (addr - s.params.regBase) % 4 ≠ 0) → step s = .refused .partialAccess) ∧
    (addr < s.params.regBase ∨ s.params.regBase + 0x40 ≤ addr → step s = .refused .outsideBlock)

/-- R26, R85, R250: `bind` takes any finite sequence and changes only what the next INIT binds; a hardware reset gives the
block its reset state. The model's choices in it: the window cells and the child arrays, which R250 leaves unspecified, are 0
(notes/assumptions/3.md, 4.md); the host's memory, the bound sequences, the pending operations and the last value read are kept
(18.md); the host's operations are a list, and with none pending a step changes nothing (6.md). -/
def Obligations.BindAndReset : Prop :=
  ∀ (s : State) (rest : List HostOp) (bytes : List Byte),
    (s.ops = .bind .p0 bytes :: rest → step s = .next { s with ops := rest, bound0 := bytes }) ∧
    (s.ops = .bind .p1 bytes :: rest → step s = .next { s with ops := rest, bound1 := bytes }) ∧
    (s.ops = .reset :: rest → step s = .next { State.resetWith s.params with
      mem := s.mem, bound0 := s.bound0, bound1 := s.bound1, ops := rest, busData := s.busData }) ∧
    (s.ops = [] → step s = .next s)
end

