-- ==== Sys2Proof/Laws/State.lean ====
section
/-! SUPPORT. What each named update of State does to each field: one lemma per field per update, so that no later proof
unfolds a record update. -/

namespace Sys2Proof.Machine

/-! ### `memWrite` -/

@[simp] theorem memWrite_params (a : Nat) (b : Byte) (s : State) : (memWrite a b s).params = s.params := rfl
@[simp] theorem memWrite_sess (a : Nat) (b : Byte) (s : State) : (memWrite a b s).sess = s.sess := rfl
@[simp] theorem memWrite_lcfg (a : Nat) (b : Byte) (s : State) : (memWrite a b s).lcfg = s.lcfg := rfl
@[simp] theorem memWrite_phase (a : Nat) (b : Byte) (s : State) : (memWrite a b s).phase = s.phase := rfl
@[simp] theorem memWrite_eos (a : Nat) (b : Byte) (s : State) : (memWrite a b s).eos = s.eos := rfl
@[simp] theorem memWrite_nodata (a : Nat) (b : Byte) (s : State) : (memWrite a b s).nodata = s.nodata := rfl
@[simp] theorem memWrite_port0 (a : Nat) (b : Byte) (s : State) : (memWrite a b s).port0 = s.port0 := rfl
@[simp] theorem memWrite_port1 (a : Nat) (b : Byte) (s : State) : (memWrite a b s).port1 = s.port1 := rfl
@[simp] theorem memWrite_br0 (a : Nat) (b : Byte) (s : State) : (memWrite a b s).br0 = s.br0 := rfl
@[simp] theorem memWrite_br1 (a : Nat) (b : Byte) (s : State) : (memWrite a b s).br1 = s.br1 := rfl
@[simp] theorem memWrite_win (a : Nat) (b : Byte) (s : State) : (memWrite a b s).win = s.win := rfl
@[simp] theorem memWrite_cur (a : Nat) (b : Byte) (s : State) : (memWrite a b s).cur = s.cur := rfl
@[simp] theorem memWrite_ctrlSr (a : Nat) (b : Byte) (s : State) : (memWrite a b s).ctrlSr = s.ctrlSr := rfl
@[simp] theorem memWrite_ctrlLeft (a : Nat) (b : Byte) (s : State) : (memWrite a b s).ctrlLeft = s.ctrlLeft := rfl
@[simp] theorem memWrite_copySrc (a : Nat) (b : Byte) (s : State) : (memWrite a b s).copySrc = s.copySrc := rfl
@[simp] theorem memWrite_copyLeft (a : Nat) (b : Byte) (s : State) : (memWrite a b s).copyLeft = s.copyLeft := rfl
@[simp] theorem memWrite_lhs (a : Nat) (b : Byte) (s : State) : (memWrite a b s).lhs = s.lhs := rfl
@[simp] theorem memWrite_rhs (a : Nat) (b : Byte) (s : State) : (memWrite a b s).rhs = s.rhs := rfl
@[simp] theorem memWrite_nextNode (a : Nat) (b : Byte) (s : State) : (memWrite a b s).nextNode = s.nextNode := rfl
@[simp] theorem memWrite_root (a : Nat) (b : Byte) (s : State) : (memWrite a b s).root = s.root := rfl
@[simp] theorem memWrite_outTotal (a : Nat) (b : Byte) (s : State) : (memWrite a b s).outTotal = s.outTotal := rfl
@[simp] theorem memWrite_result (a : Nat) (b : Byte) (s : State) : (memWrite a b s).result = s.result := rfl
@[simp] theorem memWrite_cause (a : Nat) (b : Byte) (s : State) : (memWrite a b s).cause = s.cause := rfl
@[simp] theorem memWrite_cfg (a : Nat) (b : Byte) (s : State) : (memWrite a b s).cfg = s.cfg := rfl
@[simp] theorem memWrite_outAddr (a : Nat) (b : Byte) (s : State) : (memWrite a b s).outAddr = s.outAddr := rfl
@[simp] theorem memWrite_count (a : Nat) (b : Byte) (s : State) : (memWrite a b s).count = s.count := rfl
@[simp] theorem memWrite_mem (a : Nat) (b : Byte) (s : State) : (memWrite a b s).mem = Memory.write s.mem (a % 2 ^ s.params.outAw) b := rfl
@[simp] theorem memWrite_bound0 (a : Nat) (b : Byte) (s : State) : (memWrite a b s).bound0 = s.bound0 := rfl
@[simp] theorem memWrite_bound1 (a : Nat) (b : Byte) (s : State) : (memWrite a b s).bound1 = s.bound1 := rfl
@[simp] theorem memWrite_ops (a : Nat) (b : Byte) (s : State) : (memWrite a b s).ops = s.ops := rfl
@[simp] theorem memWrite_busData (a : Nat) (b : Byte) (s : State) : (memWrite a b s).busData = s.busData := rfl
@[simp] theorem memWrite_run (a : Nat) (b : Byte) (s : State) : (memWrite a b s).run = s.run := rfl

/-! ### `emit` -/

@[simp] theorem emit_params (b : Byte) (s : State) : (emit b s).params = s.params := rfl
@[simp] theorem emit_sess (b : Byte) (s : State) : (emit b s).sess = s.sess := rfl
@[simp] theorem emit_lcfg (b : Byte) (s : State) : (emit b s).lcfg = s.lcfg := rfl
@[simp] theorem emit_phase (b : Byte) (s : State) : (emit b s).phase = s.phase := rfl
@[simp] theorem emit_eos (b : Byte) (s : State) : (emit b s).eos = s.eos := rfl
@[simp] theorem emit_nodata (b : Byte) (s : State) : (emit b s).nodata = s.nodata := rfl
@[simp] theorem emit_port0 (b : Byte) (s : State) : (emit b s).port0 = s.port0 := rfl
@[simp] theorem emit_port1 (b : Byte) (s : State) : (emit b s).port1 = s.port1 := rfl
@[simp] theorem emit_br0 (b : Byte) (s : State) : (emit b s).br0 = s.br0 := rfl
@[simp] theorem emit_br1 (b : Byte) (s : State) : (emit b s).br1 = s.br1 := rfl
@[simp] theorem emit_win (b : Byte) (s : State) : (emit b s).win = s.win := rfl
@[simp] theorem emit_cur (b : Byte) (s : State) : (emit b s).cur = s.cur := rfl
@[simp] theorem emit_ctrlSr (b : Byte) (s : State) : (emit b s).ctrlSr = s.ctrlSr := rfl
@[simp] theorem emit_ctrlLeft (b : Byte) (s : State) : (emit b s).ctrlLeft = s.ctrlLeft := rfl
@[simp] theorem emit_copySrc (b : Byte) (s : State) : (emit b s).copySrc = s.copySrc := rfl
@[simp] theorem emit_copyLeft (b : Byte) (s : State) : (emit b s).copyLeft = s.copyLeft := rfl
@[simp] theorem emit_lhs (b : Byte) (s : State) : (emit b s).lhs = s.lhs := rfl
@[simp] theorem emit_rhs (b : Byte) (s : State) : (emit b s).rhs = s.rhs := rfl
@[simp] theorem emit_nextNode (b : Byte) (s : State) : (emit b s).nextNode = s.nextNode := rfl
@[simp] theorem emit_root (b : Byte) (s : State) : (emit b s).root = s.root := rfl
@[simp] theorem emit_outTotal (b : Byte) (s : State) : (emit b s).outTotal = s.outTotal + 1 := rfl
@[simp] theorem emit_result (b : Byte) (s : State) : (emit b s).result = s.result := rfl
@[simp] theorem emit_cause (b : Byte) (s : State) : (emit b s).cause = s.cause := rfl
@[simp] theorem emit_cfg (b : Byte) (s : State) : (emit b s).cfg = s.cfg := rfl
@[simp] theorem emit_outAddr (b : Byte) (s : State) : (emit b s).outAddr = s.outAddr := rfl
@[simp] theorem emit_count (b : Byte) (s : State) : (emit b s).count = s.count := rfl
@[simp] theorem emit_mem (b : Byte) (s : State) : (emit b s).mem = Memory.write s.mem (outByteAddr s.params s.outAddr s.run.n.toNat % 2 ^ s.params.outAw) b := rfl
@[simp] theorem emit_bound0 (b : Byte) (s : State) : (emit b s).bound0 = s.bound0 := rfl
@[simp] theorem emit_bound1 (b : Byte) (s : State) : (emit b s).bound1 = s.bound1 := rfl
@[simp] theorem emit_ops (b : Byte) (s : State) : (emit b s).ops = s.ops := rfl
@[simp] theorem emit_busData (b : Byte) (s : State) : (emit b s).busData = s.busData := rfl
@[simp] theorem emit_run (b : Byte) (s : State) : (emit b s).run = { s.run with n := s.run.n + 1 } := rfl

/-! ### `windowPush` -/

@[simp] theorem windowPush_params (b : Byte) (s : State) : (windowPush b s).params = s.params := rfl
@[simp] theorem windowPush_sess (b : Byte) (s : State) : (windowPush b s).sess = s.sess := rfl
@[simp] theorem windowPush_lcfg (b : Byte) (s : State) : (windowPush b s).lcfg = s.lcfg := rfl
@[simp] theorem windowPush_phase (b : Byte) (s : State) : (windowPush b s).phase = s.phase := rfl
@[simp] theorem windowPush_eos (b : Byte) (s : State) : (windowPush b s).eos = s.eos := rfl
@[simp] theorem windowPush_nodata (b : Byte) (s : State) : (windowPush b s).nodata = s.nodata := rfl
@[simp] theorem windowPush_port0 (b : Byte) (s : State) : (windowPush b s).port0 = s.port0 := rfl
@[simp] theorem windowPush_port1 (b : Byte) (s : State) : (windowPush b s).port1 = s.port1 := rfl
@[simp] theorem windowPush_br0 (b : Byte) (s : State) : (windowPush b s).br0 = s.br0 := rfl
@[simp] theorem windowPush_br1 (b : Byte) (s : State) : (windowPush b s).br1 = s.br1 := rfl
@[simp] theorem windowPush_win (b : Byte) (s : State) : (windowPush b s).win = s.win.set s.cur.toNat b := rfl
@[simp] theorem windowPush_cur (b : Byte) (s : State) : (windowPush b s).cur = BitVec.ofNat 24 ((s.cur.toNat + 1) % s.lcfg.frame) := rfl
@[simp] theorem windowPush_ctrlSr (b : Byte) (s : State) : (windowPush b s).ctrlSr = s.ctrlSr := rfl
@[simp] theorem windowPush_ctrlLeft (b : Byte) (s : State) : (windowPush b s).ctrlLeft = s.ctrlLeft := rfl
@[simp] theorem windowPush_copySrc (b : Byte) (s : State) : (windowPush b s).copySrc = s.copySrc := rfl
@[simp] theorem windowPush_copyLeft (b : Byte) (s : State) : (windowPush b s).copyLeft = s.copyLeft := rfl
@[simp] theorem windowPush_lhs (b : Byte) (s : State) : (windowPush b s).lhs = s.lhs := rfl
@[simp] theorem windowPush_rhs (b : Byte) (s : State) : (windowPush b s).rhs = s.rhs := rfl
@[simp] theorem windowPush_nextNode (b : Byte) (s : State) : (windowPush b s).nextNode = s.nextNode := rfl
@[simp] theorem windowPush_root (b : Byte) (s : State) : (windowPush b s).root = s.root := rfl
@[simp] theorem windowPush_outTotal (b : Byte) (s : State) : (windowPush b s).outTotal = s.outTotal := rfl
@[simp] theorem windowPush_result (b : Byte) (s : State) : (windowPush b s).result = s.result := rfl
@[simp] theorem windowPush_cause (b : Byte) (s : State) : (windowPush b s).cause = s.cause := rfl
@[simp] theorem windowPush_cfg (b : Byte) (s : State) : (windowPush b s).cfg = s.cfg := rfl
@[simp] theorem windowPush_outAddr (b : Byte) (s : State) : (windowPush b s).outAddr = s.outAddr := rfl
@[simp] theorem windowPush_count (b : Byte) (s : State) : (windowPush b s).count = s.count := rfl
@[simp] theorem windowPush_mem (b : Byte) (s : State) : (windowPush b s).mem = s.mem := rfl
@[simp] theorem windowPush_bound0 (b : Byte) (s : State) : (windowPush b s).bound0 = s.bound0 := rfl
@[simp] theorem windowPush_bound1 (b : Byte) (s : State) : (windowPush b s).bound1 = s.bound1 := rfl
@[simp] theorem windowPush_ops (b : Byte) (s : State) : (windowPush b s).ops = s.ops := rfl
@[simp] theorem windowPush_busData (b : Byte) (s : State) : (windowPush b s).busData = s.busData := rfl
@[simp] theorem windowPush_run (b : Byte) (s : State) : (windowPush b s).run = s.run := rfl

/-! ### `setLhs` -/

@[simp] theorem setLhs_params (v x : BitVec 9) (s : State) : (setLhs v x s).params = s.params := rfl
@[simp] theorem setLhs_sess (v x : BitVec 9) (s : State) : (setLhs v x s).sess = s.sess := rfl
@[simp] theorem setLhs_lcfg (v x : BitVec 9) (s : State) : (setLhs v x s).lcfg = s.lcfg := rfl
@[simp] theorem setLhs_phase (v x : BitVec 9) (s : State) : (setLhs v x s).phase = s.phase := rfl
@[simp] theorem setLhs_eos (v x : BitVec 9) (s : State) : (setLhs v x s).eos = s.eos := rfl
@[simp] theorem setLhs_nodata (v x : BitVec 9) (s : State) : (setLhs v x s).nodata = s.nodata := rfl
@[simp] theorem setLhs_port0 (v x : BitVec 9) (s : State) : (setLhs v x s).port0 = s.port0 := rfl
@[simp] theorem setLhs_port1 (v x : BitVec 9) (s : State) : (setLhs v x s).port1 = s.port1 := rfl
@[simp] theorem setLhs_br0 (v x : BitVec 9) (s : State) : (setLhs v x s).br0 = s.br0 := rfl
@[simp] theorem setLhs_br1 (v x : BitVec 9) (s : State) : (setLhs v x s).br1 = s.br1 := rfl
@[simp] theorem setLhs_win (v x : BitVec 9) (s : State) : (setLhs v x s).win = s.win := rfl
@[simp] theorem setLhs_cur (v x : BitVec 9) (s : State) : (setLhs v x s).cur = s.cur := rfl
@[simp] theorem setLhs_ctrlSr (v x : BitVec 9) (s : State) : (setLhs v x s).ctrlSr = s.ctrlSr := rfl
@[simp] theorem setLhs_ctrlLeft (v x : BitVec 9) (s : State) : (setLhs v x s).ctrlLeft = s.ctrlLeft := rfl
@[simp] theorem setLhs_copySrc (v x : BitVec 9) (s : State) : (setLhs v x s).copySrc = s.copySrc := rfl
@[simp] theorem setLhs_copyLeft (v x : BitVec 9) (s : State) : (setLhs v x s).copyLeft = s.copyLeft := rfl
@[simp] theorem setLhs_lhs (v x : BitVec 9) (s : State) : (setLhs v x s).lhs = s.lhs.set (slotOf v) x := rfl
@[simp] theorem setLhs_rhs (v x : BitVec 9) (s : State) : (setLhs v x s).rhs = s.rhs := rfl
@[simp] theorem setLhs_nextNode (v x : BitVec 9) (s : State) : (setLhs v x s).nextNode = s.nextNode := rfl
@[simp] theorem setLhs_root (v x : BitVec 9) (s : State) : (setLhs v x s).root = s.root := rfl
@[simp] theorem setLhs_outTotal (v x : BitVec 9) (s : State) : (setLhs v x s).outTotal = s.outTotal := rfl
@[simp] theorem setLhs_result (v x : BitVec 9) (s : State) : (setLhs v x s).result = s.result := rfl
@[simp] theorem setLhs_cause (v x : BitVec 9) (s : State) : (setLhs v x s).cause = s.cause := rfl
@[simp] theorem setLhs_cfg (v x : BitVec 9) (s : State) : (setLhs v x s).cfg = s.cfg := rfl
@[simp] theorem setLhs_outAddr (v x : BitVec 9) (s : State) : (setLhs v x s).outAddr = s.outAddr := rfl
@[simp] theorem setLhs_count (v x : BitVec 9) (s : State) : (setLhs v x s).count = s.count := rfl
@[simp] theorem setLhs_mem (v x : BitVec 9) (s : State) : (setLhs v x s).mem = s.mem := rfl
@[simp] theorem setLhs_bound0 (v x : BitVec 9) (s : State) : (setLhs v x s).bound0 = s.bound0 := rfl
@[simp] theorem setLhs_bound1 (v x : BitVec 9) (s : State) : (setLhs v x s).bound1 = s.bound1 := rfl
@[simp] theorem setLhs_ops (v x : BitVec 9) (s : State) : (setLhs v x s).ops = s.ops := rfl
@[simp] theorem setLhs_busData (v x : BitVec 9) (s : State) : (setLhs v x s).busData = s.busData := rfl
@[simp] theorem setLhs_run (v x : BitVec 9) (s : State) : (setLhs v x s).run = s.run := rfl

/-! ### `setRhs` -/

@[simp] theorem setRhs_params (v x : BitVec 9) (s : State) : (setRhs v x s).params = s.params := rfl
@[simp] theorem setRhs_sess (v x : BitVec 9) (s : State) : (setRhs v x s).sess = s.sess := rfl
@[simp] theorem setRhs_lcfg (v x : BitVec 9) (s : State) : (setRhs v x s).lcfg = s.lcfg := rfl
@[simp] theorem setRhs_phase (v x : BitVec 9) (s : State) : (setRhs v x s).phase = s.phase := rfl
@[simp] theorem setRhs_eos (v x : BitVec 9) (s : State) : (setRhs v x s).eos = s.eos := rfl
@[simp] theorem setRhs_nodata (v x : BitVec 9) (s : State) : (setRhs v x s).nodata = s.nodata := rfl
@[simp] theorem setRhs_port0 (v x : BitVec 9) (s : State) : (setRhs v x s).port0 = s.port0 := rfl
@[simp] theorem setRhs_port1 (v x : BitVec 9) (s : State) : (setRhs v x s).port1 = s.port1 := rfl
@[simp] theorem setRhs_br0 (v x : BitVec 9) (s : State) : (setRhs v x s).br0 = s.br0 := rfl
@[simp] theorem setRhs_br1 (v x : BitVec 9) (s : State) : (setRhs v x s).br1 = s.br1 := rfl
@[simp] theorem setRhs_win (v x : BitVec 9) (s : State) : (setRhs v x s).win = s.win := rfl
@[simp] theorem setRhs_cur (v x : BitVec 9) (s : State) : (setRhs v x s).cur = s.cur := rfl
@[simp] theorem setRhs_ctrlSr (v x : BitVec 9) (s : State) : (setRhs v x s).ctrlSr = s.ctrlSr := rfl
@[simp] theorem setRhs_ctrlLeft (v x : BitVec 9) (s : State) : (setRhs v x s).ctrlLeft = s.ctrlLeft := rfl
@[simp] theorem setRhs_copySrc (v x : BitVec 9) (s : State) : (setRhs v x s).copySrc = s.copySrc := rfl
@[simp] theorem setRhs_copyLeft (v x : BitVec 9) (s : State) : (setRhs v x s).copyLeft = s.copyLeft := rfl
@[simp] theorem setRhs_lhs (v x : BitVec 9) (s : State) : (setRhs v x s).lhs = s.lhs := rfl
@[simp] theorem setRhs_rhs (v x : BitVec 9) (s : State) : (setRhs v x s).rhs = s.rhs.set (slotOf v) x := rfl
@[simp] theorem setRhs_nextNode (v x : BitVec 9) (s : State) : (setRhs v x s).nextNode = s.nextNode := rfl
@[simp] theorem setRhs_root (v x : BitVec 9) (s : State) : (setRhs v x s).root = s.root := rfl
@[simp] theorem setRhs_outTotal (v x : BitVec 9) (s : State) : (setRhs v x s).outTotal = s.outTotal := rfl
@[simp] theorem setRhs_result (v x : BitVec 9) (s : State) : (setRhs v x s).result = s.result := rfl
@[simp] theorem setRhs_cause (v x : BitVec 9) (s : State) : (setRhs v x s).cause = s.cause := rfl
@[simp] theorem setRhs_cfg (v x : BitVec 9) (s : State) : (setRhs v x s).cfg = s.cfg := rfl
@[simp] theorem setRhs_outAddr (v x : BitVec 9) (s : State) : (setRhs v x s).outAddr = s.outAddr := rfl
@[simp] theorem setRhs_count (v x : BitVec 9) (s : State) : (setRhs v x s).count = s.count := rfl
@[simp] theorem setRhs_mem (v x : BitVec 9) (s : State) : (setRhs v x s).mem = s.mem := rfl
@[simp] theorem setRhs_bound0 (v x : BitVec 9) (s : State) : (setRhs v x s).bound0 = s.bound0 := rfl
@[simp] theorem setRhs_bound1 (v x : BitVec 9) (s : State) : (setRhs v x s).bound1 = s.bound1 := rfl
@[simp] theorem setRhs_ops (v x : BitVec 9) (s : State) : (setRhs v x s).ops = s.ops := rfl
@[simp] theorem setRhs_busData (v x : BitVec 9) (s : State) : (setRhs v x s).busData = s.busData := rfl
@[simp] theorem setRhs_run (v x : BitVec 9) (s : State) : (setRhs v x s).run = s.run := rfl

/-! ### `raise` -/

@[simp] theorem raise_params (f : FaultCode) (s : State) : (raise f s).params = s.params := rfl
@[simp] theorem raise_sess (f : FaultCode) (s : State) : (raise f s).sess = .faulted := rfl
@[simp] theorem raise_lcfg (f : FaultCode) (s : State) : (raise f s).lcfg = s.lcfg := rfl
@[simp] theorem raise_phase (f : FaultCode) (s : State) : (raise f s).phase = .none := rfl
@[simp] theorem raise_eos (f : FaultCode) (s : State) : (raise f s).eos = s.eos := rfl
@[simp] theorem raise_nodata (f : FaultCode) (s : State) : (raise f s).nodata = s.nodata := rfl
@[simp] theorem raise_port0 (f : FaultCode) (s : State) : (raise f s).port0 = s.port0 := rfl
@[simp] theorem raise_port1 (f : FaultCode) (s : State) : (raise f s).port1 = s.port1 := rfl
@[simp] theorem raise_br0 (f : FaultCode) (s : State) : (raise f s).br0 = s.br0 := rfl
@[simp] theorem raise_br1 (f : FaultCode) (s : State) : (raise f s).br1 = s.br1 := rfl
@[simp] theorem raise_win (f : FaultCode) (s : State) : (raise f s).win = s.win := rfl
@[simp] theorem raise_cur (f : FaultCode) (s : State) : (raise f s).cur = s.cur := rfl
@[simp] theorem raise_ctrlSr (f : FaultCode) (s : State) : (raise f s).ctrlSr = s.ctrlSr := rfl
@[simp] theorem raise_ctrlLeft (f : FaultCode) (s : State) : (raise f s).ctrlLeft = s.ctrlLeft := rfl
@[simp] theorem raise_copySrc (f : FaultCode) (s : State) : (raise f s).copySrc = s.copySrc := rfl
@[simp] theorem raise_copyLeft (f : FaultCode) (s : State) : (raise f s).copyLeft = s.copyLeft := rfl
@[simp] theorem raise_lhs (f : FaultCode) (s : State) : (raise f s).lhs = s.lhs := rfl
@[simp] theorem raise_rhs (f : FaultCode) (s : State) : (raise f s).rhs = s.rhs := rfl
@[simp] theorem raise_nextNode (f : FaultCode) (s : State) : (raise f s).nextNode = s.nextNode := rfl
@[simp] theorem raise_root (f : FaultCode) (s : State) : (raise f s).root = s.root := rfl
@[simp] theorem raise_outTotal (f : FaultCode) (s : State) : (raise f s).outTotal = s.outTotal := rfl
@[simp] theorem raise_result (f : FaultCode) (s : State) : (raise f s).result = 0 := rfl
@[simp] theorem raise_cause (f : FaultCode) (s : State) : (raise f s).cause = f.causeWord := rfl
@[simp] theorem raise_cfg (f : FaultCode) (s : State) : (raise f s).cfg = s.cfg := rfl
@[simp] theorem raise_outAddr (f : FaultCode) (s : State) : (raise f s).outAddr = s.outAddr := rfl
@[simp] theorem raise_count (f : FaultCode) (s : State) : (raise f s).count = s.count := rfl
@[simp] theorem raise_mem (f : FaultCode) (s : State) : (raise f s).mem = s.mem := rfl
@[simp] theorem raise_bound0 (f : FaultCode) (s : State) : (raise f s).bound0 = s.bound0 := rfl
@[simp] theorem raise_bound1 (f : FaultCode) (s : State) : (raise f s).bound1 = s.bound1 := rfl
@[simp] theorem raise_ops (f : FaultCode) (s : State) : (raise f s).ops = s.ops := rfl
@[simp] theorem raise_busData (f : FaultCode) (s : State) : (raise f s).busData = s.busData := rfl
@[simp] theorem raise_run (f : FaultCode) (s : State) : (raise f s).run = .rest := rfl

/-! ### `startCopy` -/

@[simp] theorem startCopy_params (d l : Nat) (s : State) : (startCopy d l s).params = s.params := rfl
@[simp] theorem startCopy_sess (d l : Nat) (s : State) : (startCopy d l s).sess = s.sess := rfl
@[simp] theorem startCopy_lcfg (d l : Nat) (s : State) : (startCopy d l s).lcfg = s.lcfg := rfl
@[simp] theorem startCopy_phase (d l : Nat) (s : State) : (startCopy d l s).phase = .lzCopy := rfl
@[simp] theorem startCopy_eos (d l : Nat) (s : State) : (startCopy d l s).eos = s.eos := rfl
@[simp] theorem startCopy_nodata (d l : Nat) (s : State) : (startCopy d l s).nodata = s.nodata := rfl
@[simp] theorem startCopy_port0 (d l : Nat) (s : State) : (startCopy d l s).port0 = s.port0 := rfl
@[simp] theorem startCopy_port1 (d l : Nat) (s : State) : (startCopy d l s).port1 = s.port1 := rfl
@[simp] theorem startCopy_br0 (d l : Nat) (s : State) : (startCopy d l s).br0 = s.br0 := rfl
@[simp] theorem startCopy_br1 (d l : Nat) (s : State) : (startCopy d l s).br1 = s.br1 := rfl
@[simp] theorem startCopy_win (d l : Nat) (s : State) : (startCopy d l s).win = s.win := rfl
@[simp] theorem startCopy_cur (d l : Nat) (s : State) : (startCopy d l s).cur = s.cur := rfl
@[simp] theorem startCopy_ctrlSr (d l : Nat) (s : State) : (startCopy d l s).ctrlSr = s.ctrlSr := rfl
@[simp] theorem startCopy_ctrlLeft (d l : Nat) (s : State) : (startCopy d l s).ctrlLeft = s.ctrlLeft := rfl
@[simp] theorem startCopy_copySrc (d l : Nat) (s : State) : (startCopy d l s).copySrc = BitVec.ofNat 24 ((s.cur.toNat + s.lcfg.frame - d) % s.lcfg.frame) := rfl
@[simp] theorem startCopy_copyLeft (d l : Nat) (s : State) : (startCopy d l s).copyLeft = BitVec.ofNat 32 l := rfl
@[simp] theorem startCopy_lhs (d l : Nat) (s : State) : (startCopy d l s).lhs = s.lhs := rfl
@[simp] theorem startCopy_rhs (d l : Nat) (s : State) : (startCopy d l s).rhs = s.rhs := rfl
@[simp] theorem startCopy_nextNode (d l : Nat) (s : State) : (startCopy d l s).nextNode = s.nextNode := rfl
@[simp] theorem startCopy_root (d l : Nat) (s : State) : (startCopy d l s).root = s.root := rfl
@[simp] theorem startCopy_outTotal (d l : Nat) (s : State) : (startCopy d l s).outTotal = s.outTotal := rfl
@[simp] theorem startCopy_result (d l : Nat) (s : State) : (startCopy d l s).result = s.result := rfl
@[simp] theorem startCopy_cause (d l : Nat) (s : State) : (startCopy d l s).cause = s.cause := rfl
@[simp] theorem startCopy_cfg (d l : Nat) (s : State) : (startCopy d l s).cfg = s.cfg := rfl
@[simp] theorem startCopy_outAddr (d l : Nat) (s : State) : (startCopy d l s).outAddr = s.outAddr := rfl
@[simp] theorem startCopy_count (d l : Nat) (s : State) : (startCopy d l s).count = s.count := rfl
@[simp] theorem startCopy_mem (d l : Nat) (s : State) : (startCopy d l s).mem = s.mem := rfl
@[simp] theorem startCopy_bound0 (d l : Nat) (s : State) : (startCopy d l s).bound0 = s.bound0 := rfl
@[simp] theorem startCopy_bound1 (d l : Nat) (s : State) : (startCopy d l s).bound1 = s.bound1 := rfl
@[simp] theorem startCopy_ops (d l : Nat) (s : State) : (startCopy d l s).ops = s.ops := rfl
@[simp] theorem startCopy_busData (d l : Nat) (s : State) : (startCopy d l s).busData = s.busData := rfl
@[simp] theorem startCopy_run (d l : Nat) (s : State) : (startCopy d l s).run = { s.run with sel := none } := rfl

/-! ### `takeCtrlBit` -/

@[simp] theorem takeCtrlBit_params (s : State) : (takeCtrlBit s).params = s.params := rfl
@[simp] theorem takeCtrlBit_sess (s : State) : (takeCtrlBit s).sess = s.sess := rfl
@[simp] theorem takeCtrlBit_lcfg (s : State) : (takeCtrlBit s).lcfg = s.lcfg := rfl
@[simp] theorem takeCtrlBit_phase (s : State) : (takeCtrlBit s).phase = s.phase := rfl
@[simp] theorem takeCtrlBit_eos (s : State) : (takeCtrlBit s).eos = s.eos := rfl
@[simp] theorem takeCtrlBit_nodata (s : State) : (takeCtrlBit s).nodata = s.nodata := rfl
@[simp] theorem takeCtrlBit_port0 (s : State) : (takeCtrlBit s).port0 = s.port0 := rfl
@[simp] theorem takeCtrlBit_port1 (s : State) : (takeCtrlBit s).port1 = s.port1 := rfl
@[simp] theorem takeCtrlBit_br0 (s : State) : (takeCtrlBit s).br0 = s.br0 := rfl
@[simp] theorem takeCtrlBit_br1 (s : State) : (takeCtrlBit s).br1 = s.br1 := rfl
@[simp] theorem takeCtrlBit_win (s : State) : (takeCtrlBit s).win = s.win := rfl
@[simp] theorem takeCtrlBit_cur (s : State) : (takeCtrlBit s).cur = s.cur := rfl
@[simp] theorem takeCtrlBit_ctrlSr (s : State) : (takeCtrlBit s).ctrlSr = if s.lcfg.cord then s.ctrlSr <<< 1 else s.ctrlSr >>> 1 := rfl
@[simp] theorem takeCtrlBit_ctrlLeft (s : State) : (takeCtrlBit s).ctrlLeft = s.ctrlLeft - 1 := rfl
@[simp] theorem takeCtrlBit_copySrc (s : State) : (takeCtrlBit s).copySrc = s.copySrc := rfl
@[simp] theorem takeCtrlBit_copyLeft (s : State) : (takeCtrlBit s).copyLeft = s.copyLeft := rfl
@[simp] theorem takeCtrlBit_lhs (s : State) : (takeCtrlBit s).lhs = s.lhs := rfl
@[simp] theorem takeCtrlBit_rhs (s : State) : (takeCtrlBit s).rhs = s.rhs := rfl
@[simp] theorem takeCtrlBit_nextNode (s : State) : (takeCtrlBit s).nextNode = s.nextNode := rfl
@[simp] theorem takeCtrlBit_root (s : State) : (takeCtrlBit s).root = s.root := rfl
@[simp] theorem takeCtrlBit_outTotal (s : State) : (takeCtrlBit s).outTotal = s.outTotal := rfl
@[simp] theorem takeCtrlBit_result (s : State) : (takeCtrlBit s).result = s.result := rfl
@[simp] theorem takeCtrlBit_cause (s : State) : (takeCtrlBit s).cause = s.cause := rfl
@[simp] theorem takeCtrlBit_cfg (s : State) : (takeCtrlBit s).cfg = s.cfg := rfl
@[simp] theorem takeCtrlBit_outAddr (s : State) : (takeCtrlBit s).outAddr = s.outAddr := rfl
@[simp] theorem takeCtrlBit_count (s : State) : (takeCtrlBit s).count = s.count := rfl
@[simp] theorem takeCtrlBit_mem (s : State) : (takeCtrlBit s).mem = s.mem := rfl
@[simp] theorem takeCtrlBit_bound0 (s : State) : (takeCtrlBit s).bound0 = s.bound0 := rfl
@[simp] theorem takeCtrlBit_bound1 (s : State) : (takeCtrlBit s).bound1 = s.bound1 := rfl
@[simp] theorem takeCtrlBit_ops (s : State) : (takeCtrlBit s).ops = s.ops := rfl
@[simp] theorem takeCtrlBit_busData (s : State) : (takeCtrlBit s).busData = s.busData := rfl

/-! ### `setInput`: a port and its reader -/

@[simp] theorem setInput_params (s : State) (k : Port) (p : InPort) (r : BitReader) : (s.setInput k p r).params = s.params := by
  cases k <;> rfl
@[simp] theorem setInput_sess (s : State) (k : Port) (p : InPort) (r : BitReader) : (s.setInput k p r).sess = s.sess := by
  cases k <;> rfl
@[simp] theorem setInput_lcfg (s : State) (k : Port) (p : InPort) (r : BitReader) : (s.setInput k p r).lcfg = s.lcfg := by
  cases k <;> rfl
@[simp] theorem setInput_phase (s : State) (k : Port) (p : InPort) (r : BitReader) : (s.setInput k p r).phase = s.phase := by
  cases k <;> rfl
@[simp] theorem setInput_eos (s : State) (k : Port) (p : InPort) (r : BitReader) : (s.setInput k p r).eos = s.eos := by
  cases k <;> rfl
@[simp] theorem setInput_nodata (s : State) (k : Port) (p : InPort) (r : BitReader) : (s.setInput k p r).nodata = s.nodata := by
  cases k <;> rfl
@[simp] theorem setInput_win (s : State) (k : Port) (p : InPort) (r : BitReader) : (s.setInput k p r).win = s.win := by
  cases k <;> rfl
@[simp] theorem setInput_cur (s : State) (k : Port) (p : InPort) (r : BitReader) : (s.setInput k p r).cur = s.cur := by
  cases k <;> rfl
@[simp] theorem setInput_ctrlSr (s : State) (k : Port) (p : InPort) (r : BitReader) : (s.setInput k p r).ctrlSr = s.ctrlSr := by
  cases k <;> rfl
@[simp] theorem setInput_ctrlLeft (s : State) (k : Port) (p : InPort) (r : BitReader) : (s.setInput k p r).ctrlLeft = s.ctrlLeft := by
  cases k <;> rfl
@[simp] theorem setInput_copySrc (s : State) (k : Port) (p : InPort) (r : BitReader) : (s.setInput k p r).copySrc = s.copySrc := by
  cases k <;> rfl
@[simp] theorem setInput_copyLeft (s : State) (k : Port) (p : InPort) (r : BitReader) : (s.setInput k p r).copyLeft = s.copyLeft := by
  cases k <;> rfl
@[simp] theorem setInput_lhs (s : State) (k : Port) (p : InPort) (r : BitReader) : (s.setInput k p r).lhs = s.lhs := by
  cases k <;> rfl
@[simp] theorem setInput_rhs (s : State) (k : Port) (p : InPort) (r : BitReader) : (s.setInput k p r).rhs = s.rhs := by
  cases k <;> rfl
@[simp] theorem setInput_nextNode (s : State) (k : Port) (p : InPort) (r : BitReader) : (s.setInput k p r).nextNode = s.nextNode := by
  cases k <;> rfl
@[simp] theorem setInput_root (s : State) (k : Port) (p : InPort) (r : BitReader) : (s.setInput k p r).root = s.root := by
  cases k <;> rfl
@[simp] theorem setInput_outTotal (s : State) (k : Port) (p : InPort) (r : BitReader) : (s.setInput k p r).outTotal = s.outTotal := by
  cases k <;> rfl
@[simp] theorem setInput_result (s : State) (k : Port) (p : InPort) (r : BitReader) : (s.setInput k p r).result = s.result := by
  cases k <;> rfl
@[simp] theorem setInput_cause (s : State) (k : Port) (p : InPort) (r : BitReader) : (s.setInput k p r).cause = s.cause := by
  cases k <;> rfl
@[simp] theorem setInput_cfg (s : State) (k : Port) (p : InPort) (r : BitReader) : (s.setInput k p r).cfg = s.cfg := by
  cases k <;> rfl
@[simp] theorem setInput_outAddr (s : State) (k : Port) (p : InPort) (r : BitReader) : (s.setInput k p r).outAddr = s.outAddr := by
  cases k <;> rfl
@[simp] theorem setInput_count (s : State) (k : Port) (p : InPort) (r : BitReader) : (s.setInput k p r).count = s.count := by
  cases k <;> rfl
@[simp] theorem setInput_mem (s : State) (k : Port) (p : InPort) (r : BitReader) : (s.setInput k p r).mem = s.mem := by
  cases k <;> rfl
@[simp] theorem setInput_bound0 (s : State) (k : Port) (p : InPort) (r : BitReader) : (s.setInput k p r).bound0 = s.bound0 := by
  cases k <;> rfl
@[simp] theorem setInput_bound1 (s : State) (k : Port) (p : InPort) (r : BitReader) : (s.setInput k p r).bound1 = s.bound1 := by
  cases k <;> rfl
@[simp] theorem setInput_ops (s : State) (k : Port) (p : InPort) (r : BitReader) : (s.setInput k p r).ops = s.ops := by
  cases k <;> rfl
@[simp] theorem setInput_busData (s : State) (k : Port) (p : InPort) (r : BitReader) : (s.setInput k p r).busData = s.busData := by
  cases k <;> rfl
@[simp] theorem setInput_run (s : State) (k : Port) (p : InPort) (r : BitReader) : (s.setInput k p r).run = s.run := by
  cases k <;> rfl
@[simp] theorem setInput_port (s : State) (k : Port) (p : InPort) (r : BitReader) : (s.setInput k p r).port k = p := by
  cases k <;> rfl
@[simp] theorem setInput_reader (s : State) (k : Port) (p : InPort) (r : BitReader) : (s.setInput k p r).reader k = r := by
  cases k <;> rfl
@[simp] theorem setInput_same (s : State) (k : Port) : s.setInput k (s.port k) (s.reader k) = s := by
  cases k <;> rfl
@[simp] theorem setInput_setInput (s : State) (k : Port) (p p' : InPort) (r r' : BitReader) :
    (s.setInput k p r).setInput k p' r' = s.setInput k p' r' := by
  cases k <;> rfl

/-! ### `checkTarget` -/

@[simp] theorem checkTarget_params (s : State) : (checkTarget s).params = s.params := by
  unfold checkTarget; split <;> rfl
@[simp] theorem checkTarget_sess (s : State) : (checkTarget s).sess = s.sess := by
  unfold checkTarget; split <;> rfl
@[simp] theorem checkTarget_lcfg (s : State) : (checkTarget s).lcfg = s.lcfg := by
  unfold checkTarget; split <;> rfl
@[simp] theorem checkTarget_phase (s : State) : (checkTarget s).phase = s.phase := by
  unfold checkTarget; split <;> rfl
@[simp] theorem checkTarget_nodata (s : State) : (checkTarget s).nodata = s.nodata := by
  unfold checkTarget; split <;> rfl
@[simp] theorem checkTarget_port0 (s : State) : (checkTarget s).port0 = s.port0 := by
  unfold checkTarget; split <;> rfl
@[simp] theorem checkTarget_port1 (s : State) : (checkTarget s).port1 = s.port1 := by
  unfold checkTarget; split <;> rfl
@[simp] theorem checkTarget_br0 (s : State) : (checkTarget s).br0 = s.br0 := by
  unfold checkTarget; split <;> rfl
@[simp] theorem checkTarget_br1 (s : State) : (checkTarget s).br1 = s.br1 := by
  unfold checkTarget; split <;> rfl
@[simp] theorem checkTarget_win (s : State) : (checkTarget s).win = s.win := by
  unfold checkTarget; split <;> rfl
@[simp] theorem checkTarget_cur (s : State) : (checkTarget s).cur = s.cur := by
  unfold checkTarget; split <;> rfl
@[simp] theorem checkTarget_ctrlSr (s : State) : (checkTarget s).ctrlSr = s.ctrlSr := by
  unfold checkTarget; split <;> rfl
@[simp] theorem checkTarget_ctrlLeft (s : State) : (checkTarget s).ctrlLeft = s.ctrlLeft := by
  unfold checkTarget; split <;> rfl
@[simp] theorem checkTarget_copySrc (s : State) : (checkTarget s).copySrc = s.copySrc := by
  unfold checkTarget; split <;> rfl
@[simp] theorem checkTarget_copyLeft (s : State) : (checkTarget s).copyLeft = s.copyLeft := by
  unfold checkTarget; split <;> rfl
@[simp] theorem checkTarget_lhs (s : State) : (checkTarget s).lhs = s.lhs := by
  unfold checkTarget; split <;> rfl
@[simp] theorem checkTarget_rhs (s : State) : (checkTarget s).rhs = s.rhs := by
  unfold checkTarget; split <;> rfl
@[simp] theorem checkTarget_nextNode (s : State) : (checkTarget s).nextNode = s.nextNode := by
  unfold checkTarget; split <;> rfl
@[simp] theorem checkTarget_root (s : State) : (checkTarget s).root = s.root := by
  unfold checkTarget; split <;> rfl
@[simp] theorem checkTarget_outTotal (s : State) : (checkTarget s).outTotal = s.outTotal := by
  unfold checkTarget; split <;> rfl
@[simp] theorem checkTarget_result (s : State) : (checkTarget s).result = s.result := by
  unfold checkTarget; split <;> rfl
@[simp] theorem checkTarget_cause (s : State) : (checkTarget s).cause = s.cause := by
  unfold checkTarget; split <;> rfl
@[simp] theorem checkTarget_cfg (s : State) : (checkTarget s).cfg = s.cfg := by
  unfold checkTarget; split <;> rfl
@[simp] theorem checkTarget_outAddr (s : State) : (checkTarget s).outAddr = s.outAddr := by
  unfold checkTarget; split <;> rfl
@[simp] theorem checkTarget_count (s : State) : (checkTarget s).count = s.count := by
  unfold checkTarget; split <;> rfl
@[simp] theorem checkTarget_mem (s : State) : (checkTarget s).mem = s.mem := by
  unfold checkTarget; split <;> rfl
@[simp] theorem checkTarget_bound0 (s : State) : (checkTarget s).bound0 = s.bound0 := by
  unfold checkTarget; split <;> rfl
@[simp] theorem checkTarget_bound1 (s : State) : (checkTarget s).bound1 = s.bound1 := by
  unfold checkTarget; split <;> rfl
@[simp] theorem checkTarget_ops (s : State) : (checkTarget s).ops = s.ops := by
  unfold checkTarget; split <;> rfl
@[simp] theorem checkTarget_busData (s : State) : (checkTarget s).busData = s.busData := by
  unfold checkTarget; split <;> rfl
@[simp] theorem checkTarget_run (s : State) : (checkTarget s).run = s.run := by
  unfold checkTarget; split <;> rfl

/-! ### `exhaust` -/

@[simp] theorem exhaust_params (f : FaultCode) (s : State) : (exhaust f s).params = s.params := by
  unfold exhaust; split <;> rfl
@[simp] theorem exhaust_lcfg (f : FaultCode) (s : State) : (exhaust f s).lcfg = s.lcfg := by
  unfold exhaust; split <;> rfl
@[simp] theorem exhaust_nodata (f : FaultCode) (s : State) : (exhaust f s).nodata = s.nodata := by
  unfold exhaust; split <;> rfl
@[simp] theorem exhaust_port0 (f : FaultCode) (s : State) : (exhaust f s).port0 = s.port0 := by
  unfold exhaust; split <;> rfl
@[simp] theorem exhaust_port1 (f : FaultCode) (s : State) : (exhaust f s).port1 = s.port1 := by
  unfold exhaust; split <;> rfl
@[simp] theorem exhaust_br0 (f : FaultCode) (s : State) : (exhaust f s).br0 = s.br0 := by
  unfold exhaust; split <;> rfl
@[simp] theorem exhaust_br1 (f : FaultCode) (s : State) : (exhaust f s).br1 = s.br1 := by
  unfold exhaust; split <;> rfl
@[simp] theorem exhaust_win (f : FaultCode) (s : State) : (exhaust f s).win = s.win := by
  unfold exhaust; split <;> rfl
@[simp] theorem exhaust_cur (f : FaultCode) (s : State) : (exhaust f s).cur = s.cur := by
  unfold exhaust; split <;> rfl
@[simp] theorem exhaust_ctrlSr (f : FaultCode) (s : State) : (exhaust f s).ctrlSr = s.ctrlSr := by
  unfold exhaust; split <;> rfl
@[simp] theorem exhaust_ctrlLeft (f : FaultCode) (s : State) : (exhaust f s).ctrlLeft = s.ctrlLeft := by
  unfold exhaust; split <;> rfl
@[simp] theorem exhaust_copySrc (f : FaultCode) (s : State) : (exhaust f s).copySrc = s.copySrc := by
  unfold exhaust; split <;> rfl
@[simp] theorem exhaust_copyLeft (f : FaultCode) (s : State) : (exhaust f s).copyLeft = s.copyLeft := by
  unfold exhaust; split <;> rfl
@[simp] theorem exhaust_lhs (f : FaultCode) (s : State) : (exhaust f s).lhs = s.lhs := by
  unfold exhaust; split <;> rfl
@[simp] theorem exhaust_rhs (f : FaultCode) (s : State) : (exhaust f s).rhs = s.rhs := by
  unfold exhaust; split <;> rfl
@[simp] theorem exhaust_nextNode (f : FaultCode) (s : State) : (exhaust f s).nextNode = s.nextNode := by
  unfold exhaust; split <;> rfl
@[simp] theorem exhaust_root (f : FaultCode) (s : State) : (exhaust f s).root = s.root := by
  unfold exhaust; split <;> rfl
@[simp] theorem exhaust_outTotal (f : FaultCode) (s : State) : (exhaust f s).outTotal = s.outTotal := by
  unfold exhaust; split <;> rfl
@[simp] theorem exhaust_cfg (f : FaultCode) (s : State) : (exhaust f s).cfg = s.cfg := by
  unfold exhaust; split <;> rfl
@[simp] theorem exhaust_outAddr (f : FaultCode) (s : State) : (exhaust f s).outAddr = s.outAddr := by
  unfold exhaust; split <;> rfl
@[simp] theorem exhaust_count (f : FaultCode) (s : State) : (exhaust f s).count = s.count := by
  unfold exhaust; split <;> rfl
@[simp] theorem exhaust_mem (f : FaultCode) (s : State) : (exhaust f s).mem = s.mem := by
  unfold exhaust; split <;> rfl
@[simp] theorem exhaust_bound0 (f : FaultCode) (s : State) : (exhaust f s).bound0 = s.bound0 := by
  unfold exhaust; split <;> rfl
@[simp] theorem exhaust_bound1 (f : FaultCode) (s : State) : (exhaust f s).bound1 = s.bound1 := by
  unfold exhaust; split <;> rfl
@[simp] theorem exhaust_ops (f : FaultCode) (s : State) : (exhaust f s).ops = s.ops := by
  unfold exhaust; split <;> rfl
@[simp] theorem exhaust_busData (f : FaultCode) (s : State) : (exhaust f s).busData = s.busData := by
  unfold exhaust; split <;> rfl

theorem checkTarget_eos (s : State) : (checkTarget s).eos = (s.eos || targetReached s) := by
  unfold checkTarget; split <;> simp_all

/-! ### The values at rest -/

@[simp] theorem rest_n : Run.rest.n = 0 := rfl
@[simp] theorem rest_sel : Run.rest.sel = none := rfl
@[simp] theorem rest_node : Run.rest.node = none := rfl
@[simp] theorem rest_stack : Run.rest.stack = [] := rfl

end Sys2Proof.Machine
end

