-- ==== Sys2Proof/Laws/Ops.lean ====
section
/-! SUPPORT. What the shared operations of Machine/Ops.lean and Machine/Flags.lean do, said once: later proofs cite these
lemmas and do not unfold the operations. -/

namespace Sys2Proof.Machine

/-! ### Cells -/

theorem cellAt_putCell (l : List Host.Cell) (a : Nat) (b : Byte) (x : Nat) :
    cellAt (putCell l a b) x = if x = a then some b else cellAt l x := by
  induction l with
  | nil => simp [putCell, cellAt]
  | cons c t ih =>
    obtain ⟨k, v⟩ := c
    simp only [putCell]
    split
    · simp [cellAt]
    · split
      · subst_vars; simp only [cellAt]; split <;> simp_all
      · simp only [cellAt, ih]; split <;> split <;> simp_all

theorem cellAt_dropCell (l : List Host.Cell) (a x : Nat) :
    cellAt (dropCell l a) x = if x = a then none else cellAt l x := by
  induction l with
  | nil => simp [dropCell, cellAt]
  | cons c t ih =>
    obtain ⟨k, v⟩ := c
    simp only [dropCell]
    split
    · rw [ih]; simp only [cellAt]; split <;> simp_all
    · simp only [cellAt, ih]; split <;> split <;> simp_all

theorem risingFrom_mono {lo lo' : Nat} {l : List Host.Cell} (h : lo' ≤ lo) (hl : risingFrom lo l = true) :
    risingFrom lo' l = true := by
  cases l with
  | nil => rfl
  | cons c t =>
    simp only [risingFrom, Bool.and_eq_true, decide_eq_true_eq] at hl ⊢
    exact ⟨by omega, hl.2⟩

theorem risingFrom_putCell {l : List Host.Cell} {lo a : Nat} (b : Byte) (hl : risingFrom lo l = true) (ha : lo ≤ a) :
    risingFrom lo (putCell l a b) = true := by
  induction l generalizing lo with
  | nil => simp [putCell, risingFrom, ha]
  | cons c t ih =>
    obtain ⟨k, v⟩ := c
    simp only [risingFrom, Bool.and_eq_true, decide_eq_true_eq] at hl
    simp only [putCell]
    split
    · simp [risingFrom, ha, hl.2]; omega
    · split
      · subst_vars; simp [risingFrom, hl.2, ha]
      · simp only [risingFrom, Bool.and_eq_true, decide_eq_true_eq]
        exact ⟨hl.1, ih hl.2 (by omega)⟩

theorem risingFrom_dropCell {l : List Host.Cell} {lo : Nat} (a : Nat) (hl : risingFrom lo l = true) :
    risingFrom lo (dropCell l a) = true := by
  induction l generalizing lo with
  | nil => rfl
  | cons c t ih =>
    obtain ⟨k, v⟩ := c
    simp only [risingFrom, Bool.and_eq_true, decide_eq_true_eq] at hl
    simp only [dropCell]
    split
    · exact risingFrom_mono (by omega) (ih hl.2)
    · simp only [risingFrom, Bool.and_eq_true, decide_eq_true_eq]
      exact ⟨hl.1, ih hl.2⟩

theorem mem_putCell {l : List Host.Cell} {a : Nat} {b : Byte} {c : Host.Cell} (h : c ∈ putCell l a b) :
    c = (a, b) ∨ c ∈ l := by
  induction l with
  | nil => exact .inl (by simpa [putCell] using h)
  | cons d t ih =>
    obtain ⟨k, v⟩ := d
    simp only [putCell] at h
    split at h
    · simpa using h
    · split at h
      · rcases List.mem_cons.1 h with h | h
        · exact .inl h
        · exact .inr (List.mem_cons_of_mem _ h)
      · rcases List.mem_cons.1 h with h | h
        · exact .inr (h ▸ List.mem_cons_self)
        · exact (ih h).imp_right (List.mem_cons_of_mem _)

theorem mem_dropCell {l : List Host.Cell} {a : Nat} {c : Host.Cell} (h : c ∈ dropCell l a) : c ∈ l := by
  induction l with
  | nil => simp [dropCell] at h
  | cons d t ih =>
    obtain ⟨k, v⟩ := d
    simp only [dropCell] at h
    split at h
    · exact List.mem_cons_of_mem _ (ih h)
    · rcases List.mem_cons.1 h with h | h
      · exact h ▸ List.mem_cons_self
      · exact List.mem_cons_of_mem _ (ih h)

/-! ### Output memory -/

/-- A byte written reads back, and every other byte reads as before. -/
theorem Memory.read_write (m : Memory) (a : Nat) (b : Byte) (x : Nat) :
    Memory.read (Memory.write m a b) x = if x = a then some b else Memory.read m x :=
  cellAt_putCell m a b x

/-- Every memory operation keeps the canonical form: `Memory.write` is the only one that writes. -/
theorem Memory.wf_write {m : Memory} (a : Nat) (b : Byte) (h : Memory.wf m = true) : Memory.wf (Memory.write m a b) = true :=
  risingFrom_putCell b h (Nat.zero_le a)

/-- The memory after reset has the canonical form. -/
theorem Memory.wf_reset (p : Params) : Memory.wf (State.resetWith p).mem = true := rfl

/-- A memory in canonical form is determined by what it reads as. -/
theorem cellAt_none_of_rising {l : List Host.Cell} {lo x : Nat} (h : risingFrom lo l = true) (hx : x < lo) :
    cellAt l x = none := by
  induction l generalizing lo with
  | nil => rfl
  | cons c t ih =>
    obtain ⟨k, v⟩ := c
    simp only [risingFrom, Bool.and_eq_true, decide_eq_true_eq] at h
    simp only [cellAt]
    rw [if_neg (by omega)]
    exact ih h.2 (by omega)

/-- What `emit` does to memory, byte by byte. -/
theorem read_emit (b : Byte) (s : State) (a : Nat) :
    Memory.read (emit b s).mem a =
      if a = outByteAddr s.params s.outAddr s.run.n.toNat then some b else Memory.read s.mem a := by
  rw [emit_mem, Memory.read_write, outByteAddr, Nat.mod_mod]

/-! ### The window -/

/-- A window cell written reads back, and every other cell reads as before. -/
theorem Window.get_set (w : Window) (i : Nat) (b : Byte) (x : Nat) :
    (w.set i b).get x = if x = i then b else w.get x := by
  unfold Window.set Window.get
  split
  · simp only [cellAt_dropCell]; split <;> simp_all
  · simp only [cellAt_putCell]; split <;> simp_all

@[simp] theorem Window.get_filled (b : Byte) (x : Nat) : (Window.filled b).get x = b := rfl

theorem Window.wf_filled (b : Byte) : (Window.filled b).wf = true := rfl

/-- A window write keeps the canonical form. -/
theorem Window.wf_set {w : Window} (i : Nat) (b : Byte) (h : w.wf = true) : (w.set i b).wf = true := by
  simp only [Window.wf, Bool.and_eq_true, List.all_eq_true] at h ⊢
  unfold Window.set
  split
  · exact ⟨risingFrom_dropCell i h.1, fun c hc => h.2 c (mem_dropCell hc)⟩
  · refine ⟨risingFrom_putCell b h.1 (Nat.zero_le i), fun c hc => ?_⟩
    rcases mem_putCell hc with rfl | hc
    · simpa using ‹_›
    · exact h.2 c hc

theorem Window.cells_set {w : Window} {i n : Nat} {b : Byte} (h : ∀ c ∈ w.cells, c.1 < n) (hi : i < n) :
    ∀ c ∈ (w.set i b).cells, c.1 < n := by
  intro c hc
  unfold Window.set at hc
  split at hc
  · exact h c (mem_dropCell hc)
  · rcases mem_putCell hc with rfl | hc
    · exact hi
    · exact h c hc

/-! ### Ports -/

/-- A fetched byte is the next one the port had to deliver, and it is delivered once (R63). -/
theorem InPort.inByte_some {p p' : InPort} {b : Byte} (hl : p.lim ≤ p.src.length) (h : p.inByte = some (b, p')) :
    p.unread = b :: p'.unread ∧ p' = { p with pos := p.pos + 1 } ∧ p.pos < p.lim := by
  unfold InPort.inByte at h
  split at h
  next hlt =>
    split at h
    next b' hb =>
      simp only [Option.some.injEq, Prod.mk.injEq] at h
      obtain ⟨rfl, rfl⟩ := h
      refine ⟨?_, rfl, hlt⟩
      unfold InPort.unread
      rw [List.drop_eq_getElem_cons (by simp; omega)]
      congr 1
      rw [List.getElem?_eq_some_iff] at hb
      simpa using hb.2
    next => simp at h
  next => simp at h

/-- A port is exhausted exactly when it has nothing left to deliver (R63). -/
theorem InPort.inByte_none {p : InPort} (hl : p.lim ≤ p.src.length) : p.inByte = none ↔ p.unread = [] := by
  unfold InPort.inByte InPort.unread
  rw [List.drop_eq_nil_iff]
  by_cases h : p.pos < p.lim
  · rw [if_pos h, List.getElem?_eq_getElem (by omega)]
    simp; omega
  · simp [h]; omega

/-- `POS_k` is the number of bytes fetched mod 2^32 (R10, R26). -/
theorem State.posWord_toNat (s : State) (k : Port) : (s.posWord k).toNat = (s.port k).pos % 2 ^ 32 := BitVec.toNat_ofNat _ _

/-- A fetched byte adds 1 to `POS_k`, which wraps mod 2^32 (R10, R63). -/
theorem InPort.inByte_posWord {p p' : InPort} {b : Byte} (h : p.inByte = some (b, p')) :
    BitVec.ofNat 32 p'.pos = BitVec.ofNat 32 p.pos + 1 := by
  unfold InPort.inByte at h
  split at h
  · split at h
    · cases h; exact BitVec.ofNat_add _ _
    · cases h
  · cases h

/-! ### Outcomes -/

@[simp] theorem andThen_next (s : State) (f : State → Res) : andThen (.next s) f = f s := rfl
@[simp] theorem andThen_fault (r : Fault) (f : State → Res) : andThen (.fault r) f = .fault r := rfl
@[simp] theorem andThen_refused (r : Refusal) (f : State → Res) : andThen (.refused r) f = .refused r := rfl

/-- A chained outcome is a next state only through a next state. -/
theorem andThen_eq_next {o : Res} {f : State → Res} {t : State} (h : andThen o f = .next t) :
    ∃ s, o = .next s ∧ f s = .next t := by
  cases o with
  | next s => exact ⟨s, rfl, h⟩
  | fault r => simp at h
  | refused r => simp at h

/-- A token's meaning is its effect at its place (R97). -/
theorem atPlace_of_awaits {p : Place} {s : State} {e : State → State} (h : awaits s = some p) :
    atPlace p s e = .next (e s) := by
  simp [atPlace, h]

theorem atPlace_eq_next {p : Place} {s t : State} {e : State → State} (h : atPlace p s e = .next t) :
    awaits s = some p ∧ t = e s := by
  unfold atPlace at h
  split at h
  · simp_all
  · simp at h

/-! ### What the engine awaits -/

theorem awaits_ctrl {s : State} : awaits s = some .ctrl ↔
    s.sess = .active ∧ s.eos = false ∧ s.phase = .lzToken ∧ s.run.sel = none ∧ s.ctrlLeft = 0 := by
  unfold awaits
  split
  · cases hp : s.phase <;> simp_all
    · cases hs : s.run.sel with
      | none => simp
      | some x => cases x <;> simp
  · simp_all

theorem awaits_literal {s : State} : awaits s = some .literal ↔
    s.sess = .active ∧ s.eos = false ∧ s.phase = .lzToken ∧ s.run.sel = some .literal := by
  unfold awaits
  split
  · cases hp : s.phase <;> simp_all
    · cases hs : s.run.sel with
      | none => simp
      | some x => cases x <;> simp
  · simp_all

theorem awaits_reference {s : State} : awaits s = some .reference ↔
    s.sess = .active ∧ s.eos = false ∧ s.phase = .lzToken ∧ s.run.sel = some .reference := by
  unfold awaits
  split
  · cases hp : s.phase <;> simp_all
    · cases hs : s.run.sel with
      | none => simp
      | some x => cases x <;> simp
  · simp_all

theorem awaits_tree {s : State} : awaits s = some .tree ↔ s.sess = .active ∧ s.eos = false ∧ s.phase = .hufBuild := by
  unfold awaits
  split
  · cases hp : s.phase <;> simp_all
    · cases hs : s.run.sel with
      | none => simp
      | some x => cases x <;> simp
  · simp_all

theorem awaits_code {s : State} : awaits s = some .code ↔
    s.sess = .active ∧ s.eos = false ∧ s.phase = .hufSym ∧ isLeaf (symNode s) = false := by
  unfold awaits
  split
  · cases hp : s.phase <;> simp_all
    · cases hs : s.run.sel with
      | none => simp
      | some x => cases x <;> simp
  · simp_all

/-! ### Exhaustion -/

theorem exhaust_of_bounded (f : FaultCode) (s : State) (h : s.lcfg.bounded = true) : exhaust f s = raise f s := by
  simp [exhaust, h]

theorem exhaust_of_unbounded (f : FaultCode) (s : State) (h : s.lcfg.bounded = false) :
    exhaust f s = { s with eos := true, run := { s.run with sel := none, node := none } } := by
  simp [exhaust, h]

end Sys2Proof.Machine
end

