-- ==== Sys2Proof/Laws/Access.lean ====
section
/-! SUPPORT. What the decoder of commands, the register map, the tree arrays and INIT's check of its configuration do, said
once for later proofs. -/

namespace Sys2Proof.Machine

/-! ### Command words -/

/-- Only commands are decoded from words (R82). -/
theorem decodeWord_place {w : Word} {i : Instr} (h : decodeWord w = .ok i) : i.place = none := by
  unfold decodeWord plainCommand at h
  repeat' split at h
  all_goals simp at h
  all_goals subst h; rfl

/-! ### The register map (R31) -/

/-- The word at a register's offset is that register. -/
theorem accessReg_offset (p : Params) (r : Reg) : accessReg p (p.regBase + r.offset) .word = .ok r := by
  unfold accessReg
  rw [if_neg (by cases r <;> simp [Reg.offset]), show p.regBase + r.offset - p.regBase = r.offset by omega]
  cases r <;> simp [Reg.offset, Reg.ofIndex]

/-- The word at `REG_BASE` is `CMD`. -/
theorem accessReg_cmd (p : Params) : accessReg p p.regBase .word = .ok .cmd := accessReg_offset p .cmd

/-! ### The tree arrays (R29) -/

theorem lhsAt_setLhs (v x u : BitVec 9) (s : State) :
    lhsAt (setLhs v x s) u = if slotOf v = slotOf u then x else lhsAt s u := by
  simp [lhsAt, setLhs, Vector.getElem_set, Fin.ext_iff]

theorem rhsAt_setRhs (v x u : BitVec 9) (s : State) :
    rhsAt (setRhs v x s) u = if slotOf v = slotOf u then x else rhsAt s u := by
  simp [rhsAt, setRhs, Vector.getElem_set, Fin.ext_iff]

@[simp] theorem lhsAt_setRhs (v x u : BitVec 9) (s : State) : lhsAt (setRhs v x s) u = lhsAt s u := rfl
@[simp] theorem rhsAt_setLhs (v x u : BitVec 9) (s : State) : rhsAt (setLhs v x s) u = rhsAt s u := rfl

/-- Two internal nodes of one slot are one node. -/
theorem slotOf_inj {u v : BitVec 9} (hu : 256 ≤ u.toNat) (hv : 256 ≤ v.toNat) (h : slotOf u = slotOf v) : u = v := by
  have h' : u.toNat % 256 = v.toNat % 256 := by simpa [slotOf, Fin.ext_iff] using h
  have := u.isLt
  have := v.isLt
  exact BitVec.eq_of_toNat_eq (by omega)

/-- Returning a subtree changes the tree arrays, ROOT, PHASE and the return stack, and nothing else (R193, R194). -/
theorem returnSubtree_frame (st : List BuildSlot) (x : BitVec 9) (s : State) :
    returnSubtree st x s = { s with
      lhs := (returnSubtree st x s).lhs, rhs := (returnSubtree st x s).rhs, root := (returnSubtree st x s).root
      phase := (returnSubtree st x s).phase, run := { s.run with stack := (returnSubtree st x s).run.stack } } := by
  induction st generalizing x s with
  | nil => rfl
  | cons c t ih =>
    cases c with
    | left v => rfl
    | right v =>
      simp only [returnSubtree]
      conv_lhs => rw [ih]
      rfl

/-! ### INIT's check of an LZSS configuration (R131) -/

/-- A nonzero number shares no bit with its predecessor exactly when it is a power of two. -/
theorem and_pred_eq_zero_iff {n : Nat} (h0 : n ≠ 0) : n &&& (n - 1) = 0 ↔ ∃ k, n = 2 ^ k := by
  constructor
  · intro h
    induction n using Nat.strong_induction_on with
    | _ n ih =>
      rcases Nat.even_or_odd' n with ⟨m, rfl | rfl⟩
      · have hm : m &&& (m - 1) = 0 := by
          apply Nat.eq_of_testBit_eq; intro i
          have := congrArg (·.testBit (i + 1)) h
          simp only [Nat.testBit_and, Nat.zero_testBit] at this ⊢
          simp only [Nat.testBit_succ] at this
          rwa [show 2 * m / 2 = m by omega, show (2 * m - 1) / 2 = m - 1 by omega] at this
        obtain ⟨k, hk⟩ := ih m (by omega) (by omega) hm
        exact ⟨k + 1, by rw [hk]; ring⟩
      · have : m = 0 := by
          apply Nat.eq_of_testBit_eq; intro i
          have := congrArg (·.testBit (i + 1)) h
          simp only [Nat.testBit_and, Nat.zero_testBit] at this ⊢
          simp only [Nat.testBit_succ] at this
          rw [show (2 * m + 1) / 2 = m by omega, show (2 * m + 1 - 1) / 2 = m by omega] at this
          simpa using this
        exact ⟨0, by omega⟩
  · rintro ⟨k, rfl⟩; simp [Nat.and_two_pow_sub_one_eq_mod]

/-- INIT rejects a frame size that is no power of two in 1..2^MAX_FRAME_LOG2, or a field width above 24. -/
theorem badLzss_iff {p : Params} {c : ConfigRegs} :
    c.badLzss p = true ↔ (¬∃ k, k ≤ p.maxFrameLog2 ∧ c.frame = 2 ^ k) ∨ 24 < c.distW ∨ 24 < c.lenW := by
  have key : (c.frameSize = 0 ∨ c.frameSize &&& (c.frameSize - 1) ≠ 0 ∨ 2 ^ p.maxFrameLog2 < c.frame) ↔
      ¬∃ k, k ≤ p.maxFrameLog2 ∧ c.frame = 2 ^ k := by
    by_cases h0 : c.frameSize = 0
    · simp only [h0, true_or, true_iff]
      rintro ⟨k, _, h⟩
      have : 0 < 2 ^ k := by positivity
      simp [ConfigRegs.frame, h0] at h; omega
    · have h0' : c.frame ≠ 0 := fun h => h0 (BitVec.eq_of_toNat_eq (by simpa [ConfigRegs.frame] using h))
      have hb : c.frameSize &&& (c.frameSize - 1) = 0 ↔ ∃ k, c.frame = 2 ^ k := by
        have hp : (c.frameSize - 1).toNat = c.frame - 1 := by
          unfold ConfigRegs.frame at *
          rw [BitVec.toNat_sub]; simp; omega
        rw [← and_pred_eq_zero_iff h0', ← BitVec.toNat_inj, BitVec.toNat_and, hp]
        simp [ConfigRegs.frame]
      simp only [h0, false_or, ne_eq, hb]
      constructor
      · rintro (h | h) ⟨k, hk, e⟩
        · exact h ⟨k, e⟩
        · have := Nat.pow_le_pow_right (n := 2) (by omega) hk; omega
      · intro h
        by_cases hk : ∃ k, c.frame = 2 ^ k
        · obtain ⟨k, hk⟩ := hk
          refine .inr (Nat.lt_of_not_le fun hle => h ⟨k, ?_, hk⟩)
          rw [hk] at hle
          exact (Nat.pow_le_pow_iff_right (a := 2) (by omega)).1 hle
        · exact .inl hk
  rw [← key]
  simp only [ConfigRegs.badLzss, Bool.or_eq_true, decide_eq_true_eq, beq_iff_eq, bne_iff_ne, or_assoc]

end Sys2Proof.Machine
end

