-- ==== Sys2Proof/Laws/Bits.lean ====
section
/-! SUPPORT. The bit lists of Decode.lean: a field and its value determine each other, in either variant. -/

namespace Sys2Proof

@[simp] theorem length_lowBits (n v : Nat) : (lowBits n v).length = n := by simp [lowBits]

@[simp] theorem length_fieldBits (lsb : Bool) (n v : Nat) : (fieldBits lsb n v).length = n := by
  cases lsb <;> simp [fieldBits]

@[simp] theorem lowBits_zero (v : Nat) : lowBits 0 v = [] := rfl

@[simp] theorem fieldBits_zero (lsb : Bool) (v : Nat) : fieldBits lsb 0 v = [] := by
  cases lsb <;> rfl

@[simp] theorem getElem_lowBits (n v i : Nat) (h : i < (lowBits n v).length) : (lowBits n v)[i] = v.testBit i := by
  simp [lowBits]

theorem lowBits_succ (n v : Nat) : lowBits (n + 1) v = v.testBit 0 :: lowBits n (v / 2) := by
  simp only [lowBits, List.range_succ_eq_map, List.map_cons, List.map_map]
  congr 1
  apply List.map_congr_left
  intro i _
  simp [Nat.testBit_succ]

theorem lowValue_lt (bs : List Bool) : lowValue bs < 2 ^ bs.length := by
  induction bs with
  | nil => simp [lowValue]
  | cons b t ih =>
    have := b.toNat_lt
    simp only [lowValue, List.length_cons, Nat.pow_succ]; omega

theorem lowBits_lowValue (bs : List Bool) : lowBits bs.length (lowValue bs) = bs := by
  induction bs with
  | nil => rfl
  | cons b t ih =>
    rw [List.length_cons, lowBits_succ]
    have h1 : (lowValue (b :: t)).testBit 0 = b := by
      cases b <;> simp [lowValue, Nat.testBit_zero]
    have h2 : lowValue (b :: t) / 2 = lowValue t := by
      cases b
      · simp [lowValue]
      · simp only [lowValue, Bool.toNat_true]; omega
    rw [h1, h2, ih]

theorem lowValue_lowBits (n v : Nat) : lowValue (lowBits n v) = v % 2 ^ n := by
  induction n generalizing v with
  | zero => simp [lowValue, Nat.mod_one]
  | succ n ih =>
    rw [lowBits_succ, lowValue, ih, Nat.pow_succ, Nat.mul_comm (2 ^ n) 2, Nat.mod_mul, Nat.testBit_zero]
    have : (decide (v % 2 = 1)).toNat = v % 2 := by
      rcases Nat.mod_two_eq_zero_or_one v with h | h <;> simp [h]
    rw [this]

/-- The value of a field's bits is the field, in either variant. -/
@[simp] theorem fieldValue_fieldBits (lsb : Bool) (n v : Nat) : fieldValue lsb (fieldBits lsb n v) = v % 2 ^ n := by
  cases lsb <;> simp [fieldValue, fieldBits, lowValue_lowBits]

/-- The bits of a value are the field the value was read from, in either variant. -/
@[simp] theorem fieldBits_fieldValue (lsb : Bool) (bs : List Bool) : fieldBits lsb bs.length (fieldValue lsb bs) = bs := by
  cases lsb
  · simp only [fieldBits, fieldValue, Bool.false_eq_true, if_false]
    have := lowBits_lowValue bs.reverse
    rw [List.length_reverse] at this
    rw [this, List.reverse_reverse]
  · simpa [fieldBits, fieldValue] using lowBits_lowValue bs

theorem fieldValue_lt (lsb : Bool) (bs : List Bool) : fieldValue lsb bs < 2 ^ bs.length := by
  cases lsb
  · simpa [fieldValue] using lowValue_lt bs.reverse
  · simpa [fieldValue] using lowValue_lt bs

theorem fieldBits_mod (lsb : Bool) (n v : Nat) : fieldBits lsb n (v % 2 ^ n) = fieldBits lsb n v := by
  rw [← fieldValue_fieldBits lsb n v]
  have := fieldBits_fieldValue lsb (fieldBits lsb n v)
  rwa [length_fieldBits] at this

theorem fieldBits_eq_of_value {lsb : Bool} {n v : Nat} {bs : List Bool} (hn : bs.length = n) (hv : fieldValue lsb bs = v) :
    fieldBits lsb n v = bs := by
  subst hn hv; exact fieldBits_fieldValue lsb bs

/-! ### Cutting a stream -/

theorem splitBits_append (a b : List Bool) : splitBits a.length (a ++ b) = some (a, b) := by
  simp [splitBits]

theorem splitBits_eq_some {n : Nat} {bs a b : List Bool} : splitBits n bs = some (a, b) ↔ a.length = n ∧ bs = a ++ b := by
  unfold splitBits
  split
  next h =>
    simp only [Option.some.injEq, Prod.mk.injEq]
    constructor
    · rintro ⟨rfl, rfl⟩; simp [h]
    · rintro ⟨rfl, rfl⟩; simp
  next h =>
    simp only [reduceCtorEq, false_iff, not_and]
    rintro rfl rfl; simp at h

theorem splitBits_eq_none {n : Nat} {bs : List Bool} : splitBits n bs = none ↔ bs.length < n := by
  unfold splitBits; split <;> simp <;> omega

/-! ### Streams of bytes -/

@[simp] theorem bitStream_nil (lsb : Bool) : bitStream lsb [] = [] := rfl

theorem bitStream_cons (lsb : Bool) (b : Byte) (bytes : List Byte) :
    bitStream lsb (b :: bytes) = fieldBits lsb 8 b.toNat ++ bitStream lsb bytes := by
  simp [bitStream]

theorem length_bitStream (lsb : Bool) (bytes : List Byte) : (bitStream lsb bytes).length = 8 * bytes.length := by
  induction bytes with
  | nil => rfl
  | cons b t ih => rw [bitStream_cons, List.length_append, ih, length_fieldBits, List.length_cons]; omega

end Sys2Proof
end

