-- ==== Sys2Proof/Laws/Engine.lean ====
section
/-! SUPPORT. What an engine step can do, said once (41_session.md R134): what it keeps, and the four ways it ends. Proofs about
CONTINUE cite these lemmas and do not unfold the step. -/

namespace Sys2Proof.Machine

/-! ### Reading input -/

/-- Only the position of port k and reader k have changed. -/
def InputRead (k : Port) (s t : State) : Prop :=
  ∃ pos r, t = s.setInput k { s.port k with pos := pos } r

theorem InputRead.refl (k : Port) (s : State) : InputRead k s s :=
  ⟨(s.port k).pos, s.reader k, by cases k <;> rfl⟩

theorem InputRead.trans {k : Port} {s t u : State} (h : InputRead k s t) (h' : InputRead k t u) : InputRead k s u := by
  obtain ⟨pos, r, rfl⟩ := h
  obtain ⟨pos', r', rfl⟩ := h'
  exact ⟨pos', r', by simp⟩

theorem InPort.inByte_frame {p p' : InPort} {b : Byte} (h : p.inByte = some (b, p')) : p' = { p with pos := p'.pos } := by
  unfold InPort.inByte at h
  split at h
  · split at h
    · simp only [Option.some.injEq, Prod.mk.injEq] at h; obtain ⟨_, rfl⟩ := h; rfl
    · cases h
  · cases h

theorem fillBits_frame (lsb : Bool) (n k : Nat) (p : InPort) (r : BitReader) :
    (fillBits lsb n k p r).2.1 = { p with pos := (fillBits lsb n k p r).2.1.pos } := by
  induction k generalizing p r with
  | zero => rfl
  | succ k ih =>
    unfold fillBits
    split
    · split
      · rfl
      · next b p' h =>
        have := InPort.inByte_frame h
        rw [ih, this]
    · rfl

theorem readBits_frame (lsb : Bool) (n : Nat) (p : InPort) (r : BitReader) :
    (readBits lsb n p r).2.1 = { p with pos := (readBits lsb n p r).2.1.pos } := by
  have := fillBits_frame lsb n n p r
  unfold readBits
  split
  · next h => rw [h] at this; exact this
  · next h => rw [h] at this; exact this

/-- A request changes only the position of its port and its reader. -/
theorem getBits_read (k : Port) (n : Nat) (s : State) : InputRead k s (getBits k n s).2 :=
  ⟨_, _, by rw [← readBits_frame]; rfl⟩

theorem getBits_read_of_eq {k : Port} {n : Nat} {s t : State} {v : Option Word} (h : getBits k n s = (v, t)) :
    InputRead k s t := by
  have := getBits_read k n s
  rwa [h] at this

theorem fetchByte_read (k : Port) (mk : Byte → Instr) (s : State) :
    (∃ b t, fetchByte k mk s = .token (mk b) t ∧ InputRead k s t) ∨ ∃ t, fetchByte k mk s = .exhausted t ∧ InputRead k s t := by
  unfold fetchByte
  split
  · next v s' h => exact .inl ⟨_, s', rfl, getBits_read_of_eq h⟩
  · next s' h => exact .inr ⟨s', rfl, getBits_read_of_eq h⟩

/-- A fetch gives a token of its place, or is exhausted; it changes only the position of its port and its reader. -/
theorem fetchToken_read (p : Place) (s : State) :
    (∃ i t, fetchToken p s = .token i t ∧ i.place = some p ∧ InputRead (inputPort s.lcfg p) s t) ∨
      ∃ t, fetchToken p s = .exhausted t ∧ InputRead (inputPort s.lcfg p) s t := by
  cases p with
  | ctrl =>
    rcases fetchByte_read s.lcfg.ctrlPort .lzCtrl s with ⟨b, t, h, hr⟩ | ⟨t, h, hr⟩
    · exact .inl ⟨_, t, h, rfl, hr⟩
    · exact .inr ⟨t, h, hr⟩
  | literal =>
    rcases fetchByte_read .p0 .lzLit s with ⟨b, t, h, hr⟩ | ⟨t, h, hr⟩
    · exact .inl ⟨_, t, h, rfl, hr⟩
    · exact .inr ⟨t, h, hr⟩
  | reference =>
    simp only [fetchToken, inputPort]
    cases hd : getBits .p0 s.lcfg.distW s with
    | mk d s' =>
      cases d with
      | none => exact .inr ⟨s', rfl, getBits_read_of_eq hd⟩
      | some d =>
        cases hl : getBits .p0 s'.lcfg.lenW s' with
        | mk l s'' =>
          have hr := (getBits_read_of_eq hd).trans (getBits_read_of_eq hl)
          cases l with
          | none => exact .inr ⟨s'', by simp [hl], hr⟩
          | some l => exact .inl ⟨_, s'', by simp only [hl]; rfl, rfl, hr⟩
  | tree =>
    simp only [fetchToken, inputPort]
    cases ht : getBits .p0 1 s with
    | mk v s' =>
      have hr := getBits_read_of_eq ht
      cases v with
      | none => exact .inr ⟨s', rfl, hr⟩
      | some v =>
        by_cases hv : v = 1
        · exact .inl ⟨.hufBranch, s', by simp [hv], rfl, hr⟩
        · rcases fetchByte_read .p0 .hufLeaf s' with ⟨b, t, h, hr'⟩ | ⟨t, h, hr'⟩
          · exact .inl ⟨_, t, by simp only [hv, if_false]; exact h, rfl, hr.trans hr'⟩
          · exact .inr ⟨t, by simp only [hv, if_false]; exact h, hr.trans hr'⟩
  | code =>
    simp only [fetchToken, inputPort]
    cases hb : getBits .p0 1 s with
    | mk v s' =>
      have hr := getBits_read_of_eq hb
      cases v with
      | none => exact .inr ⟨s', rfl, hr⟩
      | some v => exact .inl ⟨_, s', rfl, by split <;> rfl, hr⟩

/-- Fetching a token and running it ends in one of two ways: the token's meaning, or exhaustion. -/
theorem engineToken_cases (p : Place) (s : State) :
    (∃ i s', engineToken p s = exec i s' ∧ i.place = some p ∧ InputRead (inputPort s.lcfg p) s s') ∨
      ∃ s', engineToken p s = .next (exhaustAt p s') ∧ InputRead (inputPort s.lcfg p) s s' := by
  unfold engineToken
  rcases fetchToken_read p s with ⟨i, s', h, hp, hr⟩ | ⟨s', h, hr⟩
  · refine .inl ⟨i, s', ?_, hp, hr⟩
    rw [h]
    cases i <;> first | rfl | cases hp
  · exact .inr ⟨s', by rw [h], hr⟩

/-! ### What every engine step keeps -/

/-- What no engine step changes: the parameters, the latched configuration, the host's registers and operations, and the
sequences and limits of both ports. -/
structure StepKept (s t : State) : Prop where
  params : t.params = s.params
  lcfg : t.lcfg = s.lcfg
  nodata : t.nodata = s.nodata
  cfg : t.cfg = s.cfg
  outAddr : t.outAddr = s.outAddr
  count : t.count = s.count
  bound0 : t.bound0 = s.bound0
  bound1 : t.bound1 = s.bound1
  ops : t.ops = s.ops
  busData : t.busData = s.busData
  src0 : t.port0.src = s.port0.src
  lim0 : t.port0.lim = s.port0.lim
  src1 : t.port1.src = s.port1.src
  lim1 : t.port1.lim = s.port1.lim

theorem StepKept.refl (s : State) : StepKept s s := ⟨rfl, rfl, rfl, rfl, rfl, rfl, rfl, rfl, rfl, rfl, rfl, rfl, rfl, rfl⟩

theorem StepKept.trans {s t u : State} (h : StepKept s t) (h' : StepKept t u) : StepKept s u :=
  ⟨h'.params.trans h.params, h'.lcfg.trans h.lcfg, h'.nodata.trans h.nodata, h'.cfg.trans h.cfg,
    h'.outAddr.trans h.outAddr, h'.count.trans h.count, h'.bound0.trans h.bound0, h'.bound1.trans h.bound1,
    h'.ops.trans h.ops, h'.busData.trans h.busData, h'.src0.trans h.src0, h'.lim0.trans h.lim0, h'.src1.trans h.src1,
    h'.lim1.trans h.lim1⟩

theorem InputRead.kept {k : Port} {s t : State} (h : InputRead k s t) : StepKept s t := by
  obtain ⟨pos, r, rfl⟩ := h
  cases k <;> exact ⟨rfl, rfl, rfl, rfl, rfl, rfl, rfl, rfl, rfl, rfl, rfl, rfl, rfl, rfl⟩

theorem raise_kept (f : FaultCode) (s : State) : StepKept s (raise f s) := by constructor <;> rfl
theorem emit_kept (b : Byte) (s : State) : StepKept s (emit b s) := by constructor <;> rfl
theorem takeCtrlBit_kept (s : State) : StepKept s (takeCtrlBit s) := by constructor <;> rfl

theorem exhaust_kept (f : FaultCode) (s : State) : StepKept s (exhaust f s) := by
  unfold exhaust; split <;> (constructor <;> rfl)

theorem exhaustAt_kept (p : Place) (s : State) : StepKept s (exhaustAt p s) := by
  cases p <;> first | exact exhaust_kept _ s | (constructor <;> rfl)

theorem checkTarget_kept (s : State) : StepKept s (checkTarget s) := by
  unfold checkTarget; split <;> (constructor <;> rfl)

/-! ### How an engine step ends -/

/-- Nothing has been emitted and no window cell written. -/
structure Unwritten (s t : State) : Prop where
  mem : t.mem = s.mem
  win : t.win = s.win
  cur : t.cur = s.cur
  outTotal : t.outTotal = s.outTotal

theorem Unwritten.refl (s : State) : Unwritten s s := ⟨rfl, rfl, rfl, rfl⟩

theorem Unwritten.trans {s t u : State} (h : Unwritten s t) (h' : Unwritten t u) : Unwritten s u :=
  ⟨h'.mem.trans h.mem, h'.win.trans h.win, h'.cur.trans h.cur, h'.outTotal.trans h.outTotal⟩

/-- The command goes on: the session is open, and no fault has been recorded. -/
structure Going (s t : State) : Prop where
  sess : t.sess = s.sess
  cause : t.cause = s.cause
  result : t.result = s.result

theorem Going.refl (s : State) : Going s s := ⟨rfl, rfl, rfl⟩

theorem Going.trans {s t u : State} (h : Going s t) (h' : Going t u) : Going s u :=
  ⟨h'.sess.trans h.sess, h'.cause.trans h.cause, h'.result.trans h.result⟩

theorem InputRead.unwritten {k : Port} {s t : State} (h : InputRead k s t) : Unwritten s t := by
  obtain ⟨pos, r, rfl⟩ := h
  cases k <;> exact ⟨rfl, rfl, rfl, rfl⟩

theorem InputRead.going {k : Port} {s t : State} (h : InputRead k s t) : Going s t := by
  obtain ⟨pos, r, rfl⟩ := h
  cases k <;> exact ⟨rfl, rfl, rfl⟩

theorem InputRead.eos {k : Port} {s t : State} (h : InputRead k s t) : t.eos = s.eos := by
  obtain ⟨pos, r, rfl⟩ := h; simp

theorem InputRead.phase {k : Port} {s t : State} (h : InputRead k s t) : t.phase = s.phase := by
  obtain ⟨pos, r, rfl⟩ := h; simp

theorem InputRead.run {k : Port} {s t : State} (h : InputRead k s t) : t.run = s.run := by
  obtain ⟨pos, r, rfl⟩ := h; simp

/-- The locals of a CONTINUE between two of its steps: n bytes written and nothing under way. -/
def Run.between (n : Word) : Run := ⟨n, none, none, []⟩

/-- The four ways an engine step ends, from a state `s` between two steps. -/
inductive StepEnd (s t : State) : Prop
  /-- A fault, before anything is written (R226). -/
  | fault (f : FaultCode) (u : State) (raised : t = raise f u) (unwritten : Unwritten s u)
  /-- The end of an unbounded session (R168, R196). -/
  | ended (unwritten : Unwritten s t) (going : Going s t) (unbounded : s.lcfg.bounded = false) (eos : t.eos = true)
      (phase : t.phase = s.phase) (run : t.run = .between s.run.n)
  /-- One byte emitted. -/
  | emitted (b : Byte) (mem : t.mem = Memory.write s.mem (outByteAddr s.params s.outAddr s.run.n.toNat) b)
      (outTotal : t.outTotal = s.outTotal + 1) (going : Going s t) (eos : t.eos = false)
      (phase : (s.phase = .lzToken ∧ t.phase = .lzToken) ∨ (s.phase = .lzCopy ∧ (t.phase = .lzCopy ∨ t.phase = .lzToken)) ∨
        (s.phase = .hufSym ∧ t.phase = .hufSym))
      (run : t.run = .between (s.run.n + 1))
  /-- A back-reference header, or the tree build: nothing emitted, and the next step emits (R257). -/
  | quiet (unwritten : Unwritten s t) (going : Going s t) (eos : t.eos = false)
      (phase : (s.phase = .lzToken ∧ t.phase = .lzCopy) ∨ (s.phase = .hufBuild ∧ t.phase = .hufSym))
      (run : t.run = .between s.run.n)

theorem Run.eq_between {r : Run} {n : Word} (hn : r.n = n) (hs : r.sel = none) (hd : r.node = none) (ht : r.stack = []) :
    r = .between n := by
  cases r; subst hn hs hd ht; rfl

theorem emit_mem_eq (b : Byte) (s : State) :
    (emit b s).mem = Memory.write s.mem (outByteAddr s.params s.outAddr s.run.n.toNat) b := by
  rw [emit_mem, outByteAddr, Nat.mod_mod]

/-- Exhaustion in LZSS and in the code part: a fault, or the end of the session. -/
theorem exhaust_end {f : FaultCode} {s u : State} (hw : Unwritten s u) (hg : Going s u) (hl : u.lcfg = s.lcfg)
    (hp : u.phase = s.phase) (hn : u.run.n = s.run.n) (hs : u.run.stack = []) : StepEnd s (exhaust f u) := by
  cases hb : u.lcfg.bounded with
  | true => rw [exhaust_of_bounded f u hb]; exact .fault f u rfl hw
  | false =>
    rw [exhaust_of_unbounded f u hb]
    exact .ended ⟨hw.mem, hw.win, hw.cur, hw.outTotal⟩ ⟨hg.sess, hg.cause, hg.result⟩ (by rw [← hl]; exact hb) rfl hp
      (by simp [Run.between, hn, hs])

/-- The copy step emits one byte. -/
theorem lzCopyStep_end {s : State} (he : s.eos = false) (hp : s.phase = .lzCopy) (hr : s.run = .between s.run.n) :
    StepEnd s (lzCopyStep s) := by
  have hph : (lzCopyStep s).phase = if s.copyLeft - 1 = 0 then .lzToken else .lzCopy := rfl
  refine .emitted (s.win.get s.copySrc.toNat) ?_ rfl ⟨rfl, rfl, rfl⟩ he (.inr (.inl ⟨hp, ?_⟩)) ?_
  · unfold lzCopyStep; rw [emit_mem_eq]; rfl
  · rw [hph]; split
    · exact .inr rfl
    · exact .inl rfl
  · show { s.run with n := s.run.n + 1 } = _
    rw [hr]; rfl

theorem lzCopyStep_kept (s : State) : StepKept s (lzCopyStep s) := by constructor <;> rfl

/-! ### What a token's meaning answers -/

theorem execLzCtrl_next {x : Byte} {s t : State} (h : exec (.lzCtrl x) s = .next t) :
    awaits s = some .ctrl ∧ t = takeCtrlBit { s with ctrlSr := x, ctrlLeft := 8 } := by
  simp only [exec, execLzCtrl] at h
  exact atPlace_eq_next h

theorem execLzLit_next {b : Byte} {s t : State} (h : exec (.lzLit b) s = .next t) :
    awaits s = some .literal ∧ t = emit b (windowPush b { s with run := { s.run with sel := none } }) := by
  simp only [exec, execLzLit] at h
  exact atPlace_eq_next h

theorem execLzRef_next {d l : BitVec 24} {s t : State} (h : exec (.lzRef d l) s = .next t) :
    awaits s = some .reference ∧
      ((∃ f, t = raise f s) ∨
        (1 ≤ refDistance s.lcfg d ∧ refDistance s.lcfg d ≤ s.lcfg.frame ∧ 1 ≤ refLength s.lcfg l ∧
          t = startCopy (refDistance s.lcfg d) (refLength s.lcfg l) s)) := by
  obtain ⟨ha, ht⟩ := atPlace_eq_next (e := fun s =>
    if refDistance s.lcfg d = 0 ∨ s.lcfg.frame < refDistance s.lcfg d then raise .malBadDistance s
    else if refLength s.lcfg l = 0 then raise .malZeroLength s
    else startCopy (refDistance s.lcfg d) (refLength s.lcfg l) s) h
  refine ⟨ha, ?_⟩
  split at ht
  · exact .inl ⟨_, ht⟩
  · split at ht
    · exact .inl ⟨_, ht⟩
    · exact .inr ⟨by omega, by omega, by omega, ht⟩

theorem execHufBranch_next {s t : State} (h : exec .hufBranch s = .next t) :
    awaits s = some .tree ∧
      ((512 ≤ s.nextNode.toNat ∧ t = raise .malTreeOverflow s) ∨
        (s.nextNode.toNat < 512 ∧
          t = { s with
            nextNode := s.nextNode + 1, run := { s.run with stack := .left (s.nextNode.setWidth 9) :: s.run.stack } })) := by
  obtain ⟨ha, ht⟩ := atPlace_eq_next (e := fun s =>
    if 512 ≤ s.nextNode.toNat then raise .malTreeOverflow s
    else
      { s with
        nextNode := s.nextNode + 1
        run := { s.run with stack := .left (s.nextNode.setWidth 9) :: s.run.stack } }) h
  refine ⟨ha, ?_⟩
  split at ht
  · exact .inl ⟨‹_›, ht⟩
  · exact .inr ⟨by omega, ht⟩

theorem execHufLeaf_next {v : Byte} {s t : State} (h : exec (.hufLeaf v) s = .next t) :
    awaits s = some .tree ∧ t = returnSubtree s.run.stack (v.setWidth 9) s := by
  simp only [exec, execHufLeaf] at h
  exact atPlace_eq_next h

theorem execHufCode0_next {s t : State} (h : exec .hufCode0 s = .next t) :
    awaits s = some .code ∧ t = moveTo (lhsAt s (symNode s)) s := by
  simp only [exec, execHufCode0] at h
  exact atPlace_eq_next h

theorem execHufCode1_next {s t : State} (h : exec .hufCode1 s = .next t) :
    awaits s = some .code ∧ t = moveTo (rhsAt s (symNode s)) s := by
  simp only [exec, execHufCode1] at h
  exact atPlace_eq_next h

/-! ### The LZSS token step -/

/-- Taking a control bit selects an item, and changes no other local. -/
theorem takeCtrlBit_run (s : State) : ∃ x, (takeCtrlBit s).run = { s.run with sel := some x } := ⟨_, rfl⟩

/-- The item a control bit selected: a byte emitted, a copy started, a fault or the end. -/
theorem lzItemStep_end {s u t : State} {x : LzItem} (hk : StepKept s u) (hw : Unwritten s u) (hg : Going s u)
    (he : u.eos = false) (hp : s.phase = .lzToken) (hpu : u.phase = .lzToken)
    (hr : u.run = { Run.between s.run.n with sel := some x }) (h : lzItemStep u = .next t) : StepEnd s t ∧ StepKept s t := by
  have hx : u.run.sel = some x := by rw [hr]
  have hn : u.run.n = s.run.n := by rw [hr]; rfl
  have hst : u.run.stack = [] := by rw [hr]; rfl
  have hexh : ∀ (f : FaultCode) (k : Port) (v : State), InputRead k u v →
      StepEnd s (exhaust f v) ∧ StepKept s (exhaust f v) := fun f k v hv =>
    ⟨exhaust_end (hw.trans hv.unwritten) (hg.trans hv.going) (hv.kept.lcfg.trans hk.lcfg) (hv.phase.trans (hpu.trans hp.symm))
      (by rw [hv.run, hn]) (by rw [hv.run, hst]), (hk.trans hv.kept).trans (exhaust_kept f v)⟩
  unfold lzItemStep at h
  rw [hx] at h
  cases x with
  | literal =>
    rcases engineToken_cases .literal u with ⟨i, v, hv, hi, hin⟩ | ⟨v, hv, hin⟩
    · rw [show engineToken .literal u = .next t from h] at hv
      cases i <;> simp only [Instr.place, Option.some.injEq, reduceCtorEq] at hi
      next b =>
      obtain ⟨_, rfl⟩ := execLzLit_next hv.symm
      have hkv := hk.trans hin.kept
      refine ⟨.emitted b ?_ ?_ ?_ ?_ (.inl ⟨hp, ?_⟩) ?_, ?_⟩
      · rw [emit_mem_eq]
        show Memory.write v.mem (outByteAddr v.params v.outAddr v.run.n.toNat) b = _
        rw [hkv.params, hkv.outAddr, hin.run, hn, (hw.trans hin.unwritten).mem]
      · show v.outTotal + 1 = _
        rw [(hw.trans hin.unwritten).outTotal]
      · exact (hg.trans hin.going).trans ⟨rfl, rfl, rfl⟩
      · exact hin.eos.trans he
      · exact hin.phase.trans hpu
      · show { v.run with sel := none, n := v.run.n + 1 } = _
        rw [hin.run, hr]; rfl
      · exact hkv.trans (by constructor <;> rfl)
    · rw [show engineToken .literal u = .next t from h] at hv
      cases hv
      exact hexh _ _ v hin
  | reference =>
    rcases engineToken_cases .reference u with ⟨i, v, hv, hi, hin⟩ | ⟨v, hv, hin⟩
    · rw [show engineToken .reference u = .next t from h] at hv
      cases i <;> simp only [Instr.place, Option.some.injEq, reduceCtorEq] at hi
      next d l =>
      have hkv := hk.trans hin.kept
      have hwv := hw.trans hin.unwritten
      have hgv := hg.trans hin.going
      obtain ⟨_, ⟨f, rfl⟩ | ⟨_, _, _, rfl⟩⟩ := execLzRef_next hv.symm
      · exact ⟨.fault f v rfl hwv, hkv.trans (raise_kept f v)⟩
      · refine ⟨.quiet ⟨hwv.mem, hwv.win, hwv.cur, hwv.outTotal⟩ ⟨hgv.sess, hgv.cause, hgv.result⟩ (hin.eos.trans he)
          (.inl ⟨hp, rfl⟩) ?_, hkv.trans (by constructor <;> rfl)⟩
        show { v.run with sel := none } = _
        rw [hin.run, hr]; rfl
    · rw [show engineToken .reference u = .next t from h] at hv
      cases hv
      exact hexh _ _ v hin

/-- The token step (R161). -/
theorem lzTokenStep_end {s t : State} (he : s.eos = false) (hp : s.phase = .lzToken) (hr : s.run = .between s.run.n)
    (h : lzTokenStep s = .next t) : StepEnd s t ∧ StepKept s t := by
  unfold lzTokenStep at h
  split at h
  · obtain ⟨u, hu, h⟩ := andThen_eq_next h
    rcases engineToken_cases .ctrl s with ⟨i, v, hv, hi, hin⟩ | ⟨v, hv, hin⟩
    · rw [hu] at hv
      cases i <;> simp only [Instr.place, Option.some.injEq, reduceCtorEq] at hi
      next x =>
      obtain ⟨_, rfl⟩ := execLzCtrl_next hv.symm
      have hw := hin.unwritten
      have hg := hin.going
      obtain ⟨x', hx'⟩ := takeCtrlBit_run { v with ctrlSr := x, ctrlLeft := 8 }
      refine lzItemStep_end (u := takeCtrlBit { v with ctrlSr := x, ctrlLeft := 8 }) (hin.kept.trans (by constructor <;> rfl)) ⟨hw.mem, hw.win, hw.cur, hw.outTotal⟩
        ⟨hg.sess, hg.cause, hg.result⟩ (hin.eos.trans he) hp (hin.phase.trans hp)
        (x := x') ?_ h
      rw [hx', ← hr, ← hin.run]
    · rw [hu] at hv
      cases hv
      have hsel : (exhaust .truncCtrl v).run.sel = none := by unfold exhaust; split <;> rfl
      unfold lzItemStep at h
      rw [show (exhaustAt .ctrl v).run.sel = none from hsel] at h
      cases h
      exact ⟨exhaust_end hin.unwritten hin.going hin.kept.lcfg hin.phase (by rw [hin.run])
        (by rw [hin.run, hr]; rfl), hin.kept.trans (exhaust_kept _ v)⟩
  · obtain ⟨x', hx'⟩ := takeCtrlBit_run s
    refine lzItemStep_end (u := takeCtrlBit s) (takeCtrlBit_kept s) ⟨rfl, rfl, rfl, rfl⟩ ⟨rfl, rfl, rfl⟩ he hp hp
      (x := x') ?_ h
    rw [hx', ← hr]

/-! ### The Huffman steps -/

/-- Between two tokens of a Huffman step: nothing is written, no fault is recorded, and no control bit is under way. -/
structure Reading (s u : State) : Prop where
  kept : StepKept s u
  unwritten : Unwritten s u
  going : Going s u
  eos : u.eos = false
  n : u.run.n = s.run.n
  sel : u.run.sel = none

theorem Reading.read {s u v : State} {k : Port} (h : Reading s u) (hin : InputRead k u v) : Reading s v :=
  ⟨h.kept.trans hin.kept, h.unwritten.trans hin.unwritten, h.going.trans hin.going, hin.eos.trans h.eos,
    by rw [hin.run]; exact h.n, by rw [hin.run]; exact h.sel⟩

theorem Reading.local {s u v : State} (h : Reading s u) (hk : StepKept u v) (hw : Unwritten u v) (hg : Going u v)
    (he : v.eos = u.eos) (hn : v.run.n = u.run.n) (hs : v.run.sel = u.run.sel) : Reading s v :=
  ⟨h.kept.trans hk, h.unwritten.trans hw, h.going.trans hg, he.trans h.eos, hn.trans h.n, hs.trans h.sel⟩

/-- Returning a subtree writes tree cells, and either waits for a right subtree or ends the build (R191, R193). -/
theorem returnSubtree_cases (l : List BuildSlot) (x : BitVec 9) (s : State) :
    StepKept s (returnSubtree l x s) ∧ Unwritten s (returnSubtree l x s) ∧ Going s (returnSubtree l x s) ∧
      (returnSubtree l x s).eos = s.eos ∧ (returnSubtree l x s).run.n = s.run.n ∧
      (returnSubtree l x s).run.sel = s.run.sel ∧ (returnSubtree l x s).run.node = s.run.node ∧
      ((returnSubtree l x s).phase = s.phase ∨
        ((returnSubtree l x s).phase = .hufSym ∧ (returnSubtree l x s).run.stack = [])) := by
  induction l generalizing x s with
  | nil => exact ⟨by constructor <;> rfl, ⟨rfl, rfl, rfl, rfl⟩, ⟨rfl, rfl, rfl⟩, rfl, rfl, rfl, rfl, .inr ⟨rfl, rfl⟩⟩
  | cons b rest ih =>
    cases b with
    | left v => exact ⟨by constructor <;> rfl, ⟨rfl, rfl, rfl, rfl⟩, ⟨rfl, rfl, rfl⟩, rfl, rfl, rfl, rfl, .inl rfl⟩
    | right v =>
      obtain ⟨hk, hw, hg, he, hn, hs, hd, hp⟩ := ih v (setRhs v x s)
      exact ⟨StepKept.trans (u := returnSubtree rest v (setRhs v x s)) (t := setRhs v x s) (by constructor <;> rfl) hk,
        Unwritten.trans (t := setRhs v x s) ⟨rfl, rfl, rfl, rfl⟩ hw, Going.trans (t := setRhs v x s) ⟨rfl, rfl, rfl⟩ hg, he, hn, hs, hd, hp⟩

/-- The tree build ends in a fault or with the tree built (R191, R192). -/
theorem hufBuildLoop_end {s : State} (hp : s.phase = .hufBuild) (k : Nat) {u t : State} (hb : Reading s u)
    (hd : u.run.node = none) (hpu : u.phase = .hufBuild) (h : hufBuildLoop k u = .next t) : StepEnd s t ∧ StepKept s t := by
  have hexh : ∀ v, Reading s v → StepEnd s (exhaustAt .tree v) ∧ StepKept s (exhaustAt .tree v) := fun v hv =>
    ⟨.fault .truncTree v rfl hv.unwritten, hv.kept.trans (raise_kept _ v)⟩
  induction k generalizing u t with
  | zero => cases h; exact hexh u hb
  | succ k ih =>
    obtain ⟨w, hw, h⟩ := andThen_eq_next h
    rcases engineToken_cases .tree u with ⟨i, v, hv, hi, hin⟩ | ⟨v, hv, hin⟩
    · rw [hw] at hv
      have hbv := hb.read hin
      have hpv := hin.phase.trans hpu
      have hdv : v.run.node = none := by rw [hin.run]; exact hd
      cases i <;> simp only [Instr.place, Option.some.injEq, reduceCtorEq] at hi
      next =>
        obtain ⟨_, ⟨_, rfl⟩ | ⟨_, rfl⟩⟩ := execHufBranch_next hv.symm
        · cases h
          exact ⟨.fault _ v rfl hbv.unwritten, hbv.kept.trans (raise_kept _ v)⟩
        · rw [if_pos (show v.phase = .hufBuild from hpv)] at h
          refine ih (u := { v with
            nextNode := v.nextNode + 1, run := { v.run with stack := .left (v.nextNode.setWidth 9) :: v.run.stack } })
            ?_ hdv hpv h
          exact hbv.local (by constructor <;> rfl) ⟨rfl, rfl, rfl, rfl⟩ ⟨rfl, rfl, rfl⟩ rfl rfl rfl
      next x =>
        obtain ⟨_, rfl⟩ := execHufLeaf_next hv.symm
        obtain ⟨hk, hw', hg, he, hn, hs, hd', hph⟩ := returnSubtree_cases v.run.stack (x.setWidth 9) v
        have hbr := hbv.local hk hw' hg he hn hs
        split at h
        next hb' => exact ih hbr (hd'.trans hdv) hb' h
        next hb' =>
        injection h with h
        subst t
        obtain hph | ⟨hph, hst⟩ := hph
        · exact absurd (hph.trans hpv) hb'
        · refine ⟨.quiet hbr.unwritten hbr.going hbr.eos (.inr ⟨hp, hph⟩) ?_, hbr.kept⟩
          exact Run.eq_between hbr.n hbr.sel (hd'.trans hdv) hst
    · rw [hw] at hv
      cases hv
      cases h
      exact hexh v (hb.read hin)

/-- The build step (R191). -/
theorem hufBuildStep_end {s t : State} (he : s.eos = false) (hp : s.phase = .hufBuild) (hr : s.run = .between s.run.n)
    (h : hufBuildStep s = .next t) : StepEnd s t ∧ StepKept s t :=
  hufBuildLoop_end hp _ ⟨.refl s, .refl s, .refl s, he, rfl, by rw [hr]; rfl⟩ (by rw [hr]; rfl) hp h

/-- Moving to a child ends the symbol with a byte, or stays inside it (R195). -/
theorem moveTo_cases (c : BitVec 9) (s : State) :
    (moveTo c s = emit (leafByte c) { s with run := { s.run with node := none } }) ∨
      moveTo c s = { s with run := { s.run with node := some c } } := by
  unfold moveTo; split
  · exact .inl rfl
  · exact .inr rfl

/-- Inside a symbol, an emitted byte ends the step. -/
theorem Reading.emit_end {s u : State} (hu : Reading s u) (hp : s.phase = .hufSym) (hpu : u.phase = .hufSym)
    (hst : u.run.stack = []) (hd : u.run.node = none) (b : Byte) : StepEnd s (emit b u) ∧ StepKept s (emit b u) := by
  refine ⟨.emitted b ?_ ?_ (hu.going.trans ⟨rfl, rfl, rfl⟩) hu.eos (.inr (.inr ⟨hp, hpu⟩)) ?_, hu.kept.trans (emit_kept b u)⟩
  · rw [emit_mem_eq, hu.kept.params, hu.kept.outAddr, hu.n, hu.unwritten.mem]
  · show u.outTotal + 1 = _
    rw [hu.unwritten.outTotal]
  · exact Run.eq_between (congrArg (· + 1) hu.n) hu.sel hd hst

/-- The symbol walk ends in a fault, at the end of the session, or with one byte (R195, R196). -/
theorem hufSymLoop_end {s : State} (hp : s.phase = .hufSym) (k : Nat) {u t : State} (hu : Reading s u)
    (hst : u.run.stack = []) (hpu : u.phase = .hufSym) (h : hufSymLoop k u = .next t) : StepEnd s t ∧ StepKept s t := by
  have hexh : ∀ v, Reading s v → v.run.stack = [] → v.phase = .hufSym →
      StepEnd s (exhaustAt .code v) ∧ StepKept s (exhaustAt .code v) := fun v hv hs hpv =>
    ⟨exhaust_end hv.unwritten hv.going hv.kept.lcfg (hpv.trans hp.symm) hv.n hs, hv.kept.trans (exhaust_kept _ v)⟩
  induction k generalizing u t with
  | zero => cases h; exact hexh u hu hst hpu
  | succ k ih =>
    obtain ⟨w, hw, h⟩ := andThen_eq_next h
    rcases engineToken_cases .code u with ⟨i, v, hv, hi, hin⟩ | ⟨v, hv, hin⟩
    · rw [hw] at hv
      have huv := hu.read hin
      have hsv : v.run.stack = [] := by rw [hin.run]; exact hst
      have hpv := hin.phase.trans hpu
      obtain ⟨c, rfl⟩ : ∃ c, w = moveTo c v := by
        cases i <;> simp only [Instr.place, Option.some.injEq, reduceCtorEq] at hi
        · exact ⟨_, (execHufCode0_next hv.symm).2⟩
        · exact ⟨_, (execHufCode1_next hv.symm).2⟩
      have hloc (d : Option (BitVec 9)) : Reading s { v with run := { v.run with node := d } } :=
        huv.local (by constructor <;> rfl) ⟨rfl, rfl, rfl, rfl⟩ ⟨rfl, rfl, rfl⟩ rfl rfl rfl
      obtain hm | hm := moveTo_cases c v
      · rw [hm, if_pos (show (emit _ _).run.node = none from rfl)] at h
        cases h
        exact (hloc none).emit_end hp hpv hsv rfl _
      · rw [hm, if_neg (by simp)] at h
        exact ih (hloc (some c)) hsv hpv h
    · rw [hw] at hv
      cases hv
      have hnode : (exhaustAt .code v).run.node = none := by
        show (exhaust .truncSymbol v).run.node = none
        unfold exhaust; split <;> rfl
      rw [if_pos hnode] at h
      cases h
      exact hexh v (hu.read hin) (by rw [hin.run]; exact hst) (hin.phase.trans hpu)

/-- The symbol step (R195, R197). -/
theorem hufSymStep_end {s t : State} (he : s.eos = false) (hp : s.phase = .hufSym) (hr : s.run = .between s.run.n)
    (h : hufSymStep s = .next t) : StepEnd s t ∧ StepKept s t := by
  have hs : Reading s s := ⟨.refl s, .refl s, .refl s, he, rfl, by rw [hr]; rfl⟩
  unfold hufSymStep at h
  split at h
  · cases h
    exact hs.emit_end hp hp (by rw [hr]; rfl) (by rw [hr]; rfl) _
  · exact hufSymLoop_end hp _ hs (by rw [hr]; rfl) hp h

/-! ### The step PHASE selects -/

/-- `Step()` from a state between two steps (R134): it ends in one of the four ways of `StepEnd`, and keeps what no engine step
changes. -/
theorem engineStep_end {s t : State} (he : s.eos = false) (hr : s.run = .between s.run.n) (h : engineStep s = .next t) :
    StepEnd s t ∧ StepKept s t := by
  unfold engineStep at h
  split at h
  next => cases h
  next hp => exact lzTokenStep_end he hp hr h
  next hp => cases h; exact ⟨lzCopyStep_end he hp hr, lzCopyStep_kept s⟩
  next hp => exact hufBuildStep_end he hp hr h
  next hp => exact hufSymStep_end he hp hr h

end Sys2Proof.Machine
end

