-- ==== Sys2Proof/Laws/PerInstr.lean ====
section
/-! SUPPORT. Statements made once for each instruction: how many bits its encoding has (30_encoding.md R81, R97). -/

namespace Sys2Proof.Laws

/-- The number of bits of an instruction in a session's format: 32 for a command (R81), and for a token what R97 says. -/
def EncodedLength.bits (f : Format) : Instr → Nat
  | .init => 32
  | .cont => 32
  | .getbits _ => 32
  | .bitreset => 32
  | .close => 32
  | .lzCtrl _ => 8
  | .lzLit _ => 8
  | .lzRef _ _ => f.distW + f.lenW
  | .hufBranch => 1
  | .hufLeaf _ => 9
  | .hufCode0 => 1
  | .hufCode1 => 1

/-- The encoder writes exactly that many bits, in every format and for every operand. -/
def EncodedLength.Statement (i : Instr) : Prop := ∀ f : Format, (encode f i).length = EncodedLength.bits f i

theorem EncodedLength.init : EncodedLength.Statement .init := fun _ => rfl
theorem EncodedLength.cont : EncodedLength.Statement .cont := fun _ => rfl
theorem EncodedLength.getbits (n : Byte) : EncodedLength.Statement (.getbits n) := fun _ => rfl
theorem EncodedLength.bitreset : EncodedLength.Statement .bitreset := fun _ => rfl
theorem EncodedLength.close : EncodedLength.Statement .close := fun _ => rfl

theorem EncodedLength.lzCtrl (x : Byte) : EncodedLength.Statement (.lzCtrl x) := fun f => by
  simp [encode, Encoded.length, bits]

theorem EncodedLength.lzLit (b : Byte) : EncodedLength.Statement (.lzLit b) := fun f => by
  simp [encode, Encoded.length, bits]

theorem EncodedLength.lzRef (d l : BitVec 24) : EncodedLength.Statement (.lzRef d l) := fun f => by
  simp [encode, Encoded.length, bits]

theorem EncodedLength.hufBranch : EncodedLength.Statement .hufBranch := fun _ => rfl

theorem EncodedLength.hufLeaf (v : Byte) : EncodedLength.Statement (.hufLeaf v) := fun f => by
  simp [encode, Encoded.length, bits]

theorem EncodedLength.hufCode0 : EncodedLength.Statement .hufCode0 := fun _ => rfl
theorem EncodedLength.hufCode1 : EncodedLength.Statement .hufCode1 := fun _ => rfl

end Sys2Proof.Laws
end

