-- ==== Sys2Proof/Laws/Reader.lean ====
section
/-! SUPPORT. The bit readers as readers of a bit stream: what buffering a byte, the fetch loop and taking n bits each do to
the bits still to be delivered (40_bitreader.md R110, R113 to R115, R119). -/

namespace Sys2Proof

theorem lowBits_add (a b v : Nat) : lowBits (a + b) v = lowBits a v ++ lowBits b (v >>> a) := by
  apply List.ext_getElem
  · simp
  · intro i h1 h2
    rw [getElem_lowBits, List.getElem_append]
    split
    · rw [getElem_lowBits]
    · rw [getElem_lowBits, Nat.testBit_shiftRight]
      congr 1; simp at *; omega

theorem lowBits_congr {n v w : Nat} (h : ∀ i, i < n → v.testBit i = w.testBit i) : lowBits n v = lowBits n w := by
  simp only [lowBits]
  apply List.map_congr_left
  intro i hi
  exact h i (by simpa using hi)

/-- The bits delivered first are the low ones LSB-first, the high ones MSB-first. -/
theorem fieldBits_add (lsb : Bool) (a b v : Nat) : fieldBits lsb (a + b) v =
    if lsb then fieldBits lsb a v ++ fieldBits lsb b (v >>> a) else fieldBits lsb b (v >>> a) ++ fieldBits lsb a v := by
  cases lsb <;> simp [fieldBits, lowBits_add]

theorem fieldBits_congr {lsb : Bool} {n v w : Nat} (h : ∀ i, i < n → v.testBit i = w.testBit i) :
    fieldBits lsb n v = fieldBits lsb n w := by
  simp only [fieldBits, lowBits_congr h]

namespace Machine

/-- The largest count a reader has inside a request (R27): 31 MSB-first, 39 LSB-first. -/
def maxCount (lsb : Bool) : Nat := if lsb then 39 else 31

/-- What holds of a reader at every point of a request. -/
structure ReaderIn (lsb : Bool) (p : InPort) (r : BitReader) : Prop where
  limit : p.lim ≤ p.src.length
  position : p.pos ≤ p.lim
  count : r.cnt.toNat ≤ maxCount lsb
  clean : if lsb then r.acc.toNat < 2 ^ r.cnt.toNat else r.acc.toNat < 2 ^ 32

theorem ReaderOk.inside {lsb : Bool} {p : InPort} {r : BitReader} (h : ReaderOk lsb p r) : ReaderIn lsb p r :=
  ⟨h.limit, h.position, by have := h.count; unfold maxCount; split <;> simp_all <;> omega, h.clean⟩

theorem readerOk_empty (lsb : Bool) (p : InPort) (hl : p.lim ≤ p.src.length) (hp : p.pos ≤ p.lim) :
    ReaderOk lsb p .empty :=
  ⟨hl, hp, by simp [BitReader.empty], by cases lsb <;> simp [BitReader.empty]⟩

/-! ### Buffering a byte -/

theorem push_cnt {lsb : Bool} {b : Byte} {r : BitReader} (h : r.cnt.toNat + 8 < 64) :
    (r.push lsb b).cnt.toNat = r.cnt.toNat + 8 := by
  have : (r.push lsb b).cnt = r.cnt + 8 := by cases lsb <;> rfl
  rw [this, BitVec.toNat_add]; simp; omega

/-- A buffered byte's bits follow the bits buffered before it, in either variant (R113, R114). -/
theorem push_bits {lsb : Bool} {b : Byte} {r : BitReader} (hc : r.cnt.toNat + 8 ≤ if lsb then 40 else 32)
    (hcl : if lsb then r.acc.toNat < 2 ^ r.cnt.toNat else r.acc.toNat < 2 ^ 32) :
    fieldBits lsb (r.push lsb b).cnt.toNat (r.push lsb b).acc.toNat =
      fieldBits lsb r.cnt.toNat r.acc.toNat ++ fieldBits lsb 8 b.toNat := by
  have h64 : r.cnt.toNat + 8 < 64 := by cases lsb <;> simp_all <;> omega
  rw [push_cnt h64]
  cases lsb
  · simp only [Bool.false_eq_true, if_false] at hc hcl
    rw [Nat.add_comm r.cnt.toNat 8, fieldBits_add]
    simp only [Bool.false_eq_true, if_false]
    congr 1
    · apply fieldBits_congr
      intro i hi
      simp only [BitReader.push, Bool.false_eq_true, if_false, Nat.testBit_shiftRight, BitVec.testBit_toNat]
      simp only [BitVec.getLsbD_setWidth, BitVec.getLsbD_or, BitVec.getLsbD_shiftLeft]
      have : b.getLsbD (8 + i) = false := BitVec.getLsbD_of_ge _ _ (by omega)
      simp [show 8 + i < 40 by omega, show 8 + i < 32 by omega]
    · apply fieldBits_congr
      intro i hi
      simp only [BitReader.push, Bool.false_eq_true, if_false, BitVec.testBit_toNat]
      simp only [BitVec.getLsbD_setWidth, BitVec.getLsbD_or, BitVec.getLsbD_shiftLeft]
      simp [hi, show i < 40 by omega, show i < 32 by omega]
  · simp only [if_true] at hc hcl
    rw [fieldBits_add]
    simp only [if_true]
    congr 1
    · apply fieldBits_congr
      intro i hi
      simp only [BitReader.push, if_true, BitVec.testBit_toNat]
      simp [hi]
    · apply fieldBits_congr
      intro i hi
      simp only [BitReader.push, if_true, Nat.testBit_shiftRight, BitVec.testBit_toNat]
      simp only [BitVec.getLsbD_setWidth, BitVec.getLsbD_or, BitVec.getLsbD_shiftLeft]
      have : r.acc.getLsbD (r.cnt.toNat + i) = false := by
        rw [← BitVec.testBit_toNat]
        exact Nat.testBit_lt_two_pow (lt_of_lt_of_le hcl (Nat.pow_le_pow_right (by omega) (by omega)))
      rw [this, Bool.false_or]
      simp [show r.cnt.toNat + i < 40 by omega, show i < 40 by omega]

theorem push_clean {lsb : Bool} {b : Byte} {r : BitReader} (hc : r.cnt.toNat + 8 ≤ if lsb then 40 else 32)
    (hcl : if lsb then r.acc.toNat < 2 ^ r.cnt.toNat else r.acc.toNat < 2 ^ 32) :
    if lsb then (r.push lsb b).acc.toNat < 2 ^ (r.push lsb b).cnt.toNat else (r.push lsb b).acc.toNat < 2 ^ 32 := by
  have h64 : r.cnt.toNat + 8 < 64 := by cases lsb <;> simp_all <;> omega
  rw [push_cnt h64]
  cases lsb
  · simp only [Bool.false_eq_true, if_false, BitReader.push]
    rw [BitVec.toNat_setWidth_of_le (by omega)]
    exact BitVec.isLt _
  · simp only [if_true, BitReader.push] at hc hcl ⊢
    rw [BitVec.toNat_or]
    apply Nat.or_lt_two_pow
    · exact lt_of_lt_of_le hcl (Nat.pow_le_pow_right (by omega) (by omega))
    · rw [BitVec.toNat_shiftLeft, BitVec.toNat_setWidth_of_le (by omega), Nat.shiftLeft_eq]
      refine lt_of_le_of_lt (Nat.mod_le _ _) ?_
      rw [Nat.pow_add, Nat.mul_comm]
      exact Nat.mul_lt_mul_of_pos_left b.isLt (by positivity)

/-! ### The fetch loop (R113 to R115) -/

/-- Everything the loop of a request can do. -/
theorem fillBits_spec {lsb : Bool} {n k : Nat} {p : InPort} {r : BitReader} (h : ReaderIn lsb p r)
    (hn : n ≤ maxRequest lsb) (hk : n ≤ r.cnt.toNat + 8 * k) :
    ∃ ok p' r', fillBits lsb n k p r = (ok, p', r') ∧ ReaderIn lsb p' r' ∧ p'.src = p.src ∧ p'.lim = p.lim ∧
      pendingBits lsb p' r' = pendingBits lsb p r ∧
      (ok = true → n ≤ r'.cnt.toNat) ∧ (ok = false → r'.cnt.toNat < n ∧ p'.unread = []) ∧
      ((p' = p ∧ r' = r) ∨ (p.pos < p'.pos ∧ r'.cnt.toNat ≤ n + 7)) := by
  induction k generalizing p r with
  | zero => exact ⟨true, p, r, by simp [fillBits]; omega, h, rfl, rfl, rfl, fun _ => by omega, by simp, .inl ⟨rfl, rfl⟩⟩
  | succ k ih =>
    simp only [fillBits]
    by_cases hc : r.cnt.toNat < n
    · rw [if_pos hc]
      have hmax : r.cnt.toNat + 8 ≤ if lsb then 40 else 32 := by
        unfold maxRequest at hn; cases lsb <;> simp_all <;> omega
      have h64 : r.cnt.toNat + 8 < 64 := by cases lsb <;> simp_all <;> omega
      cases hb : p.inByte with
      | none =>
        exact ⟨false, p, r, rfl, h, rfl, rfl, rfl, by simp, fun _ => ⟨hc, (InPort.inByte_none h.limit).1 hb⟩, .inl ⟨rfl, rfl⟩⟩
      | some x =>
        obtain ⟨b, p1⟩ := x
        obtain ⟨hu, hp1, hlt⟩ := InPort.inByte_some h.limit hb
        have hin : ReaderIn lsb p1 (r.push lsb b) := by
          refine ⟨?_, ?_, ?_, push_clean hmax h.clean⟩
          · rw [hp1]; exact h.limit
          · rw [hp1]; exact hlt
          · rw [push_cnt h64]; unfold maxCount maxRequest at *; cases lsb <;> simp_all <;> omega
        obtain ⟨ok, p', r', he, hi, hs, hl, hpd, h1, h2, h3⟩ := ih hin (by rw [push_cnt h64]; omega)
        refine ⟨ok, p', r', he, hi, ?_, ?_, ?_, h1, h2, .inr ?_⟩
        · rw [hs, hp1]
        · rw [hl, hp1]
        · rw [hpd, pendingBits, pendingBits, push_bits hmax h.clean, hu, bitStream_cons, List.append_assoc]
        · rcases h3 with ⟨rfl, rfl⟩ | h3
          · rw [push_cnt h64, hp1]; exact ⟨Nat.lt_succ_self _, by omega⟩
          · rw [hp1] at h3; exact ⟨Nat.lt_of_succ_lt h3.1, h3.2⟩
    · rw [if_neg hc]
      exact ⟨true, p, r, rfl, h, rfl, rfl, rfl, fun _ => by omega, by simp, .inl ⟨rfl, rfl⟩⟩

/-! ### Taking n bits -/

theorem maskWord_and {n : Nat} (hn : n ≤ 32) (x : Word) : (x &&& maskWord n).toNat = x.toNat % 2 ^ n := by
  have hp : 2 ^ n ≤ 2 ^ 32 := Nat.pow_le_pow_right (by omega) hn
  have hpos : 0 < 2 ^ n := by positivity
  rw [BitVec.toNat_and, maskWord, BitVec.toNat_ofNat, Nat.mod_eq_of_lt (by omega), Nat.and_two_pow_sub_one_eq_mod]

theorem take_cnt {lsb : Bool} {n : Nat} {r : BitReader} (hn : n ≤ r.cnt.toNat) :
    (r.take lsb n).2.cnt.toNat = r.cnt.toNat - n := by
  have hlt := r.cnt.isLt
  have : (r.take lsb n).2.cnt = r.cnt - BitVec.ofNat 6 n := by unfold BitReader.take; cases lsb <;> rfl
  rw [this, BitVec.toNat_sub, BitVec.toNat_ofNat]
  omega

/-- The value taken is that of the first n buffered bits. -/
theorem take_value {lsb : Bool} {n : Nat} {r : BitReader} (hn : n ≤ r.cnt.toNat) (h32 : n ≤ 32) :
    (r.take lsb n).1.toNat = fieldValue lsb ((fieldBits lsb r.cnt.toNat r.acc.toNat).take n) := by
  have hpow : ∀ v : Nat, v % 2 ^ 32 % 2 ^ n = v % 2 ^ n := fun v =>
    Nat.mod_mod_of_dvd v (pow_dvd_pow 2 h32)
  cases lsb
  · have e : r.cnt.toNat = (r.cnt.toNat - n) + n := by omega
    rw [e, fieldBits_add]
    simp only [Bool.false_eq_true, if_false]
    rw [List.take_left' (by simp), fieldValue_fieldBits]
    have hc : (r.cnt - BitVec.ofNat 6 n).toNat = r.cnt.toNat - n := by
      have := take_cnt (lsb := false) hn
      simpa [BitReader.take] using this
    simp only [BitReader.take, Bool.false_eq_true, if_false, maskWord_and h32, hc]
    rw [BitVec.toNat_setWidth, BitVec.toNat_ushiftRight, hpow]
  · have e : r.cnt.toNat = n + (r.cnt.toNat - n) := by omega
    rw [e, fieldBits_add]
    simp only [if_true]
    rw [List.take_left' (by simp), fieldValue_fieldBits]
    simp only [BitReader.take, if_true, maskWord_and h32]
    rw [BitVec.toNat_setWidth, hpow]

/-- The bits left are the buffered bits after the first n. -/
theorem take_bits {lsb : Bool} {n : Nat} {r : BitReader} (hn : n ≤ r.cnt.toNat) :
    fieldBits lsb (r.take lsb n).2.cnt.toNat (r.take lsb n).2.acc.toNat =
      (fieldBits lsb r.cnt.toNat r.acc.toNat).drop n := by
  rw [take_cnt hn]
  cases lsb
  · have e : r.cnt.toNat = (r.cnt.toNat - n) + n := by omega
    conv_rhs => rw [e, fieldBits_add]
    simp only [Bool.false_eq_true, if_false]
    rw [List.drop_left' (by simp)]
    rfl
  · have e : r.cnt.toNat = n + (r.cnt.toNat - n) := by omega
    conv_rhs => rw [e, fieldBits_add]
    simp only [if_true]
    rw [List.drop_left' (by simp)]
    simp only [BitReader.take, if_true, BitVec.toNat_ushiftRight]

theorem take_clean {lsb : Bool} {n : Nat} {r : BitReader} (hn : n ≤ r.cnt.toNat)
    (hcl : if lsb then r.acc.toNat < 2 ^ r.cnt.toNat else r.acc.toNat < 2 ^ 32) :
    if lsb then (r.take lsb n).2.acc.toNat < 2 ^ (r.take lsb n).2.cnt.toNat else (r.take lsb n).2.acc.toNat < 2 ^ 32 := by
  rw [take_cnt hn]
  cases lsb
  · exact hcl
  · simp only [if_true, BitReader.take, BitVec.toNat_ushiftRight] at hcl ⊢
    rw [Nat.shiftRight_eq_div_pow, Nat.div_lt_iff_lt_mul (by positivity), ← Nat.pow_add]
    rwa [Nat.sub_add_cancel hn]

end Machine

end Sys2Proof
end

