-- ==== Sys2Proof/Tests/Slice0.lean ====
section
/-! SUPPORT. Tests: the smoke test of WellFormed, words and tokens written out from the spec's encodings, single steps with
results from the spec's examples (95_test_vectors.md), and for each obligation with hypotheses a state that meets them. -/

namespace Sys2Proof.Tests

open Sys2Proof.Machine

/-! ### Helpers -/

/-- The outcome is a next state with a property. -/
def nextIs (o : Res) (p : State → Bool) : Bool :=
  match o with
  | .next s => p s
  | .fault _ => false
  | .refused _ => false

theorem exists_of_nextIs {o : Res} {p : State → Bool} (h : nextIs o p = true) : ∃ t, o = .next t ∧ p t = true := by
  cases o with
  | next s => exact ⟨s, rfl, h⟩
  | fault r => cases h
  | refused r => cases h

/-- The listed bytes of the output memory, as text would show them. -/
def outBytes (s : State) : List Nat := s.mem.map fun c => c.2.toNat

/-- Configuration L16 of 95_test_vectors.md, with a `MODE` and an `UNPACKED_SIZE`. -/
def l16 (mode unpacked : Word) : ConfigRegs := ⟨mode, 16, 0x20, 0, 0x404, 0, unpacked⟩

/-- An LZSS session of vector W2 right after INIT: L16, bounded at 4 bytes, port 0 `01 58 13`. -/
def lz : State :=
  { State.reset with
    sess := .active, cfg := l16 0x40 4, lcfg := l16 0x40 4, phase := .lzToken, win := .filled 0x20, count := 64
    bound0 := [0x01, 0x58, 0x13], port0 := ⟨[0x01, 0x58, 0x13], 0, 3⟩ }

/-- The same session, where the next item is a literal. -/
def lzLitDue : State := { lz with run := { Run.rest with sel := some .literal } }

/-- The session of R164's example: the cursor at 1, where the next item is a back-reference. -/
def lzRefDue : State := { lz with cur := 1, win := lz.win.set 0 0x58, run := { Run.rest with sel := some .reference } }

/-- The copy of R167's example. -/
def lzCopying : State := { lz with cur := 1, win := lz.win.set 0 0x58, copySrc := 0, copyLeft := 3, phase := .lzCopy }

/-- A HUFFMAN session of vector W1 right after INIT: bounded at 3 bytes, port 0 `90 48 48`. -/
def huf : State :=
  { State.reset with
    sess := .active, cfg := ⟨0x41, 0, 0, 0, 0, 0, 3⟩, lcfg := ⟨0x41, 0, 0, 0, 0, 0, 3⟩, phase := .hufBuild, count := 64
    bound0 := [0x90, 0x48, 0x48], port0 := ⟨[0x90, 0x48, 0x48], 0, 3⟩ }

/-- The tree of R193's example in place, five bits of the stream left: `0 1 0` and two pad bits. -/
def hufSym : State :=
  { huf with
    phase := .hufSym, lhs := huf.lhs.set 0 0x41, rhs := huf.rhs.set 0 0x42, root := 256, nextNode := 257
    port0 := { huf.port0 with pos := 3 }, br0 := ⟨0x48, 5⟩ }

/-- An unbounded session whose tree is the leaf 0x41 (R197). -/
def hufLeafRoot : State :=
  { huf with lcfg := ⟨0x01, 0, 0, 0, 0, 0, 0⟩, phase := .hufSym, root := 0x41, count := 3 }

/-- A RAW session on `A5 3C`, MSB-first. -/
def raw : State :=
  { State.reset with
    sess := .active, cfg := ⟨2, 0, 0, 0, 0, 0, 0⟩, lcfg := ⟨2, 0, 0, 0, 0, 0, 0⟩, bound0 := [0xA5, 0x3C]
    port0 := ⟨[0xA5, 0x3C], 0, 2⟩ }

/-- A RAW session on `12 34 56 78`, LSB-first. -/
def rawLsb : State :=
  { raw with lcfg := ⟨6, 0, 0, 0, 0, 0, 0⟩, port0 := ⟨[0x12, 0x34, 0x56, 0x78], 0, 4⟩ }

/-- A faulted block: what INIT with the reset configuration leaves (R251). -/
def faulted : State := { State.reset with sess := .faulted, cause := 0x0403 }

/-- A block whose host writes a word to `CMD` next. -/
def writing (s : State) (w : Word) : State := { s with ops := [.write s.params.regBase .word w] }

/-! ### WellFormed: an ill-formed term for each check (R92) -/

theorem test_wf_dist_width : (Instr.lzRef 0 0).wellFormed ⟨false, 25, 4⟩ = false := by decide
theorem test_wf_len_width : (Instr.lzRef 0 0).wellFormed ⟨false, 12, 25⟩ = false := by decide
theorem test_wf_dist_fits : (Instr.lzRef 0x1000 0).wellFormed ⟨false, 12, 4⟩ = false := by decide
theorem test_wf_len_fits : (Instr.lzRef 0 16).wellFormed ⟨false, 12, 4⟩ = false := by decide
theorem test_wf_ok : (Instr.lzRef 0xFFF 15).wellFormed ⟨false, 12, 4⟩ = true := by decide

/-! ### Decoding: words and tokens written out from R81 to R97 -/

theorem test_decode_init : decodeTableWord 32 0b00000000000000000000000000000001 = some .init := by decide
theorem test_decode_continue : decodeTableWord 32 0b00000000000000000000000000000010 = some .cont := by decide
theorem test_decode_getbits : decodeTableWord 32 0b00000000000000000001100000000011 = some (.getbits 24) := by decide
theorem test_decode_bitreset : decodeTableWord 32 0b00000000000000000000000000000100 = some .bitreset := by decide
theorem test_decode_close : decodeTableWord 32 0b00000000000000000000000000000101 = some .close := by decide
/-- The illegal words of vector S2: each of R88's three cases. -/
theorem test_decode_illegal :
    [0, 6, 0xFF, 0x101, 0x102, 0x104, 0x10003, 0x80000001].map (decodeTableWord 32) = List.replicate 8 none := by decide

/-- R90, MSB-first: the control byte 0x01. -/
theorem test_decode_lz_ctrl :
    decodeToken ⟨false, 4, 4⟩ .ctrl [false, false, false, false, false, false, false, true] = .ok (.lzCtrl 0x01, []) := by decide
/-- R91, LSB-first: the literal 0x58 = 01011000, bit 0 first. -/
theorem test_decode_lz_lit :
    decodeToken ⟨true, 4, 4⟩ .literal [false, false, false, true, true, false, true, false, true] =
      .ok (.lzLit 0x58, [true]) := by decide
/-- R92, MSB-first with 4-bit fields: vector W2's byte 0x13 is D_raw 1, L_raw 3. -/
theorem test_decode_lz_ref :
    decodeToken ⟨false, 4, 4⟩ .reference [false, false, false, true, false, false, true, true] = .ok (.lzRef 1 3, []) := by decide
/-- R93's example, LSB-first. -/
theorem test_decode_lz_ref_lsb :
    decodeToken ⟨true, 12, 4⟩ .reference (bitStream true [0xAB, 0xCD]) = .ok (.lzRef 0xDAB 0xC, []) := by decide
/-- R95: T1. -/
theorem test_decode_huf_branch : decodeToken ⟨false, 0, 0⟩ .tree [true, false] = .ok (.hufBranch, [false]) := by decide
/-- R194's example: `0 01000001` is the leaf 0x41. -/
theorem test_decode_huf_leaf :
    decodeToken ⟨false, 0, 0⟩ .tree [false, false, true, false, false, false, false, false, true] =
      .ok (.hufLeaf 0x41, []) := by decide
/-- R96. -/
theorem test_decode_huf_code :
    decodeToken ⟨false, 0, 0⟩ .code [false, true] = .ok (.hufCode0, [true]) ∧
      decodeToken ⟨false, 0, 0⟩ .code [true] = .ok (.hufCode1, []) := by decide

/-! ### Single steps, with the spec's own results -/

/-- R251: INIT with the reset configuration. -/
theorem test_step_init : nextIs (step (State.reset.withFetchWord 32 0x1)) fun t => statusWord t == 4 && t.cause == 0x403 := by decide
/-- R251: CONTINUE before any INIT. -/
theorem test_step_continue :
    nextIs (step (State.reset.withFetchWord 32 0x2)) fun t => t.sess == .faulted && t.cause == 0x203 := by decide
/-- Vector S3: GETBITS with no session. -/
theorem test_step_getbits :
    nextIs (step (State.reset.withFetchWord 32 0x803)) fun t => t.sess == .faulted && t.cause == 0x203 := by decide
theorem test_step_bitreset :
    nextIs (step (State.reset.withFetchWord 32 0x4)) fun t => t.sess == .faulted && t.cause == 0x203 := by decide
/-- R141: CLOSE in IDLE only releases the sources, which are already empty. -/
theorem test_step_close :
    nextIs (step (State.reset.withFetchWord 32 0x5)) fun t => t.sess == .idle && t.cause == 0 && t.ops == [] := by decide

/-- R131's example. -/
theorem test_init_example :
    nextIs (exec .init { State.reset with cfg := ⟨0, 16, 0x20, 18, 0, 0, 0⟩ }) fun t =>
      t.win.get 0 == 0x20 && t.win.get 15 == 0x20 && t.cur == 2 && t.phase == .lzToken && statusWord t == 1 := by decide
/-- Vector W2: INIT opens the session `lz`. -/
theorem test_init_w2 :
    nextIs (exec .init { State.reset with cfg := l16 0x40 4, bound0 := [0x01, 0x58, 0x13] }) fun t =>
      t.sess == lz.sess && t.lcfg == lz.lcfg && t.phase == lz.phase && t.win == lz.win && t.port0 == lz.port0 := by decide

/-- Vector W2. -/
theorem test_continue_w2 :
    nextIs (exec .cont lz) fun t =>
      outBytes t == [0x58, 0x58, 0x58, 0x58] && t.result == 4 && statusWord t == 3 && t.port0.pos == 3 && t.cur == 4 &&
        t.ctrlLeft == 6 := by decide
/-- Vector W1. -/
theorem test_continue_w1 :
    nextIs (exec .cont huf) fun t =>
      outBytes t == [0x41, 0x42, 0x41] && t.result == 3 && statusWord t == 0x13 && t.nextNode == 257 && t.br0.cnt == 2 := by decide

/-- Vector LZ19: with PLIM and `PACKED_SIZE = 3`, port 0 delivers 3 of its 5 bytes; without PLIM it delivers all of them. -/
theorem test_portLimit_lz19 :
    portLimit ⟨0x80, 16, 0x20, 0, 0x404, 3, 0⟩ [0x01, 0x58, 0x13, 0xFF, 0xFF] = 3 ∧
      portLimit ⟨0x00, 16, 0x20, 0, 0x404, 3, 0⟩ [0x01, 0x58, 0x13, 0xFF, 0xFF] = 5 := by decide

/-- R116's example. -/
theorem test_getbits_example :
    nextIs (exec (.getbits 3) raw) fun t => t.result == 5 && t.nodata == false && t.br0.cnt == 5 := by decide
/-- Vector BR4: the largest LSB-first request. -/
theorem test_getbits_lsb : nextIs (exec (.getbits 32) rawLsb) fun t => t.result == 0x78563412 && t.nodata == false := by decide
/-- R118's example: after `getbits 3`, `bitreset`, the next byte is 0x3C. -/
theorem test_bitreset_example :
    nextIs (exec .bitreset { raw with port0 := { raw.port0 with pos := 1 }, br0 := ⟨0xA5, 5⟩ }) fun t =>
      (getBits .p0 8 t).1 == some 0x3C := by decide
/-- R141's example. -/
theorem test_close_w2 : nextIs (exec .close { lz with eos := true, result := 4 }) fun t => statusWord t == 2 && t.result == 4 := by decide

/-- R162's example: 0x01 gives a literal first, then a back-reference. -/
theorem test_lz_ctrl :
    nextIs (exec (.lzCtrl 0x01) lz) fun t =>
      t.run.sel == some .literal && t.ctrlLeft == 7 && (takeCtrlBit t).run.sel == some .reference := by decide
/-- R163's example. -/
theorem test_lz_lit :
    nextIs (exec (.lzLit 0x58) lzLitDue) fun t => t.win.get 0 == 0x58 && t.cur == 1 && outBytes t == [0x58] := by decide
/-- R164's example. -/
theorem test_lz_ref :
    nextIs (exec (.lzRef 1 3) lzRefDue) fun t => t.copySrc == 0 && t.copyLeft == 3 && t.phase == .lzCopy := by decide
/-- R165: a pair that fails both checks reports the distance. -/
theorem test_lz_ref_bad : nextIs (exec (.lzRef 0 0) lzRefDue) fun t => t.cause == 0x202 := by decide
/-- R167's example: three copy steps. -/
theorem test_copy_steps :
    let t := lzCopyStep (lzCopyStep (lzCopyStep lzCopying))
    outBytes t = [0x58, 0x58, 0x58] ∧ t.cur = 4 ∧ t.phase = .lzToken ∧ t.win.get 3 = 0x58 := by decide
/-- R193's example: node 256 comes first. -/
theorem test_huf_branch :
    nextIs (exec .hufBranch huf) fun t => t.nextNode == 257 && t.run.stack == [.left 256] := by decide
/-- R193's example: 0x41 is the left child of node 256, and its right subtree comes next. -/
theorem test_huf_leaf :
    nextIs (exec (.hufLeaf 0x41) { huf with nextNode := 257, run := { Run.rest with stack := [.left 256] } }) fun t =>
      lhsAt t 256 == 0x41 && t.run.stack == [.right 256] := by decide
theorem test_huf_code0 : nextIs (exec .hufCode0 hufSym) fun t => outBytes t == [0x41] := by decide
/-- R195's example: the bit 1 emits "B". -/
theorem test_huf_code1 : nextIs (exec .hufCode1 hufSym) fun t => outBytes t == [0x42] && t.outTotal == 1 := by decide

/-! ### Witnesses: concrete states that meet the hypotheses of each obligation -/

theorem readerOk_lz : ReaderOk lz.lcfg.lsb lz.port0 lz.br0 ∧ ReaderOk lz.lcfg.lsb lz.port1 lz.br1 :=
  ⟨readerOk_empty _ _ (by decide) (by decide), readerOk_empty _ _ (by decide) (by decide)⟩

theorem readerOk_huf : ReaderOk huf.lcfg.lsb huf.port0 huf.br0 ∧ ReaderOk huf.lcfg.lsb huf.port1 huf.br1 :=
  ⟨readerOk_empty _ _ (by decide) (by decide), readerOk_empty _ _ (by decide) (by decide)⟩

theorem readerOk_raw : ReaderOk raw.lcfg.lsb raw.port0 raw.br0 ∧ ReaderOk raw.lcfg.lsb raw.port1 raw.br1 :=
  ⟨readerOk_empty _ _ (by decide) (by decide), readerOk_empty _ _ (by decide) (by decide)⟩

/-- The largest buffers R119 allows, in either variant. -/
theorem readerOk_full : ReaderOk false ⟨[0xA5], 0, 1⟩ ⟨0xFFFFFFFF, 23⟩ ∧ ReaderOk true ⟨[0xA5], 0, 1⟩ ⟨0x7FFFFFFF, 31⟩ :=
  ⟨⟨by decide, by decide, by decide, by decide⟩, ⟨by decide, by decide, by decide, by decide⟩⟩

/-- The invariant of an open LZSS session. -/
theorem inv_lz : Inv lz where
  params := by decide
  memory := by decide
  addresses := by intro c hc; cases hc
  window := by decide
  registers := by decide
  latched := by decide
  outAddr := by decide
  atRest := by decide
  active := fun _ => {
    readers := readerOk_lz
    lzss := fun _ => {
      phase := by decide
      frame := ⟨4, by decide, by decide⟩
      widths := by decide
      cursor := by decide
      source := by decide
      controls := by decide
      copying := by decide
      cells := by intro c hc; cases hc }
    huffman := fun h => absurd h (by decide)
    raw := by decide
    known := by decide
    target := by decide
    ended := by decide }
  closed := by decide
  faulted := by intro h; cases h
  noFault := by decide

/-- The invariant of an open HUFFMAN session. -/
theorem inv_huf : Inv huf where
  params := by decide
  memory := by decide
  addresses := by intro c hc; cases hc
  window := by decide
  registers := by decide
  latched := by decide
  outAddr := by decide
  atRest := by decide
  active := fun _ => {
    readers := readerOk_huf
    lzss := fun h => absurd h (by decide)
    huffman := fun _ => ⟨by decide, by decide, by decide⟩
    raw := by decide
    known := by decide
    target := by decide
    ended := by decide }
  closed := by decide
  faulted := by intro h; cases h
  noFault := by decide

/-- The invariant of an open RAW session. -/
theorem inv_raw : Inv raw where
  params := by decide
  memory := by decide
  addresses := by intro c hc; cases hc
  window := by decide
  registers := by decide
  latched := by decide
  outAddr := by decide
  atRest := by decide
  active := fun _ => {
    readers := readerOk_raw
    lzss := fun h => absurd h (by decide)
    huffman := fun h => absurd h (by decide)
    raw := by decide
    known := by decide
    target := by decide
    ended := by decide }
  closed := by decide
  faulted := by intro h; cases h
  noFault := by decide

/-- The invariant of a faulted block. -/
theorem inv_faulted : Inv faulted where
  params := by decide
  memory := by decide
  addresses := by intro c hc; cases hc
  window := by decide
  registers := by decide
  latched := by decide
  outAddr := by decide
  atRest := by decide
  active := by intro h; cases h
  closed := by decide
  faulted := fun _ => ⟨by decide, .contractBadConfig, by decide⟩
  noFault := by decide

/-! #### Encoding and steps -/

theorem witness_CommandDecodeEncode :
    encode ⟨false, 0, 0⟩ (.getbits 255) = .word 0xFF03 ∧ decodeWord 0xFF03 = .ok (.getbits 255) := by decide

theorem witness_TokenDecodeEncode :
    (Instr.lzRef 0xFFFFFF 0xFFFFFF).wellFormed ⟨true, 24, 24⟩ = true ∧ (Instr.lzRef 0 0).wellFormed ⟨false, 0, 0⟩ = true ∧
      (Instr.lzRef 0 0).place = some .reference ∧
      encode ⟨true, 24, 24⟩ (.lzRef 0xFFFFFF 0xFFFFFF) = .bits (List.replicate 48 true) ∧
      encode ⟨false, 0, 0⟩ (.lzRef 0 0) = .bits [] := by decide

theorem witness_TokenEncodeDecode :
    decodeToken ⟨true, 24, 24⟩ .reference (List.replicate 49 true) = .ok (.lzRef 0xFFFFFF 0xFFFFFF, [true]) ∧
      decodeToken ⟨false, 0, 0⟩ .reference [] = .ok (.lzRef 0 0, []) := by decide

theorem witness_StepRunsDecodedCommand :
    (writing lz 2).ops = [.write (writing lz 2).params.regBase .word 2] ∧ decodeWord 2 = .ok .cont := by decide

theorem witness_EngineRunsDecodedToken :
    (∃ t, fetchToken .ctrl lz = .token (.lzCtrl 0x01) t) ∧ (∃ t, fetchToken .literal lz = .token (.lzLit 0x01) t) ∧
      (∃ t, fetchToken .reference lz = .token (.lzRef 0 1) t) ∧ (∃ t, fetchToken .tree huf = .token .hufBranch t) ∧
      ∃ t, fetchToken .code hufSym = .token .hufCode0 t :=
  ⟨⟨_, rfl⟩, ⟨_, rfl⟩, ⟨_, rfl⟩, ⟨_, rfl⟩, ⟨_, rfl⟩⟩

theorem witness_IllegalWords :
    (0x10003 : Word).extractLsb' 16 16 ≠ 0 ∧ ((0x0 : Word).extractLsb' 0 8).toNat = 0 ∧
      5 < ((0x6 : Word).extractLsb' 0 8).toNat ∧ ((0x101 : Word).extractLsb' 0 8 ≠ 3 ∧ (0x101 : Word).extractLsb' 8 8 ≠ 0) ∧
      (writing lz 0x101).ops = [.write (writing lz 0x101).params.regBase .word 0x101] ∧
      (writing faulted 6).sess = .faulted := by decide

theorem witness_TokensRunOnlyInPlace :
    awaits lz = some .ctrl ∧ awaits lzLitDue = some .literal ∧ awaits lzRefDue = some .reference ∧ awaits huf = some .tree ∧
      awaits hufSym = some .code ∧ awaits raw ≠ some .ctrl := by decide

/-! #### Readers and the RAW commands -/

theorem witness_GetBitsReturnsNextBits :
    (24 ≤ maxRequest false ∧ 32 ≤ maxRequest true) ∧
      24 ≤ (pendingBits false ⟨[0xA5], 0, 1⟩ ⟨0xFFFFFFFF, 23⟩).length ∧
      ¬24 ≤ (pendingBits false ⟨[], 0, 0⟩ ⟨0xFFFFFFFF, 23⟩).length ∧
      32 ≤ (pendingBits true ⟨[0xA5], 0, 1⟩ ⟨0x7FFFFFFF, 31⟩).length ∧
      ¬32 ≤ (pendingBits true ⟨[], 0, 0⟩ ⟨0x7FFFFFFF, 31⟩).length := by decide

theorem witness_BufferedBitsAfterRequest :
    (readBits false 24 ⟨[0xA5], 0, 1⟩ ⟨0xFFFFFFFF, 23⟩).1.isSome = true ∧
      (readBits false 24 ⟨[], 0, 0⟩ ⟨0xFFFFFFFF, 23⟩).1 = none ∧
      (readBits true 31 ⟨[0xA5], 0, 1⟩ ⟨0x7FFFFFFF, 31⟩).2.1 = ⟨[0xA5], 0, 1⟩ := by decide

theorem witness_FetchDecodesTheBitStream :
    lz.readersOk ∧ lz.lcfg.distW ≤ 24 ∧ lz.lcfg.lenW ≤ 24 ∧
      decodeToken lz.lcfg.format .ctrl (lz.pending .p0) = .ok (.lzCtrl 1, (lz.pending .p0).drop 8) ∧
      decodeToken raw.lcfg.format .tree ((State.reset).pending .p0) = .error .shortStream :=
  ⟨readerOk_lz, by decide, by decide, by decide, by decide⟩

theorem witness_GetbitsReadsTheStream :
    raw.sess = .active ∧ raw.lcfg.engine = 2 ∧ ReaderOk raw.lcfg.lsb raw.port0 raw.br0 ∧
      16 ≤ (raw.pending .p0).length ∧ ¬17 ≤ (raw.pending .p0).length :=
  ⟨rfl, by decide, readerOk_raw.1, by decide, by decide⟩

theorem witness_CommandsOutOfStateFault :
    (lz.sess ≠ .faulted ∧ ¬(lz.sess = .active ∧ lz.lcfg.engine = 2)) ∧
      (raw.sess = .active ∧ raw.lcfg.engine = 2 ∧ (if raw.lcfg.lsb then 32 else 24) < (25 : Byte).toNat) ∧
      (rawLsb.lcfg.engine = 2 ∧ (if rawLsb.lcfg.lsb then 32 else 24) < (33 : Byte).toNat) ∧ State.reset.sess = .idle := by decide

theorem witness_BitresetDiscardsBufferedBits : raw.sess = .active ∧ raw.lcfg.engine = 2 := by decide

theorem witness_FaultedIgnoresCommands :
    faulted.sess = .faulted ∧ (writing faulted 2).ops = [.write (writing faulted 2).params.regBase .word 2] ∧
      decodeWord 2 ≠ .ok .init ∧ decodeWord 2 ≠ .ok .close := by decide

/-! #### Sessions -/

/-- INIT accepts the smallest frame, 1, and the largest, 2^24, with the largest widths. -/
theorem witness_InitOpensLzssSession :
    State.reset.params.ok = true ∧ (24 : Nat) ≤ State.reset.params.maxFrameLog2 ∧
      (⟨0, 1, 0, 0, 0, 0, 0⟩ : ConfigRegs).frameSize.toNat = 2 ^ 0 ∧
      (⟨0, 0x1000000, 0, 0, 0x1818, 0, 0⟩ : ConfigRegs).frameSize.toNat = 2 ^ 24 ∧
      (⟨0, 0x1000000, 0, 0, 0x1818, 0, 0⟩ : ConfigRegs).engine = 0 ∧
      (⟨0, 0x1000000, 0, 0, 0x1818, 0, 0⟩ : ConfigRegs).distW = 24 ∧
      (⟨0, 0x1000000, 0, 0, 0x1818, 0, 0⟩ : ConfigRegs).lenW = 24 := by decide

theorem witness_InitOpensHuffmanOrRawSession : huf.cfg.engine = 1 ∧ raw.cfg.engine = 2 := by decide

theorem witness_InitRejectsBadConfiguration :
    (⟨3, 0, 0, 0, 0, 0, 0⟩ : ConfigRegs).engine = 3 ∧
      (¬∃ k, k ≤ 24 ∧ (⟨0, 12, 0, 0, 0, 0, 0⟩ : ConfigRegs).frameSize.toNat = 2 ^ k) ∧
      24 < (⟨0, 16, 0, 0, 0x0019, 0, 0⟩ : ConfigRegs).distW ∧ 24 < (⟨0, 16, 0, 0, 0x1900, 0, 0⟩ : ConfigRegs).lenW := by
  refine ⟨by decide, ?_, by decide, by decide⟩
  rintro ⟨k, hk, h⟩
  have : k = 0 ∨ k = 1 ∨ k = 2 ∨ k = 3 ∨ 4 ≤ k := by omega
  rcases this with rfl | rfl | rfl | rfl | h4
  · exact absurd h (by decide)
  · exact absurd h (by decide)
  · exact absurd h (by decide)
  · exact absurd h (by decide)
  · have h12 : (⟨0, 12, 0, 0, 0, 0, 0⟩ : ConfigRegs).frameSize.toNat = 12 := by decide
    have := Nat.pow_le_pow_right (n := 2) (by omega) h4
    omega

theorem witness_ContinueWithoutSteps :
    lz.sess = .active ∧ lz.lcfg.engine ≠ 2 ∧ ({ lz with count := 0 } : State).count = 0 ∧
      ({ lz with eos := true } : State).eos = true := by decide

theorem witness_ContinueResultAndEnd :
    lz.sess = .active ∧ lz.lcfg.engine ≠ 2 ∧ ∃ t, exec .cont lz = .next t ∧ t.sess ≠ .faulted := by
  refine ⟨rfl, by decide, ?_⟩
  obtain ⟨t, h, hp⟩ := exists_of_nextIs (o := exec .cont lz) (p := fun t => t.sess != .faulted) (by decide)
  exact ⟨t, h, by simpa using hp⟩

theorem witness_ContinueFrame : ∃ t, exec .cont lz = .next t := by
  obtain ⟨t, h, _⟩ := exists_of_nextIs (o := exec .cont lz) (p := fun _ => true) (by decide)
  exact ⟨t, h⟩

/-- A CONTINUE of 3 bytes stops inside the copy of vector W2. -/
theorem witness_ChunkedContinueEqualsOne :
    lz.params.ok = true ∧ lz.sess = .active ∧ lz.lcfg.engine ≠ 2 ∧ (3 : Word).toNat + (1 : Word).toNat < 2 ^ 32 ∧
      (∃ s1, exec .cont { lz with count := 3 } = .next s1 ∧ s1.phase = .lzCopy) ∧
      ∃ t, exec .cont { lz with count := 3 + 1 } = .next t := by
  refine ⟨by decide, rfl, by decide, by decide, ?_, ?_⟩
  · obtain ⟨t, h, hp⟩ := exists_of_nextIs (o := exec .cont { lz with count := 3 }) (p := fun t => t.phase == .lzCopy)
      (by decide)
    exact ⟨t, h, by simpa using hp⟩
  · obtain ⟨t, h, _⟩ := exists_of_nextIs (o := exec .cont { lz with count := 3 + 1 }) (p := fun _ => true) (by decide)
    exact ⟨t, h⟩

theorem witness_SessionIgnoresLaterConfiguration : Instr.cont ≠ .init ∧ ∃ t, exec .cont lz = .next t :=
  ⟨by decide, witness_ContinueFrame⟩

theorem witness_BoundedContinueStopsAtTarget :
    Inv lz ∧ lz.sess = .active ∧ lz.lcfg.engine ≠ 2 ∧ lz.lcfg.bounded = true ∧
      ∃ t, exec .cont lz = .next t ∧ t.sess ≠ .faulted :=
  ⟨inv_lz, rfl, by decide, by decide, witness_ContinueResultAndEnd.2.2⟩

theorem witness_OneShotDecodeEnds :
    ∃ s s1 : State, Inv s ∧ s.cfg.bounded = true ∧ s.cfg.engine ≠ 2 ∧ s.count = s.cfg.unpackedSize ∧
      exec .init s = .next s1 ∧ s1.sess = .active := by
  obtain ⟨t, h, hp⟩ := exists_of_nextIs (o := exec .init { lz with count := 4 }) (p := fun t => t.sess == .active)
    (by decide)
  exact ⟨{ lz with count := 4 }, t,
    { inv_lz with active := fun h =>
      { inv_lz.active h with
        lzss := fun e => { (inv_lz.active h).lzss e with }, huffman := fun e => absurd e (by decide) } },
    by decide, by decide, by decide, h, by simpa using hp⟩

theorem witness_CommandsAlwaysComplete : Inv lz ∧ Inv huf ∧ Inv raw ∧ Inv faulted ∧ Instr.cont.place = none :=
  ⟨inv_lz, inv_huf, inv_raw, inv_faulted, rfl⟩

/-! #### LZSS -/

theorem witness_ControlByteIsTaken :
    lz.sess = .active ∧ lz.eos = false ∧ lz.phase = .lzToken ∧ lz.run.sel = none ∧ lz.ctrlLeft = 0 := by decide

theorem witness_ControlBitOrder : (0 : Nat) < 8 ∧ (7 : Nat) < 8 := by decide

theorem witness_LiteralWritesWindowAndOutput :
    lzLitDue.sess = .active ∧ lzLitDue.eos = false ∧ lzLitDue.phase = .lzToken ∧ lzLitDue.run.sel = some .literal ∧
      0 < lzLitDue.lcfg.frame ∧ lzLitDue.lcfg.frame ≤ 2 ^ 24 := by decide

/-- Distances 1 and FS, and length 1, are legal. -/
theorem witness_BackReferenceStartsCopy :
    lzRefDue.sess = .active ∧ lzRefDue.eos = false ∧ lzRefDue.phase = .lzToken ∧ lzRefDue.run.sel = some .reference ∧
      lzRefDue.cur.toNat < lzRefDue.lcfg.frame ∧ lzRefDue.lcfg.frame ≤ 2 ^ 24 ∧
      1 ≤ (1 : BitVec 24).toNat + lzRefDue.lcfg.distBias ∧
      (16 : BitVec 24).toNat + lzRefDue.lcfg.distBias ≤ lzRefDue.lcfg.frame ∧
      1 ≤ (1 : BitVec 24).toNat + lzRefDue.lcfg.lenBias := by decide

/-- Distances 0 and FS + 1 are not, and neither is length 0. -/
theorem witness_BackReferenceRangeChecks :
    (0 : BitVec 24).toNat + lzRefDue.lcfg.distBias = 0 ∧
      lzRefDue.lcfg.frame < (17 : BitVec 24).toNat + lzRefDue.lcfg.distBias ∧
      (0 : BitVec 24).toNat + lzRefDue.lcfg.lenBias = 0 := by decide

theorem witness_CopyStepCopiesOneByte :
    lzCopying.phase = .lzCopy ∧ 0 < lzCopying.lcfg.frame ∧ lzCopying.lcfg.frame ≤ 2 ^ 24 := by decide

theorem witness_CopyRepeatsWithPeriodDistance :
    lzCopying.lcfg.frame ≤ 2 ^ 24 ∧ lzCopying.cur.toNat < lzCopying.lcfg.frame ∧ 1 ≤ lzCopying.lcfg.frame ∧
      lzCopying.copySrc.toNat = (lzCopying.cur.toNat + lzCopying.lcfg.frame - 1) % lzCopying.lcfg.frame := by decide

theorem witness_CopyAtFullDistanceKeepsWindow : lz.lcfg.frame ≤ 2 ^ 24 ∧ lz.cur.toNat < lz.lcfg.frame := by decide

theorem witness_WindowHoldsRecentOutput :
    (Inv lz ∧ lz.cfg.engine = 0 ∧ ∃ t, exec .init lz = .next t ∧ t.sess = .active) ∧
      (WindowHistory lz [] ∧ 0 < lz.lcfg.frame ∧ lz.lcfg.frame ≤ 2 ^ 24) ∧
      (∃ t, exec (.lzLit 0x58) lzLitDue = .next t) ∧ WindowHistory lzLitDue [] := by
  refine ⟨⟨inv_lz, by decide, ?_⟩, ⟨⟨by decide, fun j _ _ => rfl⟩, by decide, by decide⟩, ?_, ⟨by decide, fun j _ _ => rfl⟩⟩
  · obtain ⟨t, h, hp⟩ := exists_of_nextIs (o := exec .init lz) (p := fun t => t.sess == .active) (by decide)
    exact ⟨t, h, by simpa using hp⟩
  · obtain ⟨t, h, _⟩ := exists_of_nextIs (o := exec (.lzLit 0x58) lzLitDue) (p := fun _ => true) (by decide)
    exact ⟨t, h⟩

theorem witness_ExhaustionByPlace :
    (∃ t, fetchToken .ctrl State.reset = .exhausted t) ∧ (∃ t, fetchToken .literal State.reset = .exhausted t) ∧
      (∃ t, fetchToken .reference { lz with port0 := .empty } = .exhausted t ∧ t.lcfg.bounded = true) ∧
      (∃ t, fetchToken .reference { lz with lcfg := l16 0 0, port0 := .empty } = .exhausted t ∧ t.lcfg.bounded = false) ∧
      (∃ t, fetchToken .tree State.reset = .exhausted t) ∧ ∃ t, fetchToken .code State.reset = .exhausted t :=
  ⟨⟨_, rfl⟩, ⟨_, rfl⟩, ⟨_, rfl, rfl⟩, ⟨_, rfl, rfl⟩, ⟨_, rfl⟩, ⟨_, rfl⟩⟩

/-! #### Huffman -/

theorem witness_TreeBranchAllocates :
    huf.sess = .active ∧ huf.eos = false ∧ huf.phase = .hufBuild ∧ ({ huf with nextNode := 511 } : State).nextNode.toNat < 512 ∧
      512 ≤ ({ huf with nextNode := 512 } : State).nextNode.toNat := by decide

theorem witness_TreeLeafReturns :
    huf.sess = .active ∧ huf.eos = false ∧ huf.phase = .hufBuild ∧ huf.run.stack = [] ∧
      (⟨0, none, none, [.right 257, .left 256]⟩ : Run).stack = .right 257 :: .left 256 :: [] := by decide

theorem witness_CodeBitFollowsChild :
    hufSym.sess = .active ∧ hufSym.eos = false ∧ hufSym.phase = .hufSym ∧
      (256 : BitVec 9) = hufSym.run.node.getD hufSym.root ∧ 256 ≤ (256 : BitVec 9).toNat ∧
      (0x41 : BitVec 9) = hufSym.lhs[slotOf 256] ∧ (0x42 : BitVec 9) = hufSym.rhs[slotOf 256] := by decide

/-- A tree of `n` internal nodes, each with a leaf on its left. -/
def spine : Nat → HufTree
  | 0 => .leaf 0x41
  | n + 1 => .node (.leaf 0x42) (spine n)

/-- The bytes that carry a bit list MSB-first, the last one padded with zeros. -/
def packMsb : List Bool → List Byte
  | b7 :: b6 :: b5 :: b4 :: b3 :: b2 :: b1 :: b0 :: t =>
    BitVec.ofNat 8 (fieldValue false [b7, b6, b5, b4, b3, b2, b1, b0]) :: packMsb t
  | [] => []
  | l => [BitVec.ofNat 8 (fieldValue false (l ++ List.replicate (8 - l.length) false))]

/-- A HUFFMAN session right after INIT whose stream describes a tree. -/
def hufOf (tree : HufTree) : State :=
  { huf with
    port0 := ⟨packMsb (tree.describe false), 0, (packMsb (tree.describe false)).length⟩ }

/-- The largest tree, of 256 internal nodes, is described by 2569 bits: R200's bound. -/
theorem witness_TreeDescriptionBuildsTree :
    ((hufOf (spine 256)).phase = .hufBuild ∧ (hufOf (spine 256)).run = .rest ∧ (hufOf (spine 256)).nextNode = 256) ∧
      ReaderOk false (hufOf (spine 256)).port0 (hufOf (spine 256)).br0 ∧ (spine 256).nodes = 256 ∧
      ((spine 256).describe false).length = 2569 ∧
      (hufOf (spine 256)).pending .p0 = (spine 256).describe false ++ List.replicate 7 false :=
  ⟨by decide, readerOk_empty _ _ (by decide +kernel) (by decide +kernel), by decide +kernel, by decide +kernel,
    by decide +kernel⟩

theorem witness_OversizedTreeOverflows :
    ReaderOk false (hufOf (spine 257)).port0 (hufOf (spine 257)).br0 ∧ 256 < (spine 257).nodes ∧
      (hufOf (spine 257)).pending .p0 = (spine 257).describe false ++ List.replicate 5 false :=
  ⟨readerOk_empty _ _ (by decide +kernel) (by decide +kernel), by decide +kernel, by decide +kernel⟩

theorem witness_SymbolStepWalksTree :
    hufSym.sess = .active ∧ hufSym.eos = false ∧ hufSym.phase = .hufSym ∧ hufSym.run.node = none ∧
      ReaderOk hufSym.lcfg.lsb hufSym.port0 hufSym.br0 ∧ Represents hufSym hufSym.root (.node (.leaf 0x41) (.leaf 0x42)) ∧
      (HufTree.node (.leaf 0x41) (.leaf 0x42)).walk (hufSym.pending .p0) = some (0x41, [true, false, false, false]) ∧
      (HufTree.node (.leaf 0x41) (.leaf 0x42)).walk [] = none :=
  ⟨rfl, rfl, rfl, rfl, ⟨by decide, by decide, by decide, by decide⟩,
    ⟨by decide, (by decide : lhsAt hufSym hufSym.root = 0x41),
      (by decide : rhsAt hufSym hufSym.root = 0x42)⟩, by decide, rfl⟩

theorem witness_LeafRootFillsEveryCount :
    hufLeafRoot.sess = .active ∧ hufLeafRoot.lcfg.engine = 1 ∧ hufLeafRoot.phase = .hufSym ∧ hufLeafRoot.eos = false ∧
      hufLeafRoot.lcfg.bounded = false ∧ hufLeafRoot.root.toNat < 256 := by decide

/-! #### Faults, phases, the invariant and the host -/

/-- Exhaustion at the control byte of a bounded session (vector LZ11). -/
theorem witness_FaultingStepWritesNothing :
    ∃ s t : State, s.sess = .active ∧ s.run.sel = none ∧ s.run.node = none ∧ engineStep s = .next t ∧ t.sess = .faulted := by
  obtain ⟨t, h, hp⟩ := exists_of_nextIs (o := engineStep { lz with port0 := .empty }) (p := fun t => t.sess == .faulted)
    (by decide)
  exact ⟨_, t, rfl, rfl, rfl, h, by simpa using hp⟩

theorem witness_PhaseTransitions :
    (∃ t, engineStep lz = .next t ∧ t.phase = .lzToken) ∧ (∃ t, engineStep huf = .next t ∧ t.phase = .hufSym) ∧
      (lz.run.stack = [] ∧ huf.run.stack = []) ∧ (∃ t, exec .close lz = .next t) ∧
      ∃ t, exec .init raw = .next t ∧ t.phase = .none := by
  refine ⟨?_, ?_, by decide, ⟨_, rfl⟩, ?_⟩
  · obtain ⟨t, h, hp⟩ := exists_of_nextIs (o := engineStep lz) (p := fun t => t.phase == .lzToken) (by decide)
    exact ⟨t, h, by simpa using hp⟩
  · obtain ⟨t, h, hp⟩ := exists_of_nextIs (o := engineStep huf) (p := fun t => t.phase == .hufSym) (by decide)
    exact ⟨t, h, by simpa using hp⟩
  · obtain ⟨t, h, hp⟩ := exists_of_nextIs (o := exec .init raw) (p := fun t => t.phase == .none) (by decide)
    exact ⟨t, h, by simpa using hp⟩

theorem witness_EveryStepKeepsInv : Inv (writing lz 2) ∧ ∃ t, step (writing lz 2) = .next t := by
  refine ⟨{ inv_lz with active := fun h =>
      { inv_lz.active h with
        lzss := fun e => { (inv_lz.active h).lzss e with }, huffman := fun e => absurd e (by decide) } }, ?_⟩
  obtain ⟨t, h, _⟩ := exists_of_nextIs (o := step (writing lz 2)) (p := fun _ => true) (by decide)
  exact ⟨t, h⟩

/-- The smallest and the largest legal parameters. -/
theorem witness_ResetSatisfiesInv : (⟨12, 1, 0⟩ : Params).ok = true ∧ (⟨24, 32, 0x1000⟩ : Params).ok = true := by decide

theorem witness_RegisterWrites :
    Reg.mode ≠ .cmd ∧ ({ lz with ops := [.write (lz.params.regBase + Reg.mode.offset) .word 0xFFFF] } : State).ops =
      [.write (lz.params.regBase + Reg.mode.offset) .word 0xFFFF] := by decide

theorem witness_RegisterReads :
    ({ lz with ops := [.read (lz.params.regBase + Reg.outTotal.offset) .word] } : State).ops =
        [.read (lz.params.regBase + Reg.outTotal.offset) .word] := by decide

/-- R10, R45: `IN_POS` reads the largest 32-bit count as it is, and wraps to 0 at the next byte. -/
theorem test_inPos_wraps :
    readReg .inPos { lz with port0 := ⟨[], 2 ^ 32 - 1, 0⟩ } = 0xFFFFFFFF ∧
      readReg .inPos { lz with port0 := ⟨[], 2 ^ 32, 0⟩ } = 0 := by decide

/-- A half-word, a misaligned word, the last byte of the block, and the two addresses next to the block. -/
theorem witness_PartialAccessesRefused :
    (Width.half ≠ .word ∧ (0x102 - 0x100) % 4 ≠ 0 ∧ (0x13F : Nat) < 0x100 + 0x40) ∧
      ((0xFF : Nat) < 0x100 ∧ 0x100 + 0x40 ≤ (0x140 : Nat)) ∧
      ({ lz with ops := [.read 0x3F .byte] } : State).ops = [.read 0x3F .byte] ∧
      ({ lz with ops := [.write 0x40 .word 0] } : State).ops = [.write 0x40 .word 0] := by decide

theorem witness_BindAndReset :
    ({ lz with ops := [.bind .p0 [0x41]] } : State).ops = [.bind .p0 [0x41]] ∧
      ({ lz with ops := [.bind .p1 []] } : State).ops = [.bind .p1 []] ∧
      ({ lz with ops := [.reset] } : State).ops = [.reset] ∧ lz.ops = [] := by decide

end Sys2Proof.Tests
end

section
/-! PROOFS. What a host read of a register does to the block. -/

namespace Sys2Proof.Machine

/-! ### A host read, as one turn of the host and as one step (R67) -/

/-- A read that reaches a register gives its value to the host and changes nothing of the block. -/
theorem hostTurn_read {s : State} {addr : Nat} {w : Width} {rest : List HostOp} {r : Reg}
    (hops : s.ops = .read addr w :: rest) (hr : accessReg s.params addr w = .ok r) :
    hostTurn s = .done (.next { s with ops := rest, busData := some (readReg r s) }) := by
  simp only [hostTurn, hops, hr]

/-- A turn of the host that runs no command is the whole step. -/
theorem step_of_hostTurn_done {s : State} {o : Res} (h : hostTurn s = .done o) : step s = o := by
  simp only [step, h]

/-- The aligned word at a register's address reads that register, in one step. -/
theorem step_read_offset {s : State} {r : Reg} {rest : List HostOp}
    (hops : s.ops = .read (s.params.regBase + r.offset) .word :: rest) :
    step s = .next { s with ops := rest, busData := some (readReg r s) } :=
  step_of_hostTurn_done (hostTurn_read hops (accessReg_offset s.params r))

/-! ### The registers whose value the spec states (R32, R45) -/

@[simp] theorem readReg_cmd (s : State) : readReg .cmd s = 0 := rfl

/-- `IN_POS` counts the bytes fetched from port 0, mod 2^32 (R10, R45). -/
theorem readReg_inPos_toNat (s : State) : (readReg .inPos s).toNat = s.port0.pos % 2 ^ 32 := s.posWord_toNat .p0

/-- `CTRL_POS` counts the bytes fetched from port 1, mod 2^32 (R10, R45). -/
theorem readReg_ctrlPos_toNat (s : State) : (readReg .ctrlPos s).toNat = s.port1.pos % 2 ^ 32 := s.posWord_toNat .p1

/-- Settles O56, from the step of a read and the values of the three registers. -/
theorem registerReads : Obligations.RegisterReads := by
  intro s r rest hops
  exact ⟨step_read_offset hops, readReg_cmd s, readReg_inPos_toNat s, readReg_ctrlPos_toNat s⟩

end Sys2Proof.Machine
end

section
/-! PROOFS. The bit readers keep their bounds: a request, and the fetch of a stream token through them, leave both readers of a
session within R119's limits. -/

namespace Sys2Proof.Machine

/-! ### A request (R113 to R115) -/

/-- A served or failed request leaves a reader within R119's bounds, in either variant. -/
theorem readBits_readerOk {lsb : Bool} {n : Nat} {p : InPort} {r : BitReader} (h : ReaderOk lsb p r)
    (hn : n ≤ maxRequest lsb) : ReaderOk lsb (readBits lsb n p r).2.1 (readBits lsb n p r).2.2 := by
  obtain ⟨ok, p', r', he, hin, -, -, -, hok, hshort, hfetched⟩ :=
    fillBits_spec (k := n) h.inside hn (by omega)
  have hcount := h.count
  unfold readBits
  rw [he]
  cases ok with
  | false =>
    have hlt := (hshort rfl).1
    refine ⟨hin.limit, hin.position, ?_, hin.clean⟩
    unfold maxRequest at hn
    show r'.cnt.toNat ≤ _
    split at hn <;> simp_all <;> omega
  | true =>
    have hle := hok rfl
    refine ⟨hin.limit, hin.position, ?_, take_clean hle hin.clean⟩
    show (r'.take lsb n).2.cnt.toNat ≤ _
    rw [take_cnt hle]
    obtain ⟨-, rfl⟩ | ⟨-, hle'⟩ := hfetched
    · omega
    · split <;> omega

/-- A request on either port leaves both readers of the session within their bounds. -/
theorem getBits_readersOk {k : Port} {n : Nat} {s : State} (h : s.readersOk) (hn : n ≤ maxRequest s.lcfg.lsb) :
    (getBits k n s).2.readersOk := by
  obtain ⟨h0, h1⟩ := h
  cases k with
  | p0 => exact ⟨readBits_readerOk h0 hn, h1⟩
  | p1 => exact ⟨h0, readBits_readerOk h1 hn⟩

theorem getBits_readersOk_of_eq {k : Port} {n : Nat} {s t : State} {v : Option Word} (h : s.readersOk)
    (hn : n ≤ maxRequest s.lcfg.lsb) (he : getBits k n s = (v, t)) : t.readersOk := by
  have := getBits_readersOk (k := k) h hn
  rwa [he] at this

/-! ### The fetch of a token -/

/-- The state a fetch leaves, whether or not it gave a token. -/
def Fetched.after : Fetched → State
  | .token _ s => s
  | .exhausted s => s

@[simp] theorem Fetched.after_token (i : Instr) (s : State) : (Fetched.token i s).after = s := rfl
@[simp] theorem Fetched.after_exhausted (s : State) : (Fetched.exhausted s).after = s := rfl

theorem le_maxRequest {n : Nat} (hn : n ≤ 24) (lsb : Bool) : n ≤ maxRequest lsb := by
  unfold maxRequest; split <;> omega

theorem fetchByte_after (k : Port) (mk : Byte → Instr) (s : State) : (fetchByte k mk s).after = (getBits k 8 s).2 := by
  unfold fetchByte
  split
  next h => rw [h]; rfl
  next h => rw [h]; rfl

theorem fetchByte_readersOk (k : Port) (mk : Byte → Instr) {s : State} (h : s.readersOk) :
    (fetchByte k mk s).after.readersOk := by
  rw [fetchByte_after]
  exact getBits_readersOk h (le_maxRequest (by omega) _)

/-- A fetch leaves both readers within their bounds; a back-reference needs field widths the readers serve (R111, R131). -/
theorem fetchToken_readersOk (p : Place) {s : State} (h : s.readersOk)
    (hw : p = .reference → s.lcfg.distW ≤ 24 ∧ s.lcfg.lenW ≤ 24) : (fetchToken p s).after.readersOk := by
  have hbit : ∀ {v : Option Word} {t : State}, getBits .p0 1 s = (v, t) → t.readersOk :=
    getBits_readersOk_of_eq h (le_maxRequest (by omega) _)
  cases p with
  | ctrl => exact fetchByte_readersOk _ _ h
  | literal => exact fetchByte_readersOk _ _ h
  | reference =>
    obtain ⟨hd, hl⟩ := hw rfl
    simp only [fetchToken]
    cases hgd : getBits .p0 s.lcfg.distW s with
    | mk d u =>
      have hu := getBits_readersOk_of_eq h (le_maxRequest hd _) hgd
      have hlu : u.lcfg.lenW ≤ 24 := by rw [(getBits_read_of_eq hgd).kept.lcfg]; exact hl
      cases d with
      | none => exact hu
      | some d =>
        cases hgl : getBits .p0 u.lcfg.lenW u with
        | mk l w =>
          have hv := getBits_readersOk_of_eq hu (le_maxRequest hlu _) hgl
          cases l <;> simpa [hgl] using hv
  | tree =>
    simp only [fetchToken]
    cases hg : getBits .p0 1 s with
    | mk v u =>
      cases v with
      | none => exact hbit hg
      | some v =>
        by_cases hv : v = 1
        · simpa only [hv, if_true, Fetched.after_token] using hbit hg
        · simpa only [hv, if_false] using fetchByte_readersOk .p0 .hufLeaf (hbit hg)
  | code =>
    simp only [fetchToken]
    cases hg : getBits .p0 1 s with
    | mk v u => cases v <;> exact hbit hg

/-- Inside an engine step a token's meaning is the one `exec` gives it. -/
theorem runToken_eq_exec {i : Instr} {p : Place} (h : i.place = some p) (s : State) : runToken i s = exec i s := by
  cases i
  case init | cont | getbits | bitreset | close => cases h
  all_goals rfl

/-- `engineToken_cases` with what the fetch leaves of the readers. -/
theorem engineToken_cases_readersOk (p : Place) {s : State} (h : s.readersOk)
    (hw : p = .reference → s.lcfg.distW ≤ 24 ∧ s.lcfg.lenW ≤ 24) :
    (∃ i u, engineToken p s = exec i u ∧ i.place = some p ∧ InputRead (inputPort s.lcfg p) s u ∧ u.readersOk) ∨
      ∃ u, engineToken p s = .next (exhaustAt p u) ∧ InputRead (inputPort s.lcfg p) s u ∧ u.readersOk := by
  have hafter := fetchToken_readersOk p h hw
  unfold engineToken
  rcases fetchToken_read p s with ⟨i, u, hf, hp, hr⟩ | ⟨u, hf, hr⟩
  · rw [hf] at hafter ⊢
    exact .inl ⟨i, u, runToken_eq_exec hp u, hp, hr, hafter⟩
  · rw [hf] at hafter ⊢
    exact .inr ⟨u, rfl, hr, hafter⟩

end Sys2Proof.Machine
end

section
/-! PROOFS. What an open session keeps from one engine step to the next: the readers' bounds, the canonical window, and the state
of its engine (10_state.md R28, R29, 42_lzss.md, 43_huffman.md). -/

namespace Sys2Proof.Machine

/-! ### The LZSS engine -/

/-- What holds of an LZSS session at every point of a CONTINUE that has not faulted. -/
structure LzssLive (s : State) : Prop where
  readers : s.readersOk
  window : s.win.wf = true
  engine : LzssOk s

/-- A legal frame has a cell (R37). -/
theorem frameOk_pos {p : Params} {c : ConfigRegs} (h : frameOk p c) : 0 < c.frame := by
  obtain ⟨k, -, he⟩ := h
  rw [he]
  positivity

theorem toNat_ofNat_mod_lt {f : Nat} (x : Nat) (hpos : 0 < f) : (BitVec.ofNat 24 (x % f)).toNat < f :=
  lt_of_le_of_lt (Nat.mod_le _ _) (Nat.mod_lt x hpos)

/-- An index computed mod FS is an index of the session's window. -/
theorem LzssLive.index_lt {s : State} (h : LzssLive s) (x : Nat) :
    (BitVec.ofNat 24 (x % s.lcfg.frame)).toNat < s.lcfg.frame :=
  toNat_ofNat_mod_lt x (frameOk_pos h.engine.frame)

theorem LzssLive.read {k : Port} {s t : State} (h : LzssLive s) (hin : InputRead k s t) (ht : t.readersOk) : LzssLive t := by
  obtain ⟨pos, r, rfl⟩ := hin
  have he := h.engine
  cases k <;> exact { h with readers := ht, engine := { he with } }

theorem LzssLive.emit {s : State} (h : LzssLive s) (b : Byte) : LzssLive (emit b s) :=
  { h with engine := { h.engine with } }

theorem LzssLive.withRun {s : State} (h : LzssLive s) (r : Run) : LzssLive { s with run := r } :=
  { h with engine := { h.engine with } }

theorem LzssLive.windowPush {s : State} (h : LzssLive s) (b : Byte) : LzssLive (windowPush b s) :=
  { h with
    window := Window.wf_set _ _ h.window
    engine := { h.engine with
      cursor := h.index_lt _
      cells := Window.cells_set h.engine.cells h.engine.cursor } }

/-- A control bit is taken only when one is left (R162). -/
theorem LzssLive.takeCtrlBit {s : State} (h : LzssLive s) (hc : s.ctrlLeft ≠ 0) : LzssLive (takeCtrlBit s) := by
  have hle := h.engine.controls
  refine { h with engine := { h.engine with controls := ?_ } }
  show (s.ctrlLeft - 1).toNat ≤ 8
  bv_omega

theorem LzssLive.loadCtrl {s : State} (h : LzssLive s) (x : Byte) : LzssLive { s with ctrlSr := x, ctrlLeft := 8 } :=
  { h with engine := { h.engine with controls := le_refl 8 } }

/-- The length of a back-reference fits `COPY_LEFT` (R94). -/
theorem refLength_lt (c : ConfigRegs) (l : BitVec 24) : refLength c l < 2 ^ 32 := by
  have hl := l.isLt
  have hb : c.lenBias < 2 ^ 8 := BitVec.isLt _
  unfold refLength
  omega

theorem LzssLive.startCopy {s : State} (h : LzssLive s) (d : Nat) {len : Nat} (h1 : 1 ≤ len) (h32 : len < 2 ^ 32) :
    LzssLive (startCopy d len s) := by
  refine { h with engine := { h.engine with phase := .inr rfl, source := h.index_lt _, copying := fun _ => ?_ } }
  show BitVec.ofNat 32 len ≠ 0
  bv_omega

/-- The copy step returns to the token step exactly when no byte is left to copy (R167). -/
theorem LzssLive.lzCopyStep {s : State} (h : LzssLive s) : LzssLive (lzCopyStep s) := by
  refine LzssLive.emit (s := { Machine.windowPush (s.win.get s.copySrc.toNat) s with
      copySrc := BitVec.ofNat 24 ((s.copySrc.toNat + 1) % s.lcfg.frame), copyLeft := s.copyLeft - 1
      phase := if s.copyLeft - 1 = 0 then .lzToken else .lzCopy }) ?_ _
  have hpush := h.windowPush (s.win.get s.copySrc.toNat)
  refine { hpush with engine := { hpush.engine with phase := ?_, source := h.index_lt _, copying := ?_ } }
  · dsimp only; split <;> simp
  · dsimp only; split <;> simp_all

/-- Exhaustion that leaves the session open leaves its engine as it was (R166). -/
theorem LzssLive.exhaust {f : FaultCode} {s : State} (h : LzssLive s) (ha : (exhaust f s).sess = .active) :
    LzssLive (exhaust f s) := by
  cases hb : s.lcfg.bounded with
  | true => simp [exhaust_of_bounded f s hb] at ha
  | false =>
    rw [exhaust_of_unbounded f s hb]
    exact { h with engine := { h.engine with } }

theorem execLzCtrl_live {x : Byte} {s t : State} (h : LzssLive s) (hs : exec (.lzCtrl x) s = .next t) : LzssLive t := by
  obtain ⟨-, rfl⟩ := execLzCtrl_next hs
  exact (h.loadCtrl x).takeCtrlBit (by decide : (8 : BitVec 4) ≠ 0)

theorem execLzLit_live {b : Byte} {s t : State} (h : LzssLive s) (hs : exec (.lzLit b) s = .next t) : LzssLive t := by
  obtain ⟨-, rfl⟩ := execLzLit_next hs
  exact ((h.withRun _).windowPush b).emit b

theorem execLzRef_live {d l : BitVec 24} {s t : State} (h : LzssLive s) (hs : exec (.lzRef d l) s = .next t)
    (ha : t.sess = .active) : LzssLive t := by
  obtain ⟨-, ⟨f, rfl⟩ | ⟨-, -, hlen, rfl⟩⟩ := execLzRef_next hs
  · cases ha
  · exact h.startCopy _ hlen (refLength_lt _ _)

/-- The selected item: a literal or a header keeps the engine's state, unless it faults. -/
theorem lzItemStep_live {s t : State} (h : LzssLive s) (hs : lzItemStep s = .next t) (ha : t.sess = .active) :
    LzssLive t := by
  have htoken : ∀ p, p = .literal ∨ p = .reference → engineToken p s = .next t → LzssLive t := by
    intro p hp he
    rcases engineToken_cases_readersOk p h.readers (fun _ => h.engine.widths) with
      ⟨i, u, hu, hi, hin, hr⟩ | ⟨u, hu, hin, hr⟩
    · have hx := hu.symm.trans he
      have hlu := h.read hin hr
      rcases hp with rfl | rfl <;> cases i <;> simp only [Instr.place, Option.some.injEq, reduceCtorEq] at hi
      · exact execLzLit_live hlu hx
      · exact execLzRef_live hlu hx ha
    · have hlu := h.read hin hr
      have hx := hu.symm.trans he
      rcases hp with rfl | rfl <;> cases hx <;> exact hlu.exhaust ha
  unfold lzItemStep at hs
  split at hs
  · exact htoken .literal (.inl rfl) hs
  · exact htoken .reference (.inr rfl) hs
  · cases hs; exact h

/-- The token step (R161). -/
theorem lzTokenStep_live {s t : State} (h : LzssLive s) (hs : lzTokenStep s = .next t) (ha : t.sess = .active) :
    LzssLive t := by
  unfold lzTokenStep at hs
  split at hs
  next =>
    obtain ⟨u, hu, hs⟩ := andThen_eq_next hs
    rcases engineToken_cases_readersOk .ctrl h.readers (by simp) with ⟨i, v, hv, hi, hin, hr⟩ | ⟨v, hv, hin, hr⟩
    · rw [hu] at hv
      cases i <;> simp only [Instr.place, Option.some.injEq, reduceCtorEq] at hi
      exact lzItemStep_live (execLzCtrl_live (h.read hin hr) hv.symm) hs ha
    · rw [hu] at hv
      cases hv
      have hsel : (exhaustAt .ctrl v).run.sel = none := by
        show (exhaust .truncCtrl v).run.sel = none
        unfold exhaust; split <;> rfl
      unfold lzItemStep at hs
      rw [hsel] at hs
      cases hs
      exact (h.read hin hr).exhaust ha
  next hc => exact lzItemStep_live (h.takeCtrlBit hc) hs ha

/-! ### The Huffman engine -/

/-- What holds of a HUFFMAN session at every point of a CONTINUE. -/
structure HuffmanLive (s : State) : Prop where
  readers : s.readersOk
  window : s.win.wf = true
  nodes : 256 ≤ s.nextNode.toNat ∧ s.nextNode.toNat ≤ 512

theorem HuffmanLive.read {k : Port} {s t : State} (h : HuffmanLive s) (hin : InputRead k s t) (ht : t.readersOk) :
    HuffmanLive t := by
  obtain ⟨pos, r, rfl⟩ := hin
  cases k <;> exact { h with readers := ht }

theorem HuffmanLive.emit {s : State} (h : HuffmanLive s) (b : Byte) : HuffmanLive (emit b s) := { h with }

theorem HuffmanLive.exhaust {s : State} (h : HuffmanLive s) (f : FaultCode) : HuffmanLive (exhaust f s) := by
  unfold Machine.exhaust
  split <;> exact { h with }

/-- At most 256 nodes are allocated: `NEXT_NODE` stays within 256..512 (R29, R193). -/
theorem execHufBranch_live {s t : State} (h : HuffmanLive s) (hs : exec .hufBranch s = .next t) : HuffmanLive t := by
  obtain ⟨-, ⟨-, rfl⟩ | ⟨hlt, rfl⟩⟩ := execHufBranch_next hs
  · exact { h with }
  · have := h.nodes
    refine { h with nodes := ?_ }
    show 256 ≤ (s.nextNode + 1).toNat ∧ (s.nextNode + 1).toNat ≤ 512
    bv_omega

theorem execHufLeaf_live {v : Byte} {s t : State} (h : HuffmanLive s) (hs : exec (.hufLeaf v) s = .next t) :
    HuffmanLive t := by
  obtain ⟨-, rfl⟩ := execHufLeaf_next hs
  rw [returnSubtree_frame]
  exact { h with }

theorem HuffmanLive.moveTo {s : State} (h : HuffmanLive s) (c : BitVec 9) : HuffmanLive (moveTo c s) := by
  obtain hm | hm := moveTo_cases c s <;> rw [hm] <;> exact { h with }

/-- Fetching a Huffman token and running it, or running out of input. -/
theorem engineToken_huffmanLive {p : Place} {s t : State} (h : HuffmanLive s) (hp : p = .tree ∨ p = .code)
    (hs : engineToken p s = .next t) : HuffmanLive t := by
  rcases engineToken_cases_readersOk p h.readers (by rcases hp with rfl | rfl <;> simp) with
    ⟨i, u, hu, hi, hin, hr⟩ | ⟨u, hu, hin, hr⟩
  · have hx := hu.symm.trans hs
    have hlu := h.read hin hr
    rcases hp with rfl | rfl <;> cases i <;> simp only [Instr.place, Option.some.injEq, reduceCtorEq] at hi
    · exact execHufBranch_live hlu hx
    · exact execHufLeaf_live hlu hx
    · rw [(execHufCode0_next hx).2]; exact hlu.moveTo _
    · rw [(execHufCode1_next hx).2]; exact hlu.moveTo _
  · have hlu := h.read hin hr
    have hx := hu.symm.trans hs
    rcases hp with rfl | rfl <;> cases hx
    · exact { hlu with }
    · exact hlu.exhaust _

theorem hufBuildLoop_live (k : Nat) {s t : State} (h : HuffmanLive s) (hs : hufBuildLoop k s = .next t) : HuffmanLive t := by
  induction k generalizing s with
  | zero => cases hs; exact { h with }
  | succ k ih =>
    obtain ⟨u, hu, hs⟩ := andThen_eq_next hs
    have hlu := engineToken_huffmanLive h (.inl rfl) hu
    split at hs
    · exact ih hlu hs
    · cases hs; exact hlu

/-- A build step leaves `HUF_BUILD` (R145). -/
theorem hufBuildLoop_phase (k : Nat) {s t : State} (hs : hufBuildLoop k s = .next t) : t.phase ≠ .hufBuild := by
  induction k generalizing s with
  | zero => cases hs; simp [exhaustAt]
  | succ k ih =>
    obtain ⟨u, -, hs⟩ := andThen_eq_next hs
    split at hs
    · exact ih hs
    next hp => cases hs; exact hp

theorem hufSymLoop_live (k : Nat) {s t : State} (h : HuffmanLive s) (hs : hufSymLoop k s = .next t) : HuffmanLive t := by
  induction k generalizing s with
  | zero => cases hs; exact h.exhaust _
  | succ k ih =>
    obtain ⟨u, hu, hs⟩ := andThen_eq_next hs
    have hlu := engineToken_huffmanLive h (.inr rfl) hu
    split at hs
    · cases hs; exact hlu
    · exact ih hlu hs

theorem hufSymStep_live {s t : State} (h : HuffmanLive s) (hs : hufSymStep s = .next t) : HuffmanLive t := by
  unfold hufSymStep at hs
  split at hs
  · cases hs; exact h.emit _
  · exact hufSymLoop_live _ h hs

end Sys2Proof.Machine
end

section
/-! PROOFS. The loop of CONTINUE keeps an open session in order (41_session.md R133 to R137): what holds between two engine steps,
and why each step ends there or in a fault. -/

namespace Sys2Proof.Machine

/-! ### The clauses of the invariant that speak of no session -/

/-- The clauses of `Inv` on the parameters, the memory, the window and the registers. -/
structure Canonical (s : State) : Prop where
  params : s.params.ok = true
  memory : Memory.wf s.mem = true
  addresses : ∀ c ∈ s.mem, c.1 < 2 ^ s.params.outAw
  window : s.win.wf = true
  registers : s.cfg.clean = true
  latched : s.lcfg.clean = true
  outAddr : s.outAddr.toNat < 2 ^ s.params.outAw

theorem Inv.canonical {s : State} (h : Inv s) : Canonical s :=
  ⟨h.params, h.memory, h.addresses, h.window, h.registers, h.latched, h.outAddr⟩

/-- The fault entry gives a faulted state every clause it needs (R222). -/
theorem Canonical.inv_raise {s : State} (h : Canonical s) (f : FaultCode) : Inv (raise f s) where
  params := h.params
  memory := h.memory
  addresses := h.addresses
  window := h.window
  registers := h.registers
  latched := h.latched
  outAddr := h.outAddr
  atRest := rfl
  active h := by cases h
  closed _ := rfl
  faulted _ := ⟨rfl, f, rfl⟩
  noFault h := absurd rfl h

/-- An open session has every clause it needs when it has recorded no fault and no command runs. -/
theorem Canonical.inv_active {s : State} (h : Canonical s) (hs : s.sess = .active) (hr : s.run = .rest) (ha : ActiveOk s)
    (hc : s.cause = 0) : Inv s where
  params := h.params
  memory := h.memory
  addresses := h.addresses
  window := h.window
  registers := h.registers
  latched := h.latched
  outAddr := h.outAddr
  atRest := hr
  active _ := ha
  closed h := absurd hs h
  faulted h := by rw [hs] at h; cases h
  noFault _ := hc

/-- What an engine step keeps, and what it does to the memory and the window, decides these clauses. -/
theorem Canonical.of_kept {s t : State} (h : Canonical s) (hk : StepKept s t) (hm : Memory.wf t.mem = true)
    (ha : ∀ c ∈ t.mem, c.1 < 2 ^ s.params.outAw) (hw : t.win.wf = true) : Canonical t := by
  obtain ⟨hp, hmem, haddr, hwin, hreg, hlat, hout⟩ := h
  refine ⟨?_, hm, ?_, hw, ?_, ?_, ?_⟩
  · rw [hk.params]; exact hp
  · rw [hk.params]; exact ha
  · rw [hk.cfg]; exact hreg
  · rw [hk.lcfg]; exact hlat
  · rw [hk.params, hk.outAddr]; exact hout

/-- Output addresses wrap within the output memory (R65). -/
theorem Memory.addresses_write {m : Memory} {p : Params} (h : ∀ c ∈ m, c.1 < 2 ^ p.outAw) (base : Word) (k : Nat)
    (b : Byte) : ∀ c ∈ Memory.write m (outByteAddr p base k) b, c.1 < 2 ^ p.outAw := by
  intro c hc
  obtain rfl | hc := mem_putCell hc
  · exact Nat.mod_lt _ (by positivity)
  · exact h c hc

/-! ### Between two engine steps -/

/-- The state of a CONTINUE between two of its steps: the invariant of an open session that has no fault, but for the
bytes counted in the command's own n. -/
structure Running (s : State) : Prop where
  canonical : Canonical s
  sess : s.sess = .active
  driven : s.lcfg.engine ≠ engineRaw
  active : ActiveOk s
  between : s.run = .between s.run.n
  cause : s.cause = 0

/-- The engine's part of an open session. -/
structure EngineLive (s : State) : Prop where
  readers : s.readersOk
  window : s.win.wf = true
  lzss : s.lcfg.engine = engineLzss → LzssOk s
  huffman : s.lcfg.engine = engineHuffman → HuffmanOk s

/-- CONTINUE drives LZSS and HUFFMAN sessions only. -/
theorem Running.engine_cases {s : State} (h : Running s) : s.lcfg.engine = engineLzss ∨ s.lcfg.engine = engineHuffman := by
  have hraw := h.driven
  have hknown := h.active.known
  generalize s.lcfg.engine = e at *
  revert e
  decide

theorem Running.lzssLive {s : State} (h : Running s) (he : s.lcfg.engine = engineLzss) : LzssLive s :=
  ⟨h.active.readers, h.canonical.window, h.active.lzss he⟩

theorem Running.huffmanLive {s : State} (h : Running s) (he : s.lcfg.engine = engineHuffman) : HuffmanLive s :=
  ⟨h.active.readers, h.canonical.window, (h.active.huffman he).nodes⟩

/-- An engine's state after its step belongs to its engine alone. -/
theorem LzssLive.engineLive {s : State} (h : LzssLive s) (he : s.lcfg.engine = engineLzss) : EngineLive s :=
  ⟨h.readers, h.window, fun _ => h.engine, fun he' => by (rw [he] at he'; cases he')⟩

theorem HuffmanLive.engineLive {s : State} (h : HuffmanLive s) (he : s.lcfg.engine = engineHuffman)
    (hp : s.phase = .hufSym) : EngineLive s :=
  ⟨h.readers, h.window, fun he' => by (rw [he] at he'; cases he'),
    fun _ => ⟨.inr hp, h.nodes, fun hb => by (rw [hp] at hb; cases hb)⟩⟩

/-- A Huffman step that has not faulted ends in `HUF_SYM`, or has not left `HUF_BUILD` (R145). -/
theorem StepEnd.phase_huffman {s t : State} (h : StepEnd s t) (ha : t.sess = .active)
    (hp : s.phase = .hufBuild ∨ s.phase = .hufSym) :
    t.phase = .hufSym ∨ (s.phase = .hufBuild ∧ t.phase = .hufBuild) := by
  cases h with
  | fault f u raised => subst raised; cases ha
  | ended _ _ _ _ phase => rcases hp with hp | hp <;> simp [phase, hp]
  | emitted _ _ _ _ _ phase => rcases hp with hp | hp <;> simp_all
  | quiet _ _ _ phase => rcases hp with hp | hp <;> simp_all

/-- A step that does not fault leaves its engine in order. -/
theorem engineStep_live {s t : State} (h : Running s) (he : s.eos = false) (hs : engineStep s = .next t)
    (ha : t.sess = .active) : EngineLive t := by
  obtain ⟨hend, hk⟩ := engineStep_end he h.between hs
  have hkeng : t.lcfg.engine = s.lcfg.engine := by rw [hk.lcfg]
  unfold engineStep at hs
  rcases h.engine_cases with hz | hz
  · have hlive := h.lzssLive hz
    refine LzssLive.engineLive ?_ (hkeng.trans hz)
    rcases hlive.engine.phase with hp | hp <;> rw [hp] at hs
    · exact lzTokenStep_live hlive hs ha
    · cases hs; exact hlive.lzCopyStep
  · have hlive := h.huffmanLive hz
    have hphase := (h.active.huffman hz).phase
    have hend := hend.phase_huffman ha hphase
    rcases hphase with hp | hp <;> rw [hp] at hs
    · have htp : t.phase = .hufSym := hend.resolve_right fun hb => hufBuildLoop_phase _ hs hb.2
      exact (hufBuildLoop_live _ hlive hs).engineLive (hkeng.trans hz) htp
    · have htp : t.phase = .hufSym := hend.resolve_right fun hb => by rw [hp] at hb; cases hb.1
      exact (hufSymStep_live hlive hs).engineLive (hkeng.trans hz) htp

/-- What a step that does not fault owes besides: the memory, the target, and that EOS of a bounded session is the target. -/
theorem Running.of_step {s t : State} (h : Running s) (hk : StepKept s t) (hg : Going s t) (he : EngineLive t)
    (hm : Memory.wf t.mem = true) (ha : ∀ c ∈ t.mem, c.1 < 2 ^ s.params.outAw)
    (ht : s.lcfg.bounded = true → t.outTotal.toNat ≤ s.lcfg.unpackedSize.toNat)
    (hend : s.lcfg.bounded = true → t.eos = false) {n : Word} (hr : t.run = .between n) : Running t where
  canonical := h.canonical.of_kept hk hm ha he.window
  sess := hg.sess.trans h.sess
  driven := by rw [hk.lcfg]; exact h.driven
  active :=
    { readers := he.readers
      lzss := he.lzss
      huffman := he.huffman
      raw := fun hraw => absurd (hk.lcfg ▸ hraw) h.driven
      known := by rw [hk.lcfg]; exact h.active.known
      target := by rw [hk.lcfg]; exact ht
      ended := fun hb heos => by rw [hk.lcfg] at hb; rw [hend hb] at heos; cases heos }
  between := by rw [hr]; rfl
  cause := hg.cause.trans h.cause

/-- An engine step from a running session that is not at its target ends in a running session or in a fault. -/
theorem engineStep_running {s t : State} (h : Running s) (he : s.eos = false)
    (hb : s.lcfg.bounded = true → s.outTotal ≠ s.lcfg.unpackedSize) (hs : engineStep s = .next t) :
    Running t ∨ ∃ f u, t = raise f u ∧ Canonical u := by
  have hcan := h.canonical
  have hlive := engineStep_live h he hs
  obtain ⟨hend, hk⟩ := engineStep_end he h.between hs
  cases hend with
  | fault f u raised unwritten =>
    subst raised
    have hc : Canonical (raise f u) := by
      refine hcan.of_kept hk ?_ ?_ ?_ <;> simp only [raise_mem, raise_win, unwritten.mem, unwritten.win]
      · exact hcan.memory
      · exact hcan.addresses
      · exact hcan.window
    exact .inr ⟨f, u, rfl, { hc with }⟩
  | ended unwritten going unbounded eos phase run =>
    refine .inl (h.of_step hk going (hlive (going.sess.trans h.sess)) ?_ ?_ ?_ ?_ run)
    · rw [unwritten.mem]; exact hcan.memory
    · rw [unwritten.mem]; exact hcan.addresses
    · rw [unwritten.outTotal]; exact h.active.target
    · intro hb; rw [unbounded] at hb; cases hb
  | emitted b mem outTotal going eos phase run =>
    refine .inl (h.of_step hk going (hlive (going.sess.trans h.sess)) ?_ ?_ ?_ (fun _ => eos) run)
    · rw [mem]; exact Memory.wf_write _ _ hcan.memory
    · rw [mem]; exact Memory.addresses_write hcan.addresses _ _ _
    · intro hbd
      have hle := h.active.target hbd
      have hne := hb hbd
      rw [outTotal]
      bv_omega
  | quiet unwritten going eos phase run =>
    refine .inl (h.of_step hk going (hlive (going.sess.trans h.sess)) ?_ ?_ ?_ (fun _ => eos) run)
    · rw [unwritten.mem]; exact hcan.memory
    · rw [unwritten.mem]; exact hcan.addresses
    · rw [unwritten.outTotal]; exact h.active.target

/-! ### The loop (R133, R137) -/

/-- After `CheckTarget`, a bounded session that goes on is not at its target. -/
theorem checkTarget_ne_target {s : State} (he : (checkTarget s).eos = false) (hb : (checkTarget s).lcfg.bounded = true) :
    (checkTarget s).outTotal ≠ (checkTarget s).lcfg.unpackedSize := by
  rw [checkTarget_eos] at he
  simp_all [targetReached]

/-- `CheckTarget` sets EOS at the target only (R137). -/
theorem Running.checkTarget {s : State} (h : Running s) : Running (checkTarget s) := by
  unfold Machine.checkTarget
  split
  next ht =>
    have htotal : s.outTotal = s.lcfg.unpackedSize := by simp_all [targetReached]
    have hact := h.active
    refine { h with canonical := { h.canonical with }, active := { hact with
      lzss := fun e => { hact.lzss e with }
      huffman := fun e => { hact.huffman e with }
      raw := fun e => absurd e h.driven
      ended := fun _ _ => htotal } }
  next => exact h

/-- The loop ends in a running session or in a fault. -/
theorem contLoop_running {want : Word} (k : Nat) {s t : State} (h : Running s)
    (hs : contLoop want k (checkTarget s) = .next t) : Running t ∨ ∃ f u, t = raise f u ∧ Canonical u := by
  induction k generalizing s with
  | zero => cases hs; exact .inl h.checkTarget
  | succ k ih =>
    unfold contLoop at hs
    split at hs
    next hgo =>
      obtain ⟨u, hu, hs⟩ := andThen_eq_next hs
      have hstep := engineStep_running h.checkTarget hgo.2 (checkTarget_ne_target hgo.2) hu
      split at hs
      next hf =>
        cases hs
        exact hstep
      next hf =>
        obtain hrun | ⟨f, v, rfl, -⟩ := hstep
        · exact ih hrun hs
        · exact absurd rfl hf
    next => cases hs; exact .inl h.checkTarget

/-! ### CONTINUE -/

/-- The end of CONTINUE puts the command's locals to rest (R133). -/
theorem Running.inv_finishCont {s : State} (h : Running s) : Inv (finishCont s) := by
  unfold finishCont
  rw [if_neg (by rw [h.sess]; decide)]
  have hact := h.active
  refine Canonical.inv_active { h.canonical with } h.sess rfl { hact with
    lzss := fun e => { hact.lzss e with }
    huffman := fun e => { hact.huffman e with } } h.cause

/-- An open LZSS or HUFFMAN session is a running one as CONTINUE starts. -/
theorem Inv.running {s : State} (h : Inv s) (ho : engineOpen s = true) : Running s := by
  simp only [engineOpen, Bool.and_eq_true, beq_iff_eq, bne_iff_ne] at ho
  obtain ⟨hsess, hdriven⟩ := ho
  exact ⟨h.canonical, hsess, hdriven, h.active hsess, by rw [h.atRest]; rfl, h.noFault (by rw [hsess]; decide)⟩

/-- CONTINUE keeps the invariant. -/
theorem execCont_keeps_inv {s t : State} (h : Inv s) (hs : execCont s = .next t) : Inv t := by
  unfold execCont at hs
  split at hs
  · cases hs; exact h
  split at hs
  · cases hs; exact h.canonical.inv_raise _
  next ho =>
    rw [show ({ s with run := .rest } : State) = s by rw [← h.atRest]] at hs
    obtain ⟨u, hu, hs⟩ := andThen_eq_next hs
    cases hs
    obtain hrun | ⟨f, v, rfl, hv⟩ := contLoop_running _ (h.running (by simpa using ho)) hu
    · exact hrun.inv_finishCont
    · exact hv.inv_raise f

end Sys2Proof.Machine
end

section
/-! PROOFS. The host's turns (10_state.md R31, R32, 30_encoding.md R85, 70_reset_and_hazards.md R250): a command word, a register
write, a bind and a reset, each as one step; and, read backwards, all that a step can have been. -/

namespace Sys2Proof.Machine

/-! ### A word written to `CMD` (R32) -/

theorem hostTurn_write_cmd {s : State} {addr : Nat} {w : Width} {v : Word} {rest : List HostOp}
    (hops : s.ops = .write addr w v :: rest) (hr : accessReg s.params addr w = .ok .cmd) :
    hostTurn s = .command v { s with ops := rest } := by
  simp only [hostTurn, hops, hr]

/-- A word written to `CMD` that selects an instruction runs it. -/
theorem step_write_cmd {s : State} {addr : Nat} {w : Width} {v : Word} {rest : List HostOp} {i : Instr}
    (hops : s.ops = .write addr w v :: rest) (hr : accessReg s.params addr w = .ok .cmd) (hv : decodeWord v = .ok i) :
    step s = exec i { s with ops := rest } := by
  simp only [step, hostTurn_write_cmd hops hr, hv]

theorem withFetchWord_ops (s : State) (w : Word) :
    (s.withFetchWord 32 w.toNat).ops = .write (s.params.regBase + Reg.cmd.offset) .word w :: s.ops := by
  have hw : BitVec.ofNat 32 (w.toNat % 2 ^ 32) = w := by
    rw [Nat.mod_eq_of_lt w.isLt, BitVec.ofNat_toNat, BitVec.setWidth_eq]
  rw [State.withFetchWord, hw]
  rfl

/-- Settles O7: both writes reach `CMD`, and the second leaves the state it was placed on. -/
theorem stepRunsDecodedCommand : Obligations.StepRunsDecodedCommand := by
  refine ⟨fun s w rest i hops hw => step_write_cmd hops (accessReg_cmd s.params) hw, fun s w i hw => ?_⟩
  exact step_write_cmd (withFetchWord_ops s w) (accessReg_offset s.params .cmd) hw

/-! ### A register write (R31, R36 to R44) -/

theorem hostTurn_write {s : State} {addr : Nat} {w : Width} {v : Word} {rest : List HostOp} {r : Reg}
    (hops : s.ops = .write addr w v :: rest) (hr : accessReg s.params addr w = .ok r) (hne : r ≠ .cmd) :
    hostTurn s = .done (.next (writeReg r v { s with ops := rest })) := by
  simp only [hostTurn, hops, hr]

/-- The aligned word at a register's address, other than `CMD`, is written there, in one step. -/
theorem step_write_offset {s : State} {r : Reg} {v : Word} {rest : List HostOp} (hne : r ≠ .cmd)
    (hops : s.ops = .write (s.params.regBase + r.offset) .word v :: rest) :
    step s = .next (writeReg r v { s with ops := rest }) :=
  step_of_hostTurn_done (hostTurn_write hops (accessReg_offset s.params r) hne)

/-- A write changes only the host's registers. -/
theorem writeReg_frame (r : Reg) (v : Word) (s : State) :
    writeReg r v s = { s with
      cfg := (writeReg r v s).cfg, outAddr := (writeReg r v s).outAddr, count := (writeReg r v s).count } := by
  cases r <;> rfl

/-- What the host reads from a register depends on no pending operation. -/
theorem readReg_withOps (r : Reg) (s : State) (ops : List HostOp) : readReg r { s with ops := ops } = readReg r s := by
  cases r <;> rfl

/-- A write changes what one register reads. -/
theorem readReg_writeReg_of_ne {r r' : Reg} (h : r' ≠ r) (v : Word) (s : State) :
    readReg r' (writeReg r v s) = readReg r' s := by
  cases r
  case cmd | status | cause | result | inPos | ctrlPos | outTotal => rfl
  all_goals cases r' <;> first | rfl | exact absurd rfl h

/-- The writable bits of `OUT_ADDR` are the address reduced to `OUT_AW` bits (R43). -/
theorem and_outAddrMask (p : Params) (v : Word) : v &&& outAddrMask p = BitVec.ofNat 32 (v.toNat % 2 ^ p.outAw) := by
  apply BitVec.eq_of_getLsbD_eq
  intro i hi
  rw [BitVec.getLsbD_and, outAddrMask, BitVec.getLsbD_ofNat, BitVec.getLsbD_ofNat, Nat.testBit_two_pow_sub_one,
    Nat.testBit_mod_two_pow, BitVec.testBit_toNat, Bool.and_comm (v.getLsbD i), Bool.and_assoc]

/-- Settles O55: the step writes the register, `writeReg_frame` and `readReg_writeReg_of_ne` are its frame, and each register
reads its own writable bits. -/
theorem registerWrites : Obligations.RegisterWrites := by
  intro s r v rest hne hops
  refine ⟨_, step_write_offset hne hops, writeReg_frame r v { s with ops := rest }, fun r' hr' => ?_, ?_⟩
  · rw [readReg_writeReg_of_ne hr', readReg_withOps]
  · cases r
    case outAddr => exact and_outAddrMask s.params v
    all_goals rfl

/-! ### A bind and a hardware reset (R85, R250) -/

theorem hostTurn_bind {s : State} {k : Port} {bytes : List Byte} {rest : List HostOp} (hops : s.ops = .bind k bytes :: rest) :
    hostTurn s = .done (.next (bindPort k bytes { s with ops := rest })) := by
  simp only [hostTurn, hops]

theorem hostTurn_reset {s : State} {rest : List HostOp} (hops : s.ops = .reset :: rest) :
    hostTurn s = .done (.next (hardReset { s with ops := rest })) := by
  simp only [hostTurn, hops]

/-- With no operation of the host pending the block waits (R250). -/
theorem step_of_ops_nil {s : State} (hops : s.ops = []) : step s = .next s := by
  simp only [step, hostTurn, hops]

/-- Settles O60, one host turn for each clause. -/
theorem bindAndReset : Obligations.BindAndReset := by
  intro s rest bytes
  exact ⟨fun hops => step_of_hostTurn_done (hostTurn_bind hops), fun hops => step_of_hostTurn_done (hostTurn_bind hops),
    fun hops => step_of_hostTurn_done (hostTurn_reset hops), step_of_ops_nil⟩

/-! ### All that a step can be -/

/-- What a step that completes has done: nothing, or one operation of the host. -/
inductive StepDid (s t : State) : Prop
  | idled (same : t = s)
  | ran (rest : List HostOp) (w : Word) (i : Instr) (word : decodeWord w = .ok i)
      (did : exec i { s with ops := rest } = .next t)
  | rejected (rest : List HostOp) (did : t = illegalCommand { s with ops := rest })
  | wrote (rest : List HostOp) (r : Reg) (v : Word) (did : t = writeReg r v { s with ops := rest })
  | read (rest : List HostOp) (r : Reg) (did : t = { s with ops := rest, busData := some (readReg r s) })
  | bound (rest : List HostOp) (k : Port) (bytes : List Byte) (did : t = bindPort k bytes { s with ops := rest })
  | reset (rest : List HostOp) (did : t = hardReset { s with ops := rest })

theorem stepDid {s t : State} (h : step s = .next t) : StepDid s t := by
  cases hops : s.ops with
  | nil => rw [step_of_ops_nil hops] at h; cases h; exact .idled rfl
  | cons op rest =>
    cases op with
    | write addr w v =>
      cases hr : accessReg s.params addr w with
      | error e => simp [step, hostTurn, hops, hr] at h
      | ok r =>
        by_cases hc : r = .cmd
        · subst hc
          simp only [step, hostTurn_write_cmd hops hr] at h
          split at h
          next i hv => exact .ran rest v i hv h
          next e hv => cases h; exact .rejected rest rfl
        · rw [step_of_hostTurn_done (hostTurn_write hops hr hc)] at h
          cases h
          exact .wrote rest r v rfl
    | read addr w =>
      cases hr : accessReg s.params addr w with
      | error e => simp [step, hostTurn, hops, hr] at h
      | ok r =>
        rw [step_of_hostTurn_done (hostTurn_read hops hr)] at h
        cases h
        exact .read rest r rfl
    | bind k bytes =>
      rw [step_of_hostTurn_done (hostTurn_bind hops)] at h
      cases h
      exact .bound rest k bytes rfl
    | reset =>
      rw [step_of_hostTurn_done (hostTurn_reset hops)] at h
      cases h
      exact .reset rest rfl

end Sys2Proof.Machine
end

section
/-! PROOFS. The invariant of states between host operations is kept by every command and every host operation. -/

namespace Sys2Proof.Machine

/-! ### INIT (R131) -/

/-- INIT opens a session on canonical state: the configuration it latches is the host's. -/
theorem Canonical.openSession {s : State} (h : Canonical s) : Canonical (openSession s) :=
  { h with latched := h.registers }

theorem portLimit_le (c : ConfigRegs) (bytes : List Byte) : portLimit c bytes ≤ bytes.length := by
  unfold portLimit
  split
  · exact min_le_left _ _
  · exact le_refl _

/-- The ports are bound at their start and the readers are empty (R26, R131). -/
theorem openSession_readersOk (s : State) : (openSession s).readersOk :=
  ⟨readerOk_empty _ _ (portLimit_le _ _) (Nat.zero_le _), readerOk_empty _ _ (le_refl s.bound1.length) (Nat.zero_le _)⟩

/-- A configuration that passes INIT's check has a legal frame and field widths the readers serve (R37, R131). -/
theorem startLzss_lzssOk {s : State} (h : s.cfg.badLzss s.params = false) : LzssOk (startLzss (openSession s)) := by
  have hgood : ¬ s.cfg.badLzss s.params = true := by rw [h]; decide
  simp only [badLzss_iff, not_or, not_not, not_lt] at hgood
  obtain ⟨hframe, hd, hl⟩ := hgood
  have hpos : 0 < s.cfg.frame := frameOk_pos hframe
  exact
    { phase := .inl rfl
      frame := hframe
      widths := ⟨hd, hl⟩
      cursor := toNat_ofNat_mod_lt _ hpos
      source := hpos
      controls := Nat.zero_le 8
      copying := fun hc => by cases hc
      cells := fun c hc => by cases hc }

/-- The session INIT opens has emitted nothing and is not at its end, whatever its engine. -/
theorem startLzss_activeOk {s : State} (he : s.cfg.engine = engineLzss) (h : s.cfg.badLzss s.params = false) :
    ActiveOk (startLzss (openSession s)) where
  readers := openSession_readersOk s
  lzss _ := startLzss_lzssOk h
  huffman e := absurd (he.symm.trans e) (by decide)
  raw e := absurd (he.symm.trans e) (by decide)
  known e := absurd (he.symm.trans e) (by decide)
  target _ := Nat.zero_le _
  ended _ e := by cases e

theorem startHuffman_activeOk {s : State} (he : s.cfg.engine = engineHuffman) :
    ActiveOk { openSession s with phase := .hufBuild } where
  readers := openSession_readersOk s
  lzss e := absurd (he.symm.trans e) (by decide)
  huffman _ :=
    ⟨.inl rfl, (by decide : 256 ≤ (256 : BitVec 10).toNat ∧ (256 : BitVec 10).toNat ≤ 512), fun _ => rfl⟩
  raw e := absurd (he.symm.trans e) (by decide)
  known e := absurd (he.symm.trans e) (by decide)
  target _ := Nat.zero_le _
  ended _ e := by cases e

theorem startRaw_activeOk {s : State} (he : s.cfg.engine = engineRaw) : ActiveOk (openSession s) where
  readers := openSession_readersOk s
  lzss e := absurd (he.symm.trans e) (by decide)
  huffman e := absurd (he.symm.trans e) (by decide)
  raw _ := ⟨rfl, rfl⟩
  known e := absurd (he.symm.trans e) (by decide)
  target _ := Nat.zero_le _
  ended _ e := by cases e

theorem execInit_keeps_inv {s t : State} (h : Inv s) (hs : execInit s = .next t) : Inv t := by
  have hopen := h.canonical.openSession
  unfold execInit at hs
  split at hs
  next he =>
    split at hs
    next => cases hs; exact hopen.inv_raise _
    next hgood =>
      cases hs
      exact Canonical.inv_active { hopen with window := Window.wf_filled _ } rfl rfl
        (startLzss_activeOk he (by simpa using hgood)) rfl
  next =>
    split at hs
    next he => cases hs; exact Canonical.inv_active { hopen with } rfl rfl (startHuffman_activeOk he) rfl
    next =>
      split at hs
      next he => cases hs; exact hopen.inv_active rfl rfl (startRaw_activeOk he) rfl
      next => cases hs; exact hopen.inv_raise _

/-! ### The commands of a RAW session and CLOSE (R116, R118, R141) -/

theorem rawOpen_iff {s : State} : rawOpen s = true ↔ s.sess = .active ∧ s.lcfg.engine = engineRaw := by
  simp only [rawOpen, Bool.and_eq_true, beq_iff_eq]

/-- In an open RAW session the invariant speaks of the readers and of what the session's clauses share. -/
theorem Inv.of_raw {s t : State} (h : Inv s) (ho : rawOpen s = true) (hk : t = { s with
      port0 := t.port0, port1 := t.port1, br0 := t.br0, br1 := t.br1, nodata := t.nodata, result := t.result })
    (hr : t.readersOk) : Inv t := by
  obtain ⟨hsess, hraw⟩ := rawOpen_iff.1 ho
  have hact := h.active hsess
  have hcause := h.noFault (by rw [hsess]; decide)
  rw [hk] at hr ⊢
  exact Canonical.inv_active { h.canonical with } hsess h.atRest { hact with
    readers := hr
    lzss := fun e => absurd (hraw.symm.trans e) (by decide)
    huffman := fun e => absurd (hraw.symm.trans e) (by decide) } hcause

/-- A request changes its port and reader alone, and GETBITS records NODATA and RESULT besides. -/
theorem recordBits_getBits_frame (k : Port) (n : Nat) (s : State) :
    recordBits (getBits k n s) = { s with
      port0 := (getBits k n s).2.port0, port1 := (getBits k n s).2.port1
      br0 := (getBits k n s).2.br0, br1 := (getBits k n s).2.br1
      nodata := (recordBits (getBits k n s)).nodata, result := (recordBits (getBits k n s)).result } := by
  cases hg : getBits k n s with
  | mk v u =>
    obtain ⟨pos, r, rfl⟩ := getBits_read_of_eq hg
    cases v <;> cases k <;> rfl

theorem recordBits_readersOk {x : Option Word × State} (h : x.2.readersOk) : (recordBits x).readersOk := by
  obtain ⟨v, s⟩ := x
  cases v <;> exact h

theorem execGetbits_keeps_inv {n : Byte} {s t : State} (h : Inv s) (hs : execGetbits n s = .next t) : Inv t := by
  unfold execGetbits at hs
  split at hs
  · cases hs; exact h
  split at hs
  · cases hs; exact h.canonical.inv_raise _
  next ho =>
    split at hs
    · cases hs; exact h.canonical.inv_raise _
    next hn =>
      have hopen : rawOpen s = true := by simpa using ho
      have hreaders := (h.active (rawOpen_iff.1 hopen).1).readers
      cases hs
      refine h.of_raw hopen ?_ (recordBits_readersOk (getBits_readersOk hreaders (by omega)))
      rw [recordBits_getBits_frame]

/-- An empty reader is within its bounds on any port that is (R118, R119). -/
theorem ReaderOk.emptied {lsb : Bool} {p : InPort} {r : BitReader} (h : ReaderOk lsb p r) : ReaderOk lsb p .empty :=
  readerOk_empty lsb p h.limit h.position

theorem execBitreset_keeps_inv {s t : State} (h : Inv s) (hs : execBitreset s = .next t) : Inv t := by
  unfold execBitreset at hs
  split at hs
  · cases hs; exact h
  split at hs
  · cases hs; exact h.canonical.inv_raise _
  next ho =>
    have hopen : rawOpen s = true := by simpa using ho
    obtain ⟨h0, h1⟩ := (h.active (rawOpen_iff.1 hopen).1).readers
    cases hs
    exact h.of_raw hopen rfl ⟨h0.emptied, h1⟩

/-- After CLOSE no session is open; a fault that was recorded stays (R141). -/
theorem execClose_keeps_inv {s t : State} (h : Inv s) (hs : execClose s = .next t) : Inv t := by
  cases hs
  by_cases ha : s.sess = .active
  · rw [if_pos ha]
    exact { h with
      active := fun e => by cases e
      closed := fun _ => rfl
      faulted := fun e => by cases e
      noFault := fun _ => h.noFault (by rw [ha]; decide) }
  · rw [if_neg ha]
    exact { h with active := fun e => absurd e ha, closed := fun _ => rfl }

/-- Every command keeps the invariant. -/
theorem exec_keeps_inv {i : Instr} {s t : State} (hi : i.place = none) (h : Inv s) (hs : exec i s = .next t) : Inv t := by
  cases i
  case init => exact execInit_keeps_inv h hs
  case cont => exact execCont_keeps_inv h hs
  case getbits n => exact execGetbits_keeps_inv h hs
  case bitreset => exact execBitreset_keeps_inv h hs
  case close => exact execClose_keeps_inv h hs
  all_goals cases hi

theorem illegalCommand_keeps_inv {s : State} (h : Inv s) : Inv (illegalCommand s) := by
  unfold illegalCommand
  split
  · exact h
  · exact h.canonical.inv_raise _

/-! ### The host's other operations -/

/-- The invariant asks of what the host sets only that reserved fields are 0 and that `OUT_ADDR` fits `OUT_AW`. -/
theorem Inv.hostSide {s : State} (h : Inv s) {c : ConfigRegs} (hc : c.clean = true) {a : Word}
    (ha : a.toNat < 2 ^ s.params.outAw) (n : Word) (b0 b1 : List Byte) (ops : List HostOp) (bus : Option Word) :
    Inv { s with cfg := c, outAddr := a, count := n, bound0 := b0, bound1 := b1, ops := ops, busData := bus } :=
  { h with
    registers := hc
    outAddr := ha
    active := fun hs => { h.active hs with
      lzss := fun e => { (h.active hs).lzss e with }
      huffman := fun e => { (h.active hs).huffman e with } } }

theorem and_mask_and_not (v m : Word) : v &&& m &&& ~~~m = 0 := by
  rw [BitVec.and_assoc, BitVec.and_not_self]
  exact BitVec.and_zero

theorem clean_iff {c : ConfigRegs} : c.clean = true ↔
    c.mode &&& ~~~modeMask = 0 ∧ c.frameFill &&& ~~~fillMask = 0 ∧ c.lzFields &&& ~~~lzFieldsMask = 0 := by
  simp only [ConfigRegs.clean, Bool.and_eq_true, beq_iff_eq, and_assoc]

/-- A register write stores writable bits only (R31). -/
theorem writeReg_clean (r : Reg) (v : Word) {s : State} (h : s.cfg.clean = true) : (writeReg r v s).cfg.clean = true := by
  obtain ⟨hmode, hfill, hfields⟩ := clean_iff.1 h
  cases r
  case mode => exact clean_iff.2 ⟨and_mask_and_not v modeMask, hfill, hfields⟩
  case frameFill => exact clean_iff.2 ⟨hmode, and_mask_and_not v fillMask, hfields⟩
  case lzFields => exact clean_iff.2 ⟨hmode, hfill, and_mask_and_not v lzFieldsMask⟩
  all_goals exact h

/-- `OUT_ADDR` keeps to `OUT_AW` bits (R43). -/
theorem writeReg_outAddr_lt (r : Reg) (v : Word) {s : State} (h : s.outAddr.toNat < 2 ^ s.params.outAw) :
    (writeReg r v s).outAddr.toNat < 2 ^ s.params.outAw := by
  cases r
  case outAddr =>
    show (v &&& outAddrMask s.params).toNat < _
    rw [and_outAddrMask, BitVec.toNat_ofNat]
    exact lt_of_le_of_lt (Nat.mod_le _ _) (Nat.mod_lt _ (by positivity))
  all_goals exact h

theorem writeReg_keeps_inv (r : Reg) (v : Word) {s : State} (h : Inv s) : Inv (writeReg r v s) := by
  rw [writeReg_frame]
  exact h.hostSide (writeReg_clean r v h.registers) (writeReg_outAddr_lt r v h.outAddr) _ s.bound0 s.bound1 s.ops s.busData

theorem bindPort_keeps_inv (k : Port) (bytes : List Byte) {s : State} (h : Inv s) : Inv (bindPort k bytes s) := by
  cases k with
  | p0 => exact h.hostSide h.registers h.outAddr s.count bytes s.bound1 s.ops s.busData
  | p1 => exact h.hostSide h.registers h.outAddr s.count s.bound0 bytes s.ops s.busData

theorem ConfigRegs.clean_zero : ConfigRegs.zero.clean = true := by decide

/-- A reset block is in order whatever it was before (R250). -/
theorem hardReset_keeps_inv {s : State} (h : Inv s) : Inv (hardReset s) where
  params := h.params
  memory := h.memory
  addresses := h.addresses
  window := rfl
  registers := ConfigRegs.clean_zero
  latched := ConfigRegs.clean_zero
  outAddr := Nat.two_pow_pos _
  atRest := rfl
  active e := by cases e
  closed _ := rfl
  faulted e := by cases e
  noFault _ := rfl

/-- Settles O51: every way a step can complete keeps the invariant. -/
theorem everyStepKeepsInv : Obligations.EveryStepKeepsInv := by
  intro s t h hs
  have hops : ∀ rest bus, Inv { s with ops := rest, busData := bus } := fun rest bus =>
    h.hostSide h.registers h.outAddr s.count s.bound0 s.bound1 rest bus
  cases stepDid hs with
  | idled same => rw [same]; exact h
  | ran rest w i word did => exact exec_keeps_inv (decodeWord_place word) (hops rest s.busData) did
  | rejected rest did => rw [did]; exact illegalCommand_keeps_inv (hops rest s.busData)
  | wrote rest r v did => rw [did]; exact writeReg_keeps_inv r v (hops rest s.busData)
  | read rest r did => rw [did]; exact hops rest _
  | bound rest k bytes did => rw [did]; exact bindPort_keeps_inv k bytes (hops rest s.busData)
  | reset rest did => rw [did]; exact hardReset_keeps_inv (hops rest s.busData)

end Sys2Proof.Machine
end

section
/-! PROOFS. The fields of the `STATUS`, `MODE` and `LZ_FIELDS` words (10_state.md R33, R36, R40), and the reset values (R49). -/

namespace Sys2Proof.Machine

/-! ### STATUS (R33) -/

/-- The fields of R33, from bit 31 down: reserved, ENGINE, NODATA, FAULT, EOS, ACTIVE. -/
def packStatus (active eos fault nodata : Bool) (engine : BitVec 2) : Word :=
  (0 : BitVec 26) ++ engine ++ BitVec.ofBool nodata ++ BitVec.ofBool fault ++ BitVec.ofBool eos ++ BitVec.ofBool active

/-- The sum that makes up the `STATUS` word puts each field in its place. -/
theorem statusWord_eq_packStatus (s : State) :
    statusWord s = packStatus (s.sess == .active) s.eos (s.sess == .faulted) s.nodata s.lcfg.engine := by
  have hsum : ∀ (a e f n : Bool) (g : BitVec 2),
      BitVec.ofNat 32 (a.toNat + 2 * e.toNat + 4 * f.toNat + 8 * n.toNat + 16 * g.toNat) = packStatus a e f n g := by
    decide
  exact hsum ..

theorem readReg_status (s : State) : readReg .status s = statusWord s := rfl

theorem packStatus_fields (a e f n : Bool) (g : BitVec 2) :
    (packStatus a e f n g).getLsbD 0 = a ∧ (packStatus a e f n g).getLsbD 1 = e ∧
      (packStatus a e f n g).getLsbD 2 = f ∧ (packStatus a e f n g).getLsbD 3 = n ∧
      (packStatus a e f n g).extractLsb' 4 2 = g ∧ (packStatus a e f n g).extractLsb' 6 26 = 0 := by
  revert a e f n g
  decide

/-- Settles O57: the word is the fields of R33 side by side, so each field reads back. -/
theorem statusFields : Obligations.StatusFields := by
  refine ⟨fun s => ?_, fun p => rfl⟩
  rw [readReg_status, statusWord_eq_packStatus]
  obtain ⟨ha, he, hf, hn, hg, hr⟩ := packStatus_fields (s.sess == .active) s.eos (s.sess == .faulted) s.nodata s.lcfg.engine
  exact ⟨ha, he, hf, hn, hg, hr, fun _ => rfl⟩

/-! ### MODE and LZ_FIELDS (R36, R40) -/

theorem ctrlPort_eq_p1_iff (c : ConfigRegs) : c.ctrlPort = .p1 ↔ c.mode.getLsbD 5 = true := by
  unfold ConfigRegs.ctrlPort
  split <;> simp_all

/-- A field of one bit is that bit. -/
theorem toNat_extractLsb'_one {w : Nat} (x : BitVec w) (i : Nat) : (x.extractLsb' i 1).toNat = (x.getLsbD i).toNat := by
  rw [BitVec.extractLsb'_toNat, BitVec.getLsbD, Nat.toNat_testBit, Nat.shiftRight_eq_div_pow, Nat.pow_one]

/-- Settles O58: each field is read where its register has it. -/
theorem configurationFields : Obligations.ConfigurationFields := fun c =>
  ⟨rfl, rfl, rfl, rfl, ctrlPort_eq_p1_iff c, rfl, rfl, rfl, rfl, (toNat_extractLsb'_one c.lzFields 16).symm, rfl, rfl, rfl⟩

/-! ### Reset (R49) -/

/-- Every register reads 0 after reset. -/
theorem readReg_resetWith (p : Params) (r : Reg) : readReg r (State.resetWith p) = 0 := by
  cases r <;> rfl

/-- Settles O53: the fields hold R49's values as the reset state gives them, and the registers read 0. -/
theorem resetValues : Obligations.ResetValues := fun p =>
  ⟨rfl, rfl, rfl, rfl, rfl, rfl, rfl, rfl, rfl, rfl, rfl, rfl, rfl, rfl, rfl, rfl, rfl, rfl, readReg_resetWith p⟩

end Sys2Proof.Machine
end

section
/-! PROOFS. The host accesses that reach no register are refused (20_memory.md R61). -/

namespace Sys2Proof.Machine

/-! ### The addresses and widths that reach no register (R61) -/

theorem accessReg_outside {p : Params} {addr : Nat} (w : Width)
    (hout : addr < p.regBase ∨ p.regBase + 0x40 ≤ addr) : accessReg p addr w = .error .outsideBlock :=
  if_pos hout

theorem accessReg_partial {p : Params} {addr : Nat} {w : Width} (hlo : p.regBase ≤ addr)
    (hhi : addr < p.regBase + 0x40) (hpart : w ≠ .word ∨ (addr - p.regBase) % 4 ≠ 0) :
    accessReg p addr w = .error .partialAccess := by
  have hin : ¬ (addr < p.regBase ∨ p.regBase + 0x40 ≤ addr) := by omega
  rw [accessReg, if_neg hin, if_pos hpart]

/-! ### The step of such an access -/

/-- A write or a read that reaches no register is refused for the reason `accessReg` gives. -/
theorem step_access_refused {s : State} {addr : Nat} {w : Width} {v : Word} {rest : List HostOp} {e : Refusal}
    (hops : s.ops = .write addr w v :: rest ∨ s.ops = .read addr w :: rest)
    (hr : accessReg s.params addr w = .error e) : step s = .refused e := by
  apply step_of_hostTurn_done
  obtain hwrite | hread := hops
  · simp only [hostTurn, hwrite, hr]
  · simp only [hostTurn, hread, hr]

/-- Settles O59: `accessReg` names the refusal of each kind of access, and the step answers it. -/
theorem partialAccessesRefused : Obligations.PartialAccessesRefused := by
  intro s addr w v rest hops
  refine ⟨fun hlo hhi hpart => ?_, fun hout => ?_⟩
  · exact step_access_refused hops (accessReg_partial hlo hhi hpart)
  · exact step_access_refused hops (accessReg_outside w hout)

end Sys2Proof.Machine
end

section
/-! PROOFS. Stream tokens (30_encoding.md R89 to R97): which bits decode to which token, at each place, and the two bytes of a
back-reference of the classic widths (R93). -/

namespace Sys2Proof

/-! ### A field cut off a stream -/

@[simp] theorem splitBits_fieldBits (lsb : Bool) (n v : Nat) (rest : List Bool) :
    splitBits n (fieldBits lsb n v ++ rest) = some (fieldBits lsb n v, rest) :=
  splitBits_eq_some.2 ⟨length_fieldBits .., rfl⟩

/-- A field cut off a stream is its value written out, and the value fits a vector of the field's width or more. -/
theorem field_of_splitBits {lsb : Bool} {n w : Nat} {bits v rest : List Bool} (hn : n ≤ w)
    (h : splitBits n bits = some (v, rest)) :
    (BitVec.ofNat w (fieldValue lsb v)).toNat < 2 ^ n ∧
      bits = fieldBits lsb n (BitVec.ofNat w (fieldValue lsb v)).toNat ++ rest := by
  obtain ⟨rfl, rfl⟩ := splitBits_eq_some.1 h
  have hlt := fieldValue_lt lsb v
  have hfits : (BitVec.ofNat w (fieldValue lsb v)).toNat = fieldValue lsb v :=
    Nat.mod_eq_of_lt (lt_of_lt_of_le hlt (Nat.pow_le_pow_right (by omega) hn))
  rw [hfits, fieldBits_fieldValue]
  exact ⟨hlt, rfl⟩

/-- A vector written in a field it fits reads back from the field's value. -/
theorem ofNat_fieldValue_fieldBits {lsb : Bool} {n w : Nat} {x : BitVec w} (h : x.toNat < 2 ^ n) :
    BitVec.ofNat w (fieldValue lsb (fieldBits lsb n x.toNat)) = x := by
  rw [fieldValue_fieldBits, Nat.mod_eq_of_lt h, BitVec.ofNat_toNat, BitVec.setWidth_eq]

/-! ### The bits of a token, by place -/

/-- A token of one 8-bit field is the field's eight bits (R90, R91). -/
theorem decodeByteToken_eq_ok {f : Format} {mk : Byte → Instr} {bits rest : List Bool} {i : Instr} :
    decodeByteToken f mk bits = .ok (i, rest) ↔ ∃ b, i = mk b ∧ bits = fieldBits f.lsb 8 b.toNat ++ rest := by
  constructor
  · intro h
    unfold decodeByteToken at h
    split at h
    next v r hv =>
      cases h
      exact ⟨_, rfl, (field_of_splitBits (le_refl 8) hv).2⟩
    next => cases h
  · rintro ⟨b, rfl, rfl⟩
    simp only [decodeByteToken, splitBits_fieldBits, ofNat_fieldValue_fieldBits b.isLt]

/-- A back-reference is its distance field and then its length field (R92). -/
theorem decodeToken_reference_eq_ok {f : Format} {bits rest : List Bool} {i : Instr} (hd : f.distW ≤ 24)
    (hl : f.lenW ≤ 24) :
    decodeToken f .reference bits = .ok (i, rest) ↔
      ∃ d l : BitVec 24, i = .lzRef d l ∧ d.toNat < 2 ^ f.distW ∧ l.toNat < 2 ^ f.lenW ∧
        bits = fieldBits f.lsb f.distW d.toNat ++ (fieldBits f.lsb f.lenW l.toNat ++ rest) := by
  constructor
  · intro h
    simp only [decodeToken] at h
    split at h
    next => cases h
    next dist bits' hdist =>
      split at h
      next => cases h
      next len rest' hlen =>
        cases h
        obtain ⟨hdlt, hdbits⟩ := field_of_splitBits (lsb := f.lsb) hd hdist
        obtain ⟨hllt, hlbits⟩ := field_of_splitBits (lsb := f.lsb) hl hlen
        exact ⟨_, _, rfl, hdlt, hllt, by rw [← hlbits, ← hdbits]⟩
  · rintro ⟨d, l, rfl, hdlt, hllt, rfl⟩
    simp only [decodeToken, splitBits_fieldBits, ofNat_fieldValue_fieldBits hdlt, ofNat_fieldValue_fieldBits hllt]

/-- A tree token is the bit 1, or the bit 0 and its leaf's field (R95). -/
theorem decodeToken_tree_eq_ok {f : Format} {bits rest : List Bool} {i : Instr} :
    decodeToken f .tree bits = .ok (i, rest) ↔
      (i = .hufBranch ∧ bits = true :: rest) ∨
        ∃ v, i = .hufLeaf v ∧ bits = false :: (fieldBits f.lsb 8 v.toNat ++ rest) := by
  match bits with
  | [] => simp [decodeToken]
  | true :: bits => simp [decodeToken, eq_comm]
  | false :: bits => simp [decodeToken, decodeByteToken_eq_ok]

/-- A code token is its bit (R96). -/
theorem decodeToken_code_eq_ok {f : Format} {bits rest : List Bool} {i : Instr} :
    decodeToken f .code bits = .ok (i, rest) ↔
      (i = .hufCode0 ∧ bits = false :: rest) ∨ (i = .hufCode1 ∧ bits = true :: rest) := by
  match bits with
  | [] => simp [decodeToken]
  | true :: bits => simp [decodeToken, eq_comm]
  | false :: bits => simp [decodeToken, eq_comm]

theorem wellFormed_lzRef {f : Format} {d l : BitVec 24} :
    (Instr.lzRef d l).wellFormed f = true ↔
      f.distW ≤ 24 ∧ f.lenW ≤ 24 ∧ d.toNat < 2 ^ f.distW ∧ l.toNat < 2 ^ f.lenW := by
  simp only [Instr.wellFormed, Bool.and_eq_true, decide_eq_true_eq, and_assoc]

/-- Settles O3, token by token: the bits have the shape that the token's place decodes. -/
theorem tokenDecodeEncode : Obligations.TokenDecodeEncode := by
  intro f i p bits rest hwf hp he
  cases i with
  | init | cont | getbits | bitreset | close => cases hp
  | lzCtrl x => cases hp; cases he; exact decodeByteToken_eq_ok.2 ⟨x, rfl, rfl⟩
  | lzLit b => cases hp; cases he; exact decodeByteToken_eq_ok.2 ⟨b, rfl, rfl⟩
  | lzRef d l =>
    cases hp; cases he
    obtain ⟨hd, hl, hdlt, hllt⟩ := wellFormed_lzRef.1 hwf
    exact (decodeToken_reference_eq_ok hd hl).2 ⟨d, l, rfl, hdlt, hllt, List.append_assoc ..⟩
  | hufBranch => cases hp; cases he; exact decodeToken_tree_eq_ok.2 (.inl ⟨rfl, rfl⟩)
  | hufLeaf v => cases hp; cases he; exact decodeToken_tree_eq_ok.2 (.inr ⟨v, rfl, rfl⟩)
  | hufCode0 => cases hp; cases he; exact decodeToken_code_eq_ok.2 (.inl ⟨rfl, rfl⟩)
  | hufCode1 => cases hp; cases he; exact decodeToken_code_eq_ok.2 (.inr ⟨rfl, rfl⟩)

/-- Settles O4, place by place: what decodes there has the shape of the token's encoding. -/
theorem tokenEncodeDecode : Obligations.TokenEncodeDecode := by
  intro f p bits rest i hd hl h
  cases p with
  | ctrl =>
    obtain ⟨x, rfl, rfl⟩ := decodeByteToken_eq_ok.1 h
    exact ⟨rfl, rfl, _, rfl, rfl⟩
  | literal =>
    obtain ⟨b, rfl, rfl⟩ := decodeByteToken_eq_ok.1 h
    exact ⟨rfl, rfl, _, rfl, rfl⟩
  | reference =>
    obtain ⟨d, l, rfl, hdlt, hllt, rfl⟩ := (decodeToken_reference_eq_ok hd hl).1 h
    exact ⟨rfl, wellFormed_lzRef.2 ⟨hd, hl, hdlt, hllt⟩, _, rfl, (List.append_assoc ..).symm⟩
  | tree =>
    obtain ⟨rfl, rfl⟩ | ⟨v, rfl, rfl⟩ := decodeToken_tree_eq_ok.1 h
    · exact ⟨rfl, rfl, _, rfl, rfl⟩
    · exact ⟨rfl, rfl, _, rfl, rfl⟩
  | code =>
    obtain ⟨rfl, rfl⟩ | ⟨rfl, rfl⟩ := decodeToken_code_eq_ok.1 h
    · exact ⟨rfl, rfl, _, rfl, rfl⟩
    · exact ⟨rfl, rfl, _, rfl, rfl⟩

/-! ### The two bytes of a back-reference (R93) -/

/-- The bits of two fields side by side: the low one first LSB-first, the high one first MSB-first. -/
theorem fieldBits_append (lsb : Bool) {a b : Nat} (x : BitVec a) (y : BitVec b) :
    fieldBits lsb (b + a) (x ++ y).toNat =
      if lsb then fieldBits lsb b y.toNat ++ fieldBits lsb a x.toNat
      else fieldBits lsb a x.toNat ++ fieldBits lsb b y.toNat := by
  have hhigh : fieldBits lsb a ((x ++ y).toNat >>> b) = fieldBits lsb a x.toNat := by
    apply fieldBits_congr
    intro i _
    simp only [Nat.testBit_shiftRight, BitVec.testBit_toNat, BitVec.getLsbD_append]
    simp
  have hlow : fieldBits lsb b (x ++ y).toNat = fieldBits lsb b y.toNat := by
    apply fieldBits_congr
    intro i hi
    simp only [BitVec.testBit_toNat, BitVec.getLsbD_append, hi, if_true]
  rw [fieldBits_add, hhigh, hlow]

theorem byte_eq_nibbles (b : Byte) : b = b.extractLsb' 4 4 ++ b.extractLsb' 0 4 :=
  BitVec.extractLsb'_eq_self.symm.trans
    (BitVec.extractLsb'_append_extractLsb'_eq_extractLsb' (len₁ := 4) (len₂ := 4) rfl).symm

/-- A back-reference of the classic widths, from the bits of its fields. -/
theorem decodeToken_reference_12_4 (lsb : Bool) (d : BitVec 12) (l : BitVec 4) (rest : List Bool) :
    decodeToken ⟨lsb, 12, 4⟩ .reference (fieldBits lsb 12 d.toNat ++ (fieldBits lsb 4 l.toNat ++ rest)) =
      .ok (.lzRef (d.setWidth 24) (l.setWidth 24), rest) := by
  have hd : (d.setWidth 24).toNat = d.toNat := BitVec.toNat_setWidth_of_le (by omega)
  have hl : (l.setWidth 24).toNat = l.toNat := BitVec.toNat_setWidth_of_le (by omega)
  have hiff := decodeToken_reference_eq_ok (f := ⟨lsb, 12, 4⟩) (i := .lzRef (d.setWidth 24) (l.setWidth 24))
    (bits := fieldBits lsb 12 d.toNat ++ (fieldBits lsb 4 l.toNat ++ rest)) (rest := rest)
    (Nat.le_add_right 12 12) (Nat.le_add_right 4 20)
  refine hiff.2 ⟨_, _, rfl, ?_, ?_, ?_⟩
  · rw [hd]; exact d.isLt
  · rw [hl]; exact l.isLt
  · rw [hd, hl]

theorem bitStream_reference_msb (b0 b1 : Byte) (rest : List Bool) :
    bitStream false [b0, b1] ++ rest =
      fieldBits false 12 (b0 ++ b1.extractLsb' 4 4).toNat ++ (fieldBits false 4 (b1.extractLsb' 0 4).toNat ++ rest) := by
  have h1 := fieldBits_append false (b1.extractLsb' 4 4) (b1.extractLsb' 0 4)
  rw [← byte_eq_nibbles] at h1
  have hd := fieldBits_append false b0 (b1.extractLsb' 4 4)
  simp only [Bool.false_eq_true, if_false, Nat.reduceAdd] at h1 hd
  simp [bitStream_cons, h1, hd]

theorem bitStream_reference_lsb (b0 b1 : Byte) (rest : List Bool) :
    bitStream true [b0, b1] ++ rest =
      fieldBits true 12 (b1.extractLsb' 0 4 ++ b0).toNat ++ (fieldBits true 4 (b1.extractLsb' 4 4).toNat ++ rest) := by
  have h1 := fieldBits_append true (b1.extractLsb' 4 4) (b1.extractLsb' 0 4)
  rw [← byte_eq_nibbles] at h1
  have hd := fieldBits_append true (b1.extractLsb' 0 4) b0
  simp only [if_true, Nat.reduceAdd] at h1 hd
  simp [bitStream_cons, h1, hd]

/-- Settles O6: in each variant the two bytes are the bits of R93's fields. -/
theorem backReferenceBytes : Obligations.BackReferenceBytes := by
  refine ⟨fun b0 b1 rest => ⟨?_, ?_⟩, by decide, by decide⟩
  · rw [bitStream_reference_msb, decodeToken_reference_12_4]
  · rw [bitStream_reference_lsb, decodeToken_reference_12_4]

end Sys2Proof
end

section
/-! PROOFS. Command words (30_encoding.md R81 to R88): a word is its three fields, the round trip of R84, and what a word that
R84 does not select does. -/

namespace Sys2Proof

/-! ### The fields of a word (R81) -/

/-- A word is determined by its three fields. -/
theorem word_ext {v w : Word} (hr : reservedField v = reservedField w) (hn : countField v = countField w)
    (hop : opField v = opField w) : v = w := by
  simp only [reservedField, countField, opField, ← BitVec.toNat_inj, BitVec.extractLsb'_toNat] at *
  omega

@[simp] theorem opField_packWord (op n : Byte) : opField (packWord op n) = op := by
  ext i hi
  simp [opField, packWord, hi, show i < 32 by omega]

@[simp] theorem countField_packWord (op n : Byte) : countField (packWord op n) = n := by
  ext i hi
  simp [countField, packWord, hi, show 8 + i < 32 by omega]

@[simp] theorem reservedField_packWord (op n : Byte) : reservedField (packWord op n) = 0 := by
  ext i hi
  have hn : n.getLsbD (16 + i - 8) = false := BitVec.getLsbD_of_ge _ _ (by omega)
  have hop : op.getLsbD (16 + i) = false := BitVec.getLsbD_of_ge _ _ (by omega)
  simp [reservedField, packWord, hn, hop]

/-- A word is packed from a count and an opcode exactly when its fields are these and `RSV` is 0. -/
theorem eq_packWord_iff {op n : Byte} {w : Word} :
    w = packWord op n ↔ reservedField w = 0 ∧ countField w = n ∧ opField w = op := by
  constructor
  · rintro rfl
    exact ⟨reservedField_packWord op n, countField_packWord op n, opField_packWord op n⟩
  · rintro ⟨hr, hn, hop⟩
    apply word_ext
    · rw [hr, reservedField_packWord]
    · rw [hn, countField_packWord]
    · rw [hop, opField_packWord]

/-! ### The round trip (R82, R84) -/

theorem plainCommand_eq_ok {w : Word} {c i : Instr} : plainCommand w c = .ok i ↔ countField w = 0 ∧ i = c := by
  unfold plainCommand
  split <;> simp_all [eq_comm]

/-- The five words of R82: what a word that decodes is packed from. -/
theorem decodeWord_eq_ok {w : Word} {i : Instr} (h : decodeWord w = .ok i) :
    (i = .init ∧ w = packWord 1 0) ∨ (i = .cont ∧ w = packWord 2 0) ∨ (∃ n, i = .getbits n ∧ w = packWord 3 n) ∨
      (i = .bitreset ∧ w = packWord 4 0) ∨ (i = .close ∧ w = packWord 5 0) := by
  simp only [eq_packWord_iff]
  unfold decodeWord at h
  split at h
  next => cases h
  next hr =>
    have hr := not_not.1 hr
    split at h
    next hop => obtain ⟨hn, rfl⟩ := plainCommand_eq_ok.1 h; exact .inl ⟨rfl, hr, hn, hop⟩
    split at h
    next hop => obtain ⟨hn, rfl⟩ := plainCommand_eq_ok.1 h; exact .inr (.inl ⟨rfl, hr, hn, hop⟩)
    split at h
    next hop => cases h; exact .inr (.inr (.inl ⟨_, rfl, hr, rfl, hop⟩))
    split at h
    next hop => obtain ⟨hn, rfl⟩ := plainCommand_eq_ok.1 h; exact .inr (.inr (.inr (.inl ⟨rfl, hr, hn, hop⟩)))
    split at h
    next hop => obtain ⟨hn, rfl⟩ := plainCommand_eq_ok.1 h; exact .inr (.inr (.inr (.inr ⟨rfl, hr, hn, hop⟩)))
    next => cases h

/-- A word selects the command it encodes, and no other instruction. -/
theorem decodeWord_eq_ok_iff (f : Format) {w : Word} {i : Instr} : decodeWord w = .ok i ↔ encode f i = .word w := by
  constructor
  · intro h
    obtain ⟨rfl, rfl⟩ | ⟨rfl, rfl⟩ | ⟨n, rfl, rfl⟩ | ⟨rfl, rfl⟩ | ⟨rfl, rfl⟩ := decodeWord_eq_ok h <;> rfl
  · intro h
    cases i with
    | init | cont | getbits _ | bitreset | close => cases h; simp [decodeWord, plainCommand]
    | lzCtrl | lzLit | lzRef | hufBranch | hufLeaf | hufCode0 | hufCode1 => cases h

/-- A word with the fields a command is packed from selects that command. -/
theorem decodeWord_of_fields {i : Instr} {op n : Byte} {w : Word} (hi : ∀ f, encode f i = .word (packWord op n))
    (hr : reservedField w = 0) (hn : countField w = n) (hop : opField w = op) : decodeWord w = .ok i := by
  rw [decodeWord_eq_ok_iff ⟨false, 0, 0⟩, hi, eq_packWord_iff.2 ⟨hr, hn, hop⟩]

/-- The four bytes of a word, from the lowest address up, are the word (R62). -/
theorem wordOfBytes_wordBytes (w : Word) :
    wordOfBytes (w.extractLsb' 0 8) (w.extractLsb' 8 8) (w.extractLsb' 16 8) (w.extractLsb' 24 8) = w := by
  ext i hi
  simp only [wordOfBytes, BitVec.getElem_or, BitVec.getElem_shiftLeft, BitVec.getElem_setWidth,
    BitVec.getLsbD_extractLsb']
  grind

theorem decodeBytes_wordBytes {w : Word} {i : Instr} (h : decodeWord w = .ok i) (rest : List Byte) :
    decodeBytes (wordBytes w ++ rest) = .ok (i, rest) := by
  simp only [wordBytes, List.cons_append, List.nil_append, decodeBytes, wordOfBytes_wordBytes, h]

/-- Settles O2: a word and the command it encodes determine each other, and its bytes are the word. -/
theorem commandDecodeEncode : Obligations.CommandDecodeEncode := by
  refine ⟨fun f i w rest h => ?_, fun f w i h => (decodeWord_eq_ok_iff f).1 h⟩
  exact decodeBytes_wordBytes ((decodeWord_eq_ok_iff f).2 h) rest

/-! ### Which words are commands (R84) -/

/-- A word selects an instruction exactly when its fields are as R84 says. -/
theorem decodeWord_selects_iff {w : Word} :
    (∃ i, decodeWord w = .ok i) ↔
      reservedField w = 0 ∧ 1 ≤ (opField w).toNat ∧ (opField w).toNat ≤ 5 ∧ (opField w = 3 ∨ countField w = 0) := by
  constructor
  · rintro ⟨i, h⟩
    obtain ⟨-, rfl⟩ | ⟨-, rfl⟩ | ⟨n, -, rfl⟩ | ⟨-, rfl⟩ | ⟨-, rfl⟩ := decodeWord_eq_ok h <;> simp
  · rintro ⟨hr, h1, h5, hn⟩
    have hop : opField w = 1 ∨ opField w = 2 ∨ opField w = 3 ∨ opField w = 4 ∨ opField w = 5 := by bv_omega
    have hplain (hne : opField w ≠ 3) : countField w = 0 := hn.resolve_left hne
    obtain hop | hop | hop | hop | hop := hop
    · exact ⟨.init, decodeWord_of_fields (fun _ => rfl) hr (hplain (by rw [hop]; decide)) hop⟩
    · exact ⟨.cont, decodeWord_of_fields (fun _ => rfl) hr (hplain (by rw [hop]; decide)) hop⟩
    · exact ⟨.getbits _, decodeWord_of_fields (fun _ => rfl) hr rfl hop⟩
    · exact ⟨.bitreset, decodeWord_of_fields (fun _ => rfl) hr (hplain (by rw [hop]; decide)) hop⟩
    · exact ⟨.close, decodeWord_of_fields (fun _ => rfl) hr (hplain (by rw [hop]; decide)) hop⟩

/-- A command without a count is one word: its mask is 0xFFFFFFFF. -/
theorem decodeWord_eq_ok_iff_mask {i : Instr} {c : Word} (h : ∀ f, encode f i = .word c) (w : Word) :
    decodeWord w = .ok i ↔ w &&& 0xFFFFFFFF = c := by
  rw [decodeWord_eq_ok_iff ⟨false, 0, 0⟩, h, show w &&& 0xFFFFFFFF = w from BitVec.and_allOnes, Encoded.word.injEq, eq_comm]

/-- `getbits` has any count: its mask 0xFFFF00FF leaves `N` out. -/
theorem decodeWord_getbits_iff_mask (w : Word) :
    (∃ n, decodeWord w = .ok (.getbits n)) ↔ w &&& 0xFFFF00FF = 0x00000003 := by
  have hr : reservedField (w &&& 0xFFFF00FF) = reservedField w := BitVec.extractLsb'_and.trans BitVec.and_allOnes
  have hn : countField (w &&& 0xFFFF00FF) = 0 := BitVec.extractLsb'_and.trans BitVec.and_zero
  have hop : opField (w &&& 0xFFFF00FF) = opField w := BitVec.extractLsb'_and.trans BitVec.and_allOnes
  have hmask : w &&& 0xFFFF00FF = packWord 3 0 ↔ reservedField w = 0 ∧ opField w = 3 := by
    rw [eq_packWord_iff, hr, hn, hop, eq_self_iff_true, true_and]
  rw [show (0x00000003 : Word) = packWord 3 0 from rfl, hmask]
  constructor
  · rintro ⟨n, h⟩
    obtain rfl : packWord 3 n = w := Encoded.word.inj ((decodeWord_eq_ok_iff ⟨false, 0, 0⟩).1 h)
    exact ⟨reservedField_packWord 3 n, opField_packWord 3 n⟩
  · rintro ⟨hr, hop⟩
    exact ⟨_, decodeWord_of_fields (fun _ => rfl) hr rfl hop⟩

/-- Settles O1: the fields decide, and each command's word gives its match and mask. -/
theorem commandWordSelection : Obligations.CommandWordSelection :=
  ⟨fun _ => decodeWord_selects_iff, fun w =>
    ⟨decodeWord_eq_ok_iff_mask (fun _ => rfl) w, decodeWord_eq_ok_iff_mask (fun _ => rfl) w,
      decodeWord_getbits_iff_mask w, decodeWord_eq_ok_iff_mask (fun _ => rfl) w,
      decodeWord_eq_ok_iff_mask (fun _ => rfl) w⟩⟩

/-- Settles O5: each word written out selects its command, or is illegal for the reason R88 gives. -/
theorem commandWordsOfTheSpec : Obligations.CommandWordsOfTheSpec := by
  unfold Obligations.CommandWordsOfTheSpec
  decide

end Sys2Proof

namespace Sys2Proof.Machine

/-! ### Illegal words (R88) -/

/-- A word written to `CMD` that selects no instruction is illegal. -/
theorem step_write_cmd_illegal {s : State} {addr : Nat} {w : Width} {v : Word} {rest : List HostOp}
    (hops : s.ops = .write addr w v :: rest) (hr : accessReg s.params addr w = .ok .cmd)
    (hv : ¬∃ i, decodeWord v = .ok i) : step s = .next (illegalCommand { s with ops := rest }) := by
  simp only [step, hostTurn_write_cmd hops hr]
  cases hd : decodeWord v with
  | ok i => exact absurd ⟨i, hd⟩ hv
  | error e => rfl

/-- Settles O9: each of R88's three cases fails R84's condition, so the word is illegal. -/
theorem illegalWords : Obligations.IllegalWords := by
  intro s w rest hops hw
  have hnone : ¬∃ i, decodeWord w = .ok i := by
    rw [decodeWord_selects_iff]
    rintro ⟨hr, h1, h5, hn⟩
    obtain h | h | h | ⟨hne, h⟩ := hw
    · exact h hr
    · exact absurd (h ▸ h1) (by decide)
    · exact absurd h5 (not_le.2 h)
    · exact hn.elim hne h
  rw [step_write_cmd_illegal hops (accessReg_cmd s.params) hnone, illegalCommand]
  split <;> rfl

end Sys2Proof.Machine
end

section
/-! PROOFS. The fetch of a stream token through the bit readers (30_encoding.md R95, R97, 40_bitreader.md R110 to R115): it decodes
the token at the front of the port's bit stream. -/

namespace Sys2Proof.Machine

/-! ### A request (R110, R115) -/

/-- A request cuts its field off the bits still to be delivered and returns the field's value, or ends in NODATA where too few
bits are left. -/
theorem readBits_splitBits {lsb : Bool} {n : Nat} {p : InPort} {r : BitReader} (h : ReaderOk lsb p r)
    (hn : n ≤ maxRequest lsb) :
    (∃ v rest x p' r', splitBits n (pendingBits lsb p r) = some (v, rest) ∧ readBits lsb n p r = (some x, p', r') ∧
        x.toNat = fieldValue lsb v ∧ pendingBits lsb p' r' = rest) ∨
      ∃ p' r', splitBits n (pendingBits lsb p r) = none ∧ readBits lsb n p r = (none, p', r') := by
  obtain ⟨ok, p', r', he, -, -, -, hpending, hfull, hshort, -⟩ := fillBits_spec (k := n) h.inside hn (by omega)
  rw [← hpending]
  unfold readBits
  rw [he]
  cases ok with
  | false =>
    obtain ⟨hlt, hend⟩ := hshort rfl
    refine .inr ⟨p', r', splitBits_eq_none.2 ?_, rfl⟩
    simpa [pendingBits, hend] using hlt
  | true =>
    have hle := hfull rfl
    have h32 : n ≤ 32 := by unfold maxRequest at hn; split at hn <;> omega
    refine .inl ⟨_, _, _, _, _, splitBits_eq_some.2 ⟨?_, ?_⟩, rfl, take_value hle h32, rfl⟩
    · simpa using hle
    · rw [pendingBits, pendingBits, take_bits hle, ← List.append_assoc, List.take_append_drop]

/-- `readBits_splitBits` for port k of a session. -/
theorem getBits_splitBits {k : Port} {n : Nat} {s : State} (h : s.readersOk) (hn : n ≤ maxRequest s.lcfg.lsb) :
    (∃ v rest x t, splitBits n (s.pending k) = some (v, rest) ∧ getBits k n s = (some x, t) ∧
        x.toNat = fieldValue s.lcfg.lsb v ∧ t.pending k = rest) ∨
      ∃ t, splitBits n (s.pending k) = none ∧ getBits k n s = (none, t) := by
  have hk : ReaderOk s.lcfg.lsb (s.port k) (s.reader k) := by
    cases k with
    | p0 => exact h.1
    | p1 => exact h.2
  obtain ⟨v, rest, x, p', r', hs, hr, hx, hrest⟩ | ⟨p', r', hs, hr⟩ := readBits_splitBits hk hn
  · exact .inl ⟨v, rest, x, s.setInput k p' r', hs, by simp only [getBits, hr], hx, by simpa [State.pending] using hrest⟩
  · exact .inr ⟨s.setInput k p' r', hs, by simp only [getBits, hr]⟩

/-- A request for one bit takes the first bit of the stream. -/
theorem getBits_one {k : Port} {s : State} (h : s.readersOk) :
    (∃ b t, s.pending k = b :: t.pending k ∧ getBits k 1 s = (some (BitVec.ofNat 32 b.toNat), t)) ∨
      ∃ t, s.pending k = [] ∧ getBits k 1 s = (none, t) := by
  obtain ⟨v, rest, x, t, hs, hg, hx, rfl⟩ | ⟨t, hs, hg⟩ :=
    getBits_splitBits (k := k) (n := 1) h (le_maxRequest (by omega) _)
  · obtain ⟨hlen, hbits⟩ := splitBits_eq_some.1 hs
    obtain ⟨b, rfl⟩ := List.length_eq_one_iff.1 hlen
    have hvalue : fieldValue s.lcfg.lsb [b] = b.toNat := by cases s.lcfg.lsb <;> simp [fieldValue, lowValue]
    refine .inl ⟨b, t, hbits, ?_⟩
    rw [hg, ← hvalue, ← hx, BitVec.ofNat_toNat, BitVec.setWidth_eq]
  · exact .inr ⟨t, by simpa using splitBits_eq_none.1 hs, hg⟩

/-! ### A token -/

/-- The fetch through port k's reader gives the token decoded and leaves its rest to be delivered, or is exhausted where the
decoder finds no token. -/
def Fetched.Decodes (k : Port) : Except DecodeError (Instr × List Bool) → Fetched → Prop
  | .ok (i, rest), x => ∃ t, x = .token i t ∧ t.pending k = rest
  | .error _, x => ∃ t, x = .exhausted t

theorem fetchByte_decodes (k : Port) (mk : Byte → Instr) {s : State} (h : s.readersOk) :
    Fetched.Decodes k (decodeByteToken s.lcfg.format mk (s.pending k)) (fetchByte k mk s) := by
  unfold fetchByte decodeByteToken
  obtain ⟨v, rest, x, t, hs, hg, hx, hrest⟩ | ⟨t, hs, hg⟩ :=
    getBits_splitBits (k := k) (n := 8) h (le_maxRequest (by omega) _)
  · rw [hs, hg]
    refine ⟨t, ?_, hrest⟩
    show Fetched.token _ t = Fetched.token (mk (BitVec.ofNat 8 (fieldValue s.lcfg.lsb v))) t
    rw [← hx, BitVec.ofNat_toNat]
  · rw [hs, hg]
    exact ⟨t, rfl⟩

/-- A fetch at a place decodes the token of that place (R97). -/
theorem fetchToken_decodes (p : Place) {s : State} (h : s.readersOk) (hd : s.lcfg.distW ≤ 24) (hl : s.lcfg.lenW ≤ 24) :
    Fetched.Decodes (inputPort s.lcfg p) (decodeToken s.lcfg.format p (s.pending (inputPort s.lcfg p))) (fetchToken p s) := by
  cases p with
  | ctrl => exact fetchByte_decodes s.lcfg.ctrlPort .lzCtrl h
  | literal => exact fetchByte_decodes .p0 .lzLit h
  | reference =>
    simp only [fetchToken, decodeToken, inputPort, ConfigRegs.format]
    obtain ⟨d, rest, x, t, hs, hg, hx, rfl⟩ | ⟨t, hs, hg⟩ := getBits_splitBits (k := .p0) h (le_maxRequest hd _)
    · have ht := getBits_readersOk_of_eq h (le_maxRequest hd _) hg
      have hlcfg : t.lcfg = s.lcfg := (getBits_read_of_eq hg).kept.lcfg
      obtain ⟨l, rest, y, u, hs', hg', hy, hrest⟩ | ⟨u, hs', hg'⟩ :=
        getBits_splitBits (k := .p0) (n := t.lcfg.lenW) ht (le_maxRequest (hlcfg ▸ hl) _)
      · rw [hlcfg] at hs' hg' hy
        simp only [hs, hg, hs', hg', hlcfg]
        refine ⟨u, ?_, hrest⟩
        rw [← hx, ← hy, BitVec.ofNat_toNat, BitVec.ofNat_toNat]
      · rw [hlcfg] at hs' hg'
        simp only [hs, hg, hs', hg', hlcfg]
        exact ⟨u, rfl⟩
    · simp only [hs, hg]
      exact ⟨t, rfl⟩
  | tree =>
    simp only [fetchToken, inputPort]
    obtain ⟨b, t, hs, hg⟩ | ⟨t, hs, hg⟩ := getBits_one (k := .p0) h
    · have ht := getBits_readersOk_of_eq h (le_maxRequest (by omega) _) hg
      have hlcfg : t.lcfg = s.lcfg := (getBits_read_of_eq hg).kept.lcfg
      rw [hs, hg]
      cases b with
      | true => exact ⟨t, rfl, rfl⟩
      | false =>
        have hleaf := fetchByte_decodes .p0 .hufLeaf ht
        rwa [hlcfg] at hleaf
    · rw [hs, hg]
      exact ⟨t, rfl⟩
  | code =>
    simp only [fetchToken, inputPort]
    obtain ⟨b, t, hs, hg⟩ | ⟨t, hs, hg⟩ := getBits_one (k := .p0) h
    · rw [hs, hg]
      cases b with
      | true => exact ⟨t, rfl, rfl⟩
      | false => exact ⟨t, rfl, rfl⟩
    · rw [hs, hg]
      exact ⟨t, rfl⟩

/-- A state that differs in port k and its reader alone is the old state with both replaced. -/
theorem InputRead.eq_setInput {k : Port} {s t : State} (h : InputRead k s t) : t = s.setInput k (t.port k) (t.reader k) := by
  obtain ⟨pos, r, rfl⟩ := h
  rw [setInput_port, setInput_reader]

theorem fetchToken_after_read (p : Place) (s : State) : InputRead (inputPort s.lcfg p) s (fetchToken p s).after := by
  obtain ⟨i, t, h, -, hr⟩ | ⟨t, h, hr⟩ := fetchToken_read p s <;> rw [h] <;> exact hr

/-- Settles O14: the token and its bits are `fetchToken_decodes`; what the fetch leaves otherwise holds of any fetch. -/
theorem fetchDecodesTheBitStream : Obligations.FetchDecodesTheBitStream := by
  intro p s h hd hl
  have hdecodes := fetchToken_decodes p h hd hl
  have hready := fetchToken_readersOk p h (fun _ => ⟨hd, hl⟩)
  have hframe := (fetchToken_after_read p s).eq_setInput
  split
  next i rest hdec =>
    rw [hdec] at hdecodes
    obtain ⟨t, ht, hrest⟩ := hdecodes
    rw [ht] at hready hframe
    exact ⟨t, ht, hrest, hready, hframe⟩
  next e hdec =>
    rw [hdec] at hdecodes
    obtain ⟨t, ht⟩ := hdecodes
    rw [ht] at hready hframe
    exact ⟨t, ht, hready, hframe⟩

end Sys2Proof.Machine
end

section
/-! PROOFS. The order of control bits (30_encoding.md R90, 42_lzss.md R162), and the places where stream tokens run (R97, R134). -/

namespace Sys2Proof.Machine

/-! ### The bits of a control byte -/

/-- The item a control bit selects: bit 7 or bit 0 of the shift register, in the sense `INV` sets (R90). -/
theorem takeCtrlBit_sel (s : State) :
    (takeCtrlBit s).run.sel =
      some (if s.ctrlSr.getLsbD (if s.lcfg.cord then 7 else 0) != s.lcfg.inv then .literal else .reference) := by
  unfold takeCtrlBit
  cases s.lcfg.cord <;> rfl

@[simp] theorem takeCtrlBit_iterate_lcfg (s : State) (j : Nat) : (takeCtrlBit^[j] s).lcfg = s.lcfg := by
  induction j with
  | zero => rfl
  | succ j ih => rw [Function.iterate_succ_apply', takeCtrlBit_lcfg, ih]

/-- After j bits the shift register has moved by j places. -/
theorem takeCtrlBit_iterate_ctrlSr (s : State) (j : Nat) :
    (takeCtrlBit^[j] s).ctrlSr = if s.lcfg.cord then s.ctrlSr <<< j else s.ctrlSr >>> j := by
  induction j with
  | zero => simp
  | succ j ih =>
    rw [Function.iterate_succ_apply', takeCtrlBit_ctrlSr, takeCtrlBit_iterate_lcfg, ih]
    split
    · exact (BitVec.shiftLeft_add ..).symm
    · exact (BitVec.shiftRight_add ..).symm

/-- Each bit taken leaves one bit fewer. -/
theorem takeCtrlBit_iterate_ctrlLeft (s : State) {j : Nat} (h : j ≤ s.ctrlLeft.toNat) :
    (takeCtrlBit^[j] s).ctrlLeft.toNat = s.ctrlLeft.toNat - j := by
  induction j with
  | zero => rfl
  | succ j ih =>
    have hj := ih (by omega)
    rw [Function.iterate_succ_apply', takeCtrlBit_ctrlLeft]
    bv_omega

/-- Settles O32: before the j-th bit the register has moved by j places, which brings that bit to the end it is taken from. -/
theorem controlBitOrder : Obligations.ControlBitOrder := by
  intro s x j hj
  constructor
  · rw [Function.iterate_succ_apply', takeCtrlBit_sel, takeCtrlBit_iterate_lcfg, takeCtrlBit_iterate_ctrlSr]
    have hbit : (if s.lcfg.cord then x <<< j else x >>> j).getLsbD (if s.lcfg.cord then 7 else 0) =
        x.getLsbD (if s.lcfg.cord then 7 - j else j) := by
      cases s.lcfg.cord with
      | true =>
        have hstays : decide (7 < j) = false := decide_eq_false (by omega)
        simp only [if_true, BitVec.getLsbD_shiftLeft, hstays]
        rfl
      | false => simp
    rw [hbit]
  · have hleft := takeCtrlBit_iterate_ctrlLeft { s with ctrlSr := x, ctrlLeft := 8 } (j := j + 1) hj
    rw [hleft]
    show 8 - (j + 1) = 7 - j
    omega

/-! ### Tokens in and out of place -/

/-- A stream token's meaning is an effect at its place (R97). -/
theorem exec_token_eq_atPlace {i : Instr} {p : Place} (h : i.place = some p) (s : State) :
    ∃ effect, exec i s = atPlace p s effect := by
  cases i with
  | init | cont | getbits | bitreset | close => cases h
  | lzCtrl | lzLit | lzRef | hufBranch | hufLeaf | hufCode0 | hufCode1 =>
    cases h
    simp only [exec, execLzCtrl, execLzLit, execLzRef, execHufBranch, execHufLeaf, execHufCode0, execHufCode1]
    exact ⟨_, rfl⟩

theorem atPlace_of_not_awaits {p : Place} {s : State} {e : State → State} (h : awaits s ≠ some p) :
    atPlace p s e = .refused .tokenOutOfPlace :=
  if_neg h

/-- Settles O10: every token's meaning is an effect at its place and a refusal elsewhere. -/
theorem tokensRunOnlyInPlace : Obligations.TokensRunOnlyInPlace := by
  intro i p s hp
  obtain ⟨effect, he⟩ := exec_token_eq_atPlace hp s
  rw [he]
  exact ⟨fun h => ⟨_, atPlace_of_awaits h⟩, atPlace_of_not_awaits⟩

end Sys2Proof.Machine
end

section
/-! PROOFS. A request to a bit reader (40_bitreader.md R110 to R115, R117, R119): the bits it returns, the bits it leaves to be
delivered, and how many of them stay buffered. -/

namespace Sys2Proof.Machine

/-! ### All that a request can do -/

/-- Port and reader `p'`, `q` where the loop of a request for n bits on `p`, `r` stops: no bit of the stream is lost, and the last
byte fetched, if any was, came while fewer than n bits were buffered (R113, R114). -/
structure Buffered (lsb : Bool) (n : Nat) (p : InPort) (r : BitReader) (p' : InPort) (q : BitReader) : Prop where
  src : p'.src = p.src
  lim : p'.lim = p.lim
  pending : pendingBits lsb p' q = pendingBits lsb p r
  fetched : (p' = p ∧ q = r) ∨ (p.pos < p'.pos ∧ q.cnt.toNat ≤ n + 7)

/-- A request takes n bits from the reader the loop leaves, or keeps that reader where the port ended first (R115). -/
theorem readBits_cases {lsb : Bool} {n : Nat} {p : InPort} {r : BitReader} (h : ReaderOk lsb p r) (hn : n ≤ maxRequest lsb) :
    ∃ p' q, Buffered lsb n p r p' q ∧
      ((n ≤ q.cnt.toNat ∧ readBits lsb n p r = (some (q.take lsb n).1, p', (q.take lsb n).2)) ∨
        (q.cnt.toNat < n ∧ p'.unread = [] ∧ readBits lsb n p r = (none, p', q))) := by
  obtain ⟨ok, p', q, he, -, hsrc, hlim, hpending, hfull, hshort, hfetched⟩ := fillBits_spec (k := n) h.inside hn (by omega)
  refine ⟨p', q, ⟨hsrc, hlim, hpending, hfetched⟩, ?_⟩
  unfold readBits
  rw [he]
  cases ok with
  | true => exact .inl ⟨hfull rfl, rfl⟩
  | false =>
    obtain ⟨hlt, hend⟩ := hshort rfl
    exact .inr ⟨hlt, hend, rfl⟩

/-! ### The bits still to be delivered (R110) -/

theorem length_pendingBits (lsb : Bool) (p : InPort) (r : BitReader) :
    (pendingBits lsb p r).length = r.cnt.toNat + 8 * p.unread.length := by
  rw [pendingBits, List.length_append, length_fieldBits, length_bitStream]

/-- An empty reader delivers the bytes not yet fetched (R118). -/
theorem pendingBits_empty (lsb : Bool) (p : InPort) : pendingBits lsb p .empty = bitStream lsb p.unread := by
  rw [pendingBits, show BitReader.empty.cnt.toNat = 0 from rfl, fieldBits_zero, List.nil_append]

/-- The value taken is that of the next n bits of the stream. -/
theorem take_value_pending {lsb : Bool} {n : Nat} {r : BitReader} (p : InPort) (hle : n ≤ r.cnt.toNat) (h32 : n ≤ 32) :
    (r.take lsb n).1.toNat = fieldValue lsb ((pendingBits lsb p r).take n) := by
  rw [take_value hle h32, pendingBits, List.take_append_of_le_length (by simpa using hle)]

/-- Taking n buffered bits advances the stream by n. -/
theorem pendingBits_take {lsb : Bool} {n : Nat} {r : BitReader} (p : InPort) (hle : n ≤ r.cnt.toNat) :
    pendingBits lsb p (r.take lsb n).2 = (pendingBits lsb p r).drop n := by
  rw [pendingBits, pendingBits, take_bits hle, List.drop_append_of_le_length (by simpa using hle)]

/-- Settles O11: the loop loses no bit of the stream, so the n bits taken, or the too few bits kept, are its next ones. -/
theorem getBitsReturnsNextBits : Obligations.GetBitsReturnsNextBits := by
  intro lsb n p r h hn
  have hok := readBits_readerOk h hn
  obtain ⟨p', q, hb, ⟨hle, he⟩ | ⟨hlt, hend, he⟩⟩ := readBits_cases h hn
  · have h32 : n ≤ 32 := by unfold maxRequest at hn; split at hn <;> omega
    have henough : n ≤ (pendingBits lsb p' q).length := by rw [length_pendingBits]; omega
    rw [he] at hok
    refine ⟨_, _, _, he, hok, hb.src, hb.lim, ?_⟩
    rw [← hb.pending, if_pos henough]
    exact ⟨⟨_, rfl, take_value_pending p' hle h32⟩, pendingBits_take p' hle⟩
  · have hfew : ¬n ≤ (pendingBits lsb p' q).length := by rw [length_pendingBits, hend, List.length_nil]; omega
    rw [he] at hok
    refine ⟨_, _, _, he, hok, hb.src, hb.lim, ?_⟩
    rw [← hb.pending, if_neg hfew]
    exact ⟨rfl, rfl⟩

/-! ### The bits that stay buffered (R119) -/

/-- Settles O13: a fetch leaves at most n + 7 bits buffered before the n bits go, and without one the reader is as it was. -/
theorem bufferedBitsAfterRequest : Obligations.BufferedBitsAfterRequest := by
  intro lsb n p r h hn
  obtain ⟨p', q, hb, ⟨hle, he⟩ | ⟨hlt, -, he⟩⟩ := readBits_cases h hn
  · rw [he]
    dsimp only
    rw [take_cnt hle]
    obtain ⟨rfl, rfl⟩ | ⟨hpos, hcnt⟩ := hb.fetched
    · exact ⟨fun hne => absurd rfl hne, fun _ => Nat.sub_add_cancel hle, fun h7 => by omega⟩
    · exact ⟨fun _ => by omega, fun e => absurd (e ▸ hpos) (lt_irrefl _), fun _ => by omega⟩
  · rw [he]
    exact hlt

/-! ### A request for no bits (R117) -/

theorem maskWord_zero : maskWord 0 = 0 := rfl

theorem take_zero (lsb : Bool) (r : BitReader) : r.take lsb 0 = (0, r) := by
  cases lsb <;> simp [BitReader.take, maskWord_zero]

theorem readBits_zero (lsb : Bool) (p : InPort) (r : BitReader) : readBits lsb 0 p r = (some 0, p, r) := by
  simp [readBits, fillBits, take_zero]

/-- A request puts back the port and reader it leaves, and nothing else (R112). -/
theorem getBits_of_readBits {k : Port} {n : Nat} {s : State} {v : Option Word} {p : InPort} {r : BitReader}
    (h : readBits s.lcfg.lsb n (s.port k) (s.reader k) = (v, p, r)) : getBits k n s = (v, s.setInput k p r) := by
  simp only [getBits, h]

/-- Settles O12: no byte is fetched, and taking no bits gives 0 and the same reader. -/
theorem zeroRequestChangesNothing : Obligations.ZeroRequestChangesNothing := by
  intro k s
  rw [getBits_of_readBits (readBits_zero ..), setInput_same]

end Sys2Proof.Machine
end

section
/-! PROOFS. The commands of a RAW session and where they fault (40_bitreader.md R116, R118, 41_session.md R133, 60_exceptions.md
R228). -/

namespace Sys2Proof.Machine

/-! ### Which sessions are open -/

theorem rawOpen_eq_false {s : State} (h : ¬(s.sess = .active ∧ s.lcfg.engine = engineRaw)) : rawOpen s = false :=
  Bool.eq_false_iff.2 fun ho => h (rawOpen_iff.1 ho)

theorem engineOpen_iff {s : State} : engineOpen s = true ↔ s.sess = .active ∧ s.lcfg.engine ≠ engineRaw := by
  simp only [engineOpen, Bool.and_eq_true, beq_iff_eq, bne_iff_ne]

theorem engineOpen_eq_false_of_raw {s : State} (h : rawOpen s = true) : engineOpen s = false :=
  Bool.eq_false_iff.2 fun ho => (engineOpen_iff.1 ho).2 (rawOpen_iff.1 h).2

theorem not_faulted_of_rawOpen {s : State} (h : rawOpen s = true) : s.sess ≠ .faulted := by
  rw [(rawOpen_iff.1 h).1]
  decide

/-! ### The faults (R116, R118, R133, R228) -/

theorem raise_contractBadState (s : State) :
    raise .contractBadState s = { s with cause := 0x0203, sess := .faulted, phase := .none, result := 0, run := .rest } := rfl

theorem raise_contractBitsTooMany (s : State) :
    raise .contractBitsTooMany s = { s with cause := 0x0303, sess := .faulted, phase := .none, result := 0, run := .rest } := rfl

theorem exec_getbits_of_not_rawOpen {s : State} (n : Byte) (hs : s.sess ≠ .faulted) (ho : rawOpen s = false) :
    exec (.getbits n) s = .next (raise .contractBadState s) := by
  rw [exec, execGetbits, if_neg hs, if_pos ho]

theorem exec_getbits_of_too_many {s : State} {n : Byte} (ho : rawOpen s = true) (hn : maxRequest s.lcfg.lsb < n.toNat) :
    exec (.getbits n) s = .next (raise .contractBitsTooMany s) := by
  rw [exec, execGetbits, if_neg (not_faulted_of_rawOpen ho), if_neg (by simp [ho]), if_pos hn]

theorem exec_bitreset_of_not_rawOpen {s : State} (hs : s.sess ≠ .faulted) (ho : rawOpen s = false) :
    exec .bitreset s = .next (raise .contractBadState s) := by
  rw [exec, execBitreset, if_neg hs, if_pos ho]

theorem exec_cont_of_not_engineOpen {s : State} (hs : s.sess ≠ .faulted) (ho : engineOpen s = false) :
    exec .cont s = .next (raise .contractBadState s) := by
  rw [exec, execCont, if_neg hs, if_pos ho]

/-- Settles O16: which session is open decides each command's first check, and the count is checked after it. -/
theorem commandsOutOfStateFault : Obligations.CommandsOutOfStateFault := by
  intro s n
  rw [← raise_contractBadState, ← raise_contractBitsTooMany]
  refine ⟨fun hs hclosed => ?_, fun hact hraw hn => exec_getbits_of_too_many (rawOpen_iff.2 ⟨hact, hraw⟩) hn, ?_⟩
  · have ho := rawOpen_eq_false hclosed
    exact ⟨exec_getbits_of_not_rawOpen n hs ho, exec_bitreset_of_not_rawOpen hs ho⟩
  · rintro (hidle | hopen)
    · have hs : s.sess ≠ .faulted := by rw [hidle]; decide
      have ho : engineOpen s = false := by simp [engineOpen, hidle]
      exact exec_cont_of_not_engineOpen hs ho
    · have ho := rawOpen_iff.2 hopen
      exact exec_cont_of_not_engineOpen (not_faulted_of_rawOpen ho) (engineOpen_eq_false_of_raw ho)

/-! ### GETBITS and BITRESET in an open RAW session (R116, R118) -/

theorem InPort.eq_with_pos {p p' : InPort} (hsrc : p'.src = p.src) (hlim : p'.lim = p.lim) : p' = { p with pos := p'.pos } := by
  cases p'
  cases hsrc
  cases hlim
  rfl

/-- A legal GETBITS puts back the port and reader its request leaves, and records the request's answer. -/
theorem exec_getbits_of_readBits {s : State} {n : Byte} {v : Option Word} {p : InPort} {r : BitReader} (ho : rawOpen s = true)
    (hn : n.toNat ≤ maxRequest s.lcfg.lsb) (h : readBits s.lcfg.lsb n.toNat s.port0 s.br0 = (v, p, r)) :
    exec (.getbits n) s = .next { s with port0 := p, br0 := r, nodata := v.isNone, result := v.getD 0 } := by
  rw [exec, execGetbits, if_neg (not_faulted_of_rawOpen ho), if_neg (by simp [ho]), if_neg (not_lt.2 hn),
    getBits_of_readBits (k := .p0) h]
  cases v <;> rfl

theorem exec_bitreset_of_rawOpen {s : State} (ho : rawOpen s = true) :
    exec .bitreset s = .next { s with br0 := .empty } := by
  rw [exec, execBitreset, if_neg (not_faulted_of_rawOpen ho), if_neg (by simp [ho])]

/-- Settles O15: GETBITS records what its request returns, and the request reads the stream (O11). -/
theorem getbitsReadsTheStream : Obligations.GetbitsReadsTheStream := by
  intro s n hact hraw hok hn
  obtain ⟨v, p, r, he, -, hsrc, hlim, hread⟩ := getBitsReturnsNextBits s.lcfg.lsb n.toNat s.port0 s.br0 hok hn
  refine ⟨_, exec_getbits_of_readBits (rawOpen_iff.2 ⟨hact, hraw⟩) hn he, ?_, ?_⟩
  · rw [← InPort.eq_with_pos hsrc hlim]
  · change if n.toNat ≤ (s.pending .p0).length then _ else _ at hread
    split at hread
    next henough =>
      obtain ⟨⟨x, rfl, hvalue⟩, hrest⟩ := hread
      rw [if_pos henough]
      exact ⟨rfl, hvalue, hrest⟩
    next hfew =>
      obtain ⟨rfl, hkept⟩ := hread
      rw [if_neg hfew]
      exact ⟨rfl, rfl, hkept⟩

/-- Settles O17: BITRESET empties the reader, and an empty reader has only the bytes not yet fetched to deliver. -/
theorem bitresetDiscardsBufferedBits : Obligations.BitresetDiscardsBufferedBits := by
  intro s hact hraw
  exact ⟨_, exec_bitreset_of_rawOpen (rawOpen_iff.2 ⟨hact, hraw⟩), rfl, pendingBits_empty s.lcfg.lsb s.port0⟩

end Sys2Proof.Machine
end

section
/-! PROOFS. INIT and CLOSE (41_session.md R131, R141): the sessions INIT opens, the configurations it rejects, and what CLOSE
releases. -/

namespace Sys2Proof.Machine

/-! ### INIT, by the engine and the check of its configuration -/

theorem exec_init_of_lzss {s : State} (he : s.cfg.engine = engineLzss) (hgood : s.cfg.badLzss s.params = false) :
    exec .init s = .next (startLzss (openSession s)) := by
  rw [exec, execInit, if_pos he, if_neg (by simp [hgood])]

theorem exec_init_of_bad_lzss {s : State} (he : s.cfg.engine = engineLzss) (hbad : s.cfg.badLzss s.params = true) :
    exec .init s = .next (raise .contractBadConfig (openSession s)) := by
  rw [exec, execInit, if_pos he, if_pos hbad]

theorem exec_init_of_huffman {s : State} (he : s.cfg.engine = engineHuffman) :
    exec .init s = .next { openSession s with phase := .hufBuild } := by
  rw [exec, execInit, if_neg (by rw [he]; decide), if_pos he]

theorem exec_init_of_raw {s : State} (he : s.cfg.engine = engineRaw) : exec .init s = .next (openSession s) := by
  rw [exec, execInit, if_neg (by rw [he]; decide), if_neg (by rw [he]; decide), if_pos he]

theorem exec_init_of_reserved {s : State} (he : s.cfg.engine = 3) :
    exec .init s = .next (raise .contractBadConfig (openSession s)) := by
  rw [exec, execInit, if_neg (by rw [he]; decide), if_neg (by rw [he]; decide), if_neg (by rw [he]; decide)]

/-- The four values of `ENGINE` (R36). -/
theorem ConfigRegs.engine_cases (c : ConfigRegs) :
    c.engine = engineLzss ∨ c.engine = engineHuffman ∨ c.engine = engineRaw ∨ c.engine = 3 := by
  generalize c.engine = e
  revert e
  decide

/-- All that INIT can do, in any state (R131). -/
inductive InitDid (s : State) : State → Prop
  | lzss (he : s.cfg.engine = engineLzss) (hgood : s.cfg.badLzss s.params = false) : InitDid s (startLzss (openSession s))
  | huffman (he : s.cfg.engine = engineHuffman) : InitDid s { openSession s with phase := .hufBuild }
  | raw (he : s.cfg.engine = engineRaw) : InitDid s (openSession s)
  | rejected : InitDid s (raise .contractBadConfig (openSession s))

/-- INIT completes in every state. -/
theorem exec_init_did (s : State) : ∃ t, exec .init s = .next t ∧ InitDid s t := by
  rcases s.cfg.engine_cases with he | he | he | he
  · cases hbad : s.cfg.badLzss s.params with
    | true => exact ⟨_, exec_init_of_bad_lzss he hbad, .rejected⟩
    | false => exact ⟨_, exec_init_of_lzss he hbad, .lzss he hbad⟩
  · exact ⟨_, exec_init_of_huffman he, .huffman he⟩
  · exact ⟨_, exec_init_of_raw he, .raw he⟩
  · exact ⟨_, exec_init_of_reserved he, .rejected⟩

theorem initDid {s t : State} (hs : exec .init s = .next t) : InitDid s t := by
  obtain ⟨u, hu, hdid⟩ := exec_init_did s
  rw [hs] at hu
  cases hu
  exact hdid

/-- The largest legal frame fits the 24 bits of the cursor (R9, R28). -/
theorem two_pow_le_of_params_ok {p : Params} {k : Nat} (hp : p.ok = true) (hk : k ≤ p.maxFrameLog2) : 2 ^ k ≤ 2 ^ 24 := by
  simp only [Params.ok, Bool.and_eq_true, decide_eq_true_eq] at hp
  exact Nat.pow_le_pow_right (by decide) (by omega)

/-- Settles O19: the check passes, and a cursor reduced mod FS fits its 24 bits. -/
theorem initOpensLzssSession : Obligations.InitOpensLzssSession := by
  intro s k hp he hk hframe hd hl
  have hgood : s.cfg.badLzss s.params = false := by
    rw [Bool.eq_false_iff, ne_eq, badLzss_iff]
    rintro (hno | hwide | hwide)
    · exact hno ⟨k, hk, hframe⟩
    · omega
    · omega
  refine ⟨_, exec_init_of_lzss he hgood, fun _ _ => rfl, ?_, rfl⟩
  have hlt : s.cfg.frameInitPos.toNat % 2 ^ k < 2 ^ 24 :=
    lt_of_lt_of_le (Nat.mod_lt _ (by positivity)) (two_pow_le_of_params_ok hp hk)
  change (BitVec.ofNat 24 (s.cfg.frameInitPos.toNat % s.cfg.frameSize.toNat)).toNat = _
  rw [hframe, BitVec.toNat_ofNat, Nat.mod_eq_of_lt hlt]

/-- Settles O20: neither engine has a configuration to check. -/
theorem initOpensHuffmanOrRawSession : Obligations.InitOpensHuffmanOrRawSession := by
  rintro s (he | he)
  · rw [exec_init_of_huffman he, if_pos he]
    rfl
  · rw [exec_init_of_raw he, if_neg (by rw [he]; decide)]
    rfl

/-- Settles O21: each cause ends in BAD_CONFIG on the session state that INIT has reset. -/
theorem initRejectsBadConfiguration : Obligations.InitRejectsBadConfiguration := by
  rintro s - (he | ⟨he, hbad⟩)
  · rw [exec_init_of_reserved he]
    rfl
  · rw [exec_init_of_bad_lzss he (badLzss_iff.2 hbad)]
    rfl

/-! ### CLOSE -/

/-- Settles O22. -/
theorem closeReleasesSources : Obligations.CloseReleasesSources :=
  ⟨(decodeWord_eq_ok_iff ⟨false, 0, 0⟩).2 (by decide), fun _ => rfl⟩

end Sys2Proof.Machine
end

section
/-! PROOFS. The loop of CONTINUE as a relation (41_session.md R133): its bound on turns is never used up (R257), how many bytes it
has written where it ends, and what it leaves unchanged. -/

namespace Sys2Proof.Machine

/-! ### Bytes written -/

/-- From `s` to `t` a command has written `m` bytes: `OUT_TOTAL` has grown by `m`, and memory has changed at most at the addresses
of those bytes (R65, R136). -/
structure Wrote (m : Nat) (s t : State) : Prop where
  total : t.outTotal = s.outTotal + BitVec.ofNat 32 m
  memory : ∀ a, (∀ k, s.run.n.toNat ≤ k → k < s.run.n.toNat + m → a ≠ outByteAddr s.params s.outAddr k) →
    Memory.read t.mem a = Memory.read s.mem a

theorem Unwritten.wrote {s t : State} (h : Unwritten s t) : Wrote 0 s t :=
  ⟨by rw [h.outTotal, BitVec.add_zero], fun a _ => by rw [h.mem]⟩

theorem Wrote.trans {m m' : Nat} {s t u : State} (h : Wrote m s t) (h' : Wrote m' t u) (hk : StepKept s t)
    (hn : t.run.n.toNat = s.run.n.toNat + m) : Wrote (m + m') s u where
  total := by rw [h'.total, h.total, BitVec.add_assoc, ← BitVec.ofNat_add]
  memory a ha := by
    rw [h'.memory a, h.memory a]
    · exact fun k h1 h2 => ha k h1 (by omega)
    · intro k h1 h2
      rw [hk.params, hk.outAddr]
      exact ha k (by omega) (by omega)

theorem Unwritten.symm {s t : State} (h : Unwritten s t) : Unwritten t s :=
  ⟨h.mem.symm, h.win.symm, h.cur.symm, h.outTotal.symm⟩

/-- The fault entry writes nothing (R222). -/
theorem raise_unwritten (f : FaultCode) (s : State) : Unwritten s (raise f s) := ⟨rfl, rfl, rfl, rfl⟩

/-- `CheckTarget` writes nothing. -/
theorem checkTarget_unwritten (s : State) : Unwritten s (checkTarget s) := by constructor <;> simp

theorem checkTarget_going (s : State) : Going s (checkTarget s) := by constructor <;> simp

theorem checkTarget_checkTarget (s : State) : checkTarget (checkTarget s) = checkTarget s := by
  by_cases h : targetReached s = true
  · have hc : checkTarget s = { s with eos := true } := if_pos h
    rw [hc]
    exact if_pos h
  · have hc : checkTarget s = s := if_neg h
    rw [hc, hc]

/-! ### One turn of the loop -/

/-- One turn, from `s` to `t`, after which the command may go on: it has written `m` bytes, none or one, and a turn that has written
none either ends the session or is the last such turn before one that writes (R257). -/
structure Turned (m : Nat) (s t : State) : Prop where
  kept : StepKept s t
  wrote : Wrote m s t
  going : Going s t
  run : t.run = .between (s.run.n + BitVec.ofNat 32 m)
  atMostOne : m ≤ 1
  progress : m = 1 ∨ t.eos = true ∨ (¬(s.phase = .lzCopy ∨ s.phase = .hufSym) ∧ (t.phase = .lzCopy ∨ t.phase = .hufSym))

/-- An engine step and `CheckTarget` after it, where the step does not fault. -/
theorem StepEnd.turned {s t : State} (h : StepEnd s t) (hk : StepKept s t) (ho : t.sess ≠ .faulted) :
    ∃ m, Turned m s (checkTarget t) := by
  have hkept := hk.trans (checkTarget_kept t)
  have hgoing : ∀ hg : Going s t, Going s (checkTarget t) := fun hg => hg.trans (checkTarget_going t)
  cases h with
  | fault f u raised => exact absurd (by rw [raised]; rfl) ho
  | ended unwritten going _ eos _ run =>
    refine ⟨0, hkept, (unwritten.trans (checkTarget_unwritten t)).wrote, hgoing going, ?_, Nat.zero_le 1, .inr (.inl ?_)⟩
    · rw [checkTarget_run, run, BitVec.add_zero]
    · rw [checkTarget_eos, eos, Bool.true_or]
  | emitted b mem outTotal going _ _ run =>
    refine ⟨1, hkept, ⟨by rw [checkTarget_outTotal, outTotal]; rfl, fun a ha => ?_⟩, hgoing going, ?_, le_refl 1, .inl rfl⟩
    · rw [checkTarget_mem, mem, Memory.read_write, if_neg (ha _ (le_refl _) (Nat.lt_succ_self _))]
    · rw [checkTarget_run, run]; rfl
  | quiet unwritten going _ phase run =>
    refine ⟨0, hkept, (unwritten.trans (checkTarget_unwritten t)).wrote, hgoing going, ?_, Nat.zero_le 1, .inr (.inr ?_)⟩
    · rw [checkTarget_run, run, BitVec.add_zero]
    · rw [checkTarget_phase]
      rcases phase with ⟨hs, ht⟩ | ⟨hs, ht⟩ <;> simp [hs, ht]

/-- A turn of a command between two of its steps, where the step does not fault. -/
theorem engineStep_turned {s t : State} (he : s.eos = false) (hr : s.run = .between s.run.n) (hstep : engineStep s = .next t)
    (ho : t.sess ≠ .faulted) : ∃ m, Turned m s (checkTarget t) := by
  obtain ⟨hend, hk⟩ := engineStep_end he hr hstep
  exact hend.turned hk ho

/-- While bytes are still to be written their count does not wrap. -/
theorem Turned.n_toNat {m : Nat} {s t : State} {want : Word} (h : Turned m s t) (hn : s.run.n < want) :
    t.run.n.toNat = s.run.n.toNat + m := by
  have hm := h.atMostOne
  have hw := want.isLt
  rw [h.run]
  show (s.run.n + BitVec.ofNat 32 m).toNat = _
  rw [BitVec.lt_def] at hn
  rw [BitVec.toNat_add, BitVec.toNat_ofNat]
  omega

theorem Turned.between {m : Nat} {s t : State} (h : Turned m s t) : t.run = .between t.run.n := by rw [h.run]; rfl

/-! ### The loop -/

/-- The loop of R133, with no bound on its turns: from `s`, which has passed `CheckTarget`, it ends in `t`. -/
inductive Loop (want : Word) : State → State → Prop
  | stop {s : State} (hstop : ¬(s.run.n < want ∧ s.eos = false)) : Loop want s s
  | fault {s t : State} (hgo : s.run.n < want ∧ s.eos = false) (hstep : engineStep s = .next t) (hf : t.sess = .faulted) :
      Loop want s t
  | turn {s u t : State} (hgo : s.run.n < want ∧ s.eos = false) (hstep : engineStep s = .next u) (ho : u.sess ≠ .faulted)
      (hrest : Loop want (checkTarget u) t) : Loop want s t

theorem loop_iff_of_stop {want : Word} {s t : State} (hstop : ¬(s.run.n < want ∧ s.eos = false)) : Loop want s t ↔ t = s := by
  constructor
  · intro h
    cases h with
    | stop => rfl
    | fault hgo => exact absurd hgo hstop
    | turn hgo => exact absurd hgo hstop
  · rintro rfl
    exact .stop hstop

theorem loop_iff_of_fault {want : Word} {s u t : State} (hgo : s.run.n < want ∧ s.eos = false)
    (hstep : engineStep s = .next u) (hf : u.sess = .faulted) : Loop want s t ↔ t = u := by
  constructor
  · intro h
    cases h with
    | stop hstop => exact absurd hgo hstop
    | fault _ hstep' => rw [hstep] at hstep'; cases hstep'; rfl
    | turn _ hstep' ho => rw [hstep] at hstep'; cases hstep'; exact absurd hf ho
  · rintro rfl
    exact .fault hgo hstep hf

theorem loop_iff_of_turn {want : Word} {s u t : State} (hgo : s.run.n < want ∧ s.eos = false)
    (hstep : engineStep s = .next u) (ho : u.sess ≠ .faulted) : Loop want s t ↔ Loop want (checkTarget u) t := by
  constructor
  · intro h
    cases h with
    | stop hstop => exact absurd hgo hstop
    | fault _ hstep' hf => rw [hstep] at hstep'; cases hstep'; exact absurd hf ho
    | turn _ hstep' _ hrest => rw [hstep] at hstep'; cases hstep'; exact hrest
  · exact .turn hgo hstep ho

/-- Where the loop goes on, the engine has a step. -/
theorem Loop.step_of_go {want : Word} {s t : State} (h : Loop want s t) (hgo : s.run.n < want ∧ s.eos = false) :
    ∃ u, engineStep s = .next u := by
  cases h with
  | stop hstop => exact absurd hgo hstop
  | fault _ hstep => exact ⟨_, hstep⟩
  | turn _ hstep => exact ⟨_, hstep⟩

/-- How many turns the loop can still take: two for each byte asked and not yet written, but one fewer where the next step
writes, ends the session or faults (R257). -/
def turnsLeft (want : Word) (s : State) : Nat :=
  if s.eos then 0
  else 2 * (want.toNat - s.run.n.toNat) - if s.phase = .lzCopy ∨ s.phase = .hufSym then 1 else 0

theorem turnsLeft_le (want : Word) (s : State) : turnsLeft want s ≤ 2 * want.toNat := by
  unfold turnsLeft
  split
  · exact Nat.zero_le _
  · omega

/-- A command with bytes to write and no EOS has a turn left. -/
theorem turnsLeft_pos {want : Word} {s : State} (hgo : s.run.n < want ∧ s.eos = false) : 0 < turnsLeft want s := by
  obtain ⟨hn, he⟩ := hgo
  rw [BitVec.lt_def] at hn
  unfold turnsLeft
  rw [he]
  simp only [Bool.false_eq_true, if_false]
  split <;> omega

/-- Each turn leaves fewer of them. -/
theorem Turned.turnsLeft_lt {m : Nat} {s t : State} {want : Word} (h : Turned m s t) (hgo : s.run.n < want ∧ s.eos = false) :
    turnsLeft want t < turnsLeft want s := by
  have hpos := turnsLeft_pos hgo
  have hn := h.n_toNat hgo.1
  obtain ⟨hlt, he⟩ := hgo
  rw [BitVec.lt_def] at hlt
  unfold turnsLeft at hpos ⊢
  rw [he] at hpos ⊢
  simp only [Bool.false_eq_true, if_false] at hpos ⊢
  cases het : t.eos with
  | true => simpa using hpos
  | false =>
    simp only [Bool.false_eq_true, if_false]
    rcases h.progress with rfl | heos | ⟨hs, ht⟩
    · split <;> split <;> omega
    · rw [het] at heos; cases heos
    · rw [if_neg hs, if_pos ht]
      omega

/-- The model's loop is the loop of R133: with the turns R257 allows, its bound is never what ends it. -/
theorem contLoop_eq_next_iff {want : Word} (k : Nat) {s t : State} (hr : s.run = .between s.run.n)
    (hk : turnsLeft want s ≤ k) : contLoop want k s = .next t ↔ Loop want s t := by
  induction k generalizing s with
  | zero =>
    have hstop : ¬(s.run.n < want ∧ s.eos = false) := fun hgo => by have := turnsLeft_pos hgo; omega
    rw [loop_iff_of_stop hstop]
    exact ⟨fun h => by cases h; rfl, fun h => by rw [h]; rfl⟩
  | succ k ih =>
    unfold contLoop
    split
    next hgo =>
      cases hstep : engineStep s with
      | fault r => exact ⟨fun h => (by cases h), fun h => by cases (h.step_of_go hgo).choose_spec.symm.trans hstep⟩
      | refused r => exact ⟨fun h => (by cases h), fun h => by cases (h.step_of_go hgo).choose_spec.symm.trans hstep⟩
      | next u =>
        rw [andThen_next]
        split
        next hf =>
          rw [loop_iff_of_fault hgo hstep hf]
          exact ⟨fun h => by cases h; rfl, fun h => by rw [h]⟩
        next ho =>
          obtain ⟨m, hturn⟩ := engineStep_turned hgo.2 hr hstep ho
          have hlt := hturn.turnsLeft_lt hgo
          rw [loop_iff_of_turn hgo hstep ho]
          exact ih hturn.between (by omega)
    next hstop =>
      rw [loop_iff_of_stop hstop]
      exact ⟨fun h => by cases h; rfl, fun h => by rw [h]⟩

/-! ### What the loop has done where it ends -/

/-- How the loop ends without a fault, `m` bytes after `s`: all bytes asked are written, or EOS is set (R133, R140). -/
structure LoopEnd (want : Word) (m : Nat) (s t : State) : Prop where
  going : Going s t
  run : t.run = .between (s.run.n + BitVec.ofNat 32 m)
  full : t.eos = false → s.run.n.toNat + m = want.toNat
  checked : checkTarget t = t

/-- What the loop has done where it ends, `m` bytes after `s`. -/
structure Looped (want : Word) (m : Nat) (s t : State) : Prop where
  kept : StepKept s t
  wrote : Wrote m s t
  within : s.run.n.toNat + m ≤ want.toNat
  target : s.lcfg.bounded = true → s.outTotal.toNat ≤ s.lcfg.unpackedSize.toNat →
    s.outTotal.toNat + m ≤ s.lcfg.unpackedSize.toNat
  ending : t.sess = .faulted ∨ LoopEnd want m s t

/-- A session that has passed `CheckTarget` and is not at its end is not at its target (R137). -/
theorem outTotal_ne_of_checked {s : State} (hc : checkTarget s = s) (he : s.eos = false) (hb : s.lcfg.bounded = true) :
    s.outTotal ≠ s.lcfg.unpackedSize := by
  have := checkTarget_ne_target (s := s)
  rw [hc] at this
  exact this he hb

/-- A turn, and then the rest of the loop. -/
theorem Turned.looped {want : Word} {m m' : Nat} {s t u : State} (h : Turned m s t) (hgo : s.run.n < want ∧ s.eos = false)
    (hc : checkTarget s = s) (h' : Looped want m' t u) : Looped want (m + m') s u where
  kept := h.kept.trans h'.kept
  wrote := h.wrote.trans h'.wrote h.kept (h.n_toNat hgo.1)
  within := by have := h'.within; have := h.n_toNat hgo.1; omega
  target hb hle := by
    have hne := outTotal_ne_of_checked hc hgo.2 hb
    have hm := h.atMostOne
    have htotal : t.outTotal.toNat = s.outTotal.toNat + m := by
      rw [h.wrote.total, BitVec.toNat_add, BitVec.toNat_ofNat]
      bv_omega
    have := h'.target (by rw [h.kept.lcfg]; exact hb) (by rw [h.kept.lcfg]; bv_omega)
    rw [h.kept.lcfg] at this
    omega
  ending := h'.ending.imp_right fun hend =>
    { going := h.going.trans hend.going
      run := by rw [hend.run, h.run]; show Run.between (_ + _ + _) = _; rw [BitVec.add_assoc, ← BitVec.ofNat_add]
      full := fun he => by have := hend.full he; have := h.n_toNat hgo.1; omega
      checked := hend.checked }

/-- The loop, from an open session between two steps of the command: how many bytes it writes, and how it ends. -/
theorem Loop.looped {want : Word} {s t : State} (h : Loop want s t) (hr : s.run = .between s.run.n)
    (ha : s.sess ≠ .faulted) (hc : checkTarget s = s) (hn : s.run.n ≤ want) : ∃ m, Looped want m s t := by
  induction h with
  | @stop s hstop =>
    rw [BitVec.le_def] at hn
    refine ⟨0, .refl s, (Unwritten.refl s).wrote, hn, fun _ hle => hle, .inr ⟨.refl s, ?_, fun he => ?_, hc⟩⟩
    · rw [BitVec.add_zero]; exact hr
    · by_contra hne
      exact hstop ⟨by rw [BitVec.lt_def]; omega, he⟩
  | @fault s t hgo hstep hf =>
    obtain ⟨hend, hk⟩ := engineStep_end hgo.2 hr hstep
    rw [BitVec.le_def] at hn
    have hopen : Going s t → t.sess ≠ .faulted := fun hg => by rw [hg.sess]; exact ha
    cases hend with
    | fault f u raised unwritten =>
      have hw : Unwritten s t := by rw [raised]; exact unwritten.trans (raise_unwritten f u)
      exact ⟨0, hk, hw.wrote, hn, fun _ hle => hle, .inl hf⟩
    | ended _ going => exact absurd hf (hopen going)
    | emitted _ _ _ going => exact absurd hf (hopen going)
    | quiet _ going => exact absurd hf (hopen going)
  | @turn s u t hgo hstep ho _ ih =>
    obtain ⟨m, hturn⟩ := engineStep_turned hgo.2 hr hstep ho
    have hm := hturn.atMostOne
    have hnt := hturn.n_toNat hgo.1
    have hlt := hgo.1
    rw [BitVec.lt_def] at hlt
    obtain ⟨m', h'⟩ := ih hturn.between (by rw [checkTarget_sess]; exact ho) (checkTarget_checkTarget u)
      (by rw [BitVec.le_def]; omega)
    exact ⟨m + m', hturn.looped hgo hc h'⟩

/-! ### CONTINUE -/

/-- The state in which CONTINUE enters its loop (R133, R137). -/
def contStart (s : State) : State := checkTarget { s with run := .rest }

theorem contStart_kept (s : State) : StepKept s (contStart s) :=
  StepKept.trans (t := { s with run := .rest }) (by constructor <;> rfl) (checkTarget_kept _)

theorem contStart_unwritten (s : State) : Unwritten s (contStart s) :=
  Unwritten.trans (t := { s with run := .rest }) ⟨rfl, rfl, rfl, rfl⟩ (checkTarget_unwritten _)

@[simp] theorem contStart_sess (s : State) : (contStart s).sess = s.sess := checkTarget_sess _

@[simp] theorem contStart_run (s : State) : (contStart s).run = .rest := checkTarget_run _

theorem contStart_eos (s : State) : (contStart s).eos = (s.eos || targetReached s) := checkTarget_eos _

theorem finishCont_of_faulted {s : State} (h : s.sess = .faulted) : finishCont s = s := if_pos h

theorem finishCont_of_open {s : State} (h : s.sess ≠ .faulted) : finishCont s = { s with result := s.run.n, run := .rest } :=
  if_neg h

theorem finishCont_kept (s : State) : StepKept s (finishCont s) := by
  unfold finishCont; split <;> (constructor <;> rfl)

theorem finishCont_unwritten (s : State) : Unwritten s (finishCont s) := by
  unfold finishCont; split <;> (constructor <;> rfl)

@[simp] theorem finishCont_sess (s : State) : (finishCont s).sess = s.sess := by
  unfold finishCont; split <;> rfl

/-- A FAULTED session ignores CONTINUE (R227). -/
theorem exec_cont_of_faulted {s : State} (h : s.sess = .faulted) : exec .cont s = .next s := by
  rw [exec, execCont, if_pos h]

/-- In an open session CONTINUE runs its loop and records its end. -/
theorem exec_cont_of_open {s : State} (ho : engineOpen s = true) :
    exec .cont s = andThen (contLoop s.count (2 * s.count.toNat) (contStart s)) fun t => .next (finishCont t) := by
  rw [exec, execCont, if_neg (by rw [(engineOpen_iff.1 ho).1]; decide), if_neg (by simp [ho])]
  rfl

theorem exec_cont_eq_next_iff {s t : State} (ho : engineOpen s = true) :
    exec .cont s = .next t ↔ ∃ u, Loop s.count (contStart s) u ∧ t = finishCont u := by
  rw [exec_cont_of_open ho]
  have hloop (u : State) : contLoop s.count (2 * s.count.toNat) (contStart s) = .next u ↔ Loop s.count (contStart s) u :=
    contLoop_eq_next_iff _ (by rw [contStart_run]; rfl) (turnsLeft_le _ _)
  constructor
  · intro h
    obtain ⟨u, hu, hfin⟩ := andThen_eq_next h
    cases hfin
    exact ⟨u, (hloop u).1 hu, rfl⟩
  · rintro ⟨u, hu, rfl⟩
    rw [(hloop u).2 hu, andThen_next]

/-- The loop of CONTINUE starts with no byte written. -/
theorem Loop.looped_of_start {s u : State} (h : Loop s.count (contStart s) u) (ha : s.sess = .active) :
    ∃ m, Looped s.count m (contStart s) u :=
  h.looped (by rw [contStart_run]; rfl) (by rw [contStart_sess, ha]; decide) (checkTarget_checkTarget _)
    (by rw [contStart_run]; exact Nat.zero_le _)

theorem LoopEnd.n_eq {want : Word} {m : Nat} {s u : State} (h : LoopEnd want m (contStart s) u) :
    u.run.n = BitVec.ofNat 32 m := by
  rw [h.run, contStart_run]
  exact BitVec.zero_add _

/-- Settles O23: in either case the loop stops before its first step. -/
theorem continueWithoutSteps : Obligations.ContinueWithoutSteps := by
  intro s ha he
  have ho := engineOpen_iff.2 ⟨ha, he⟩
  have hstop : ∀ h : ¬((contStart s).run.n < s.count ∧ (contStart s).eos = false), exec .cont s = .next { s with
      result := 0, run := .rest, eos := (contStart s).eos } := by
    intro h
    refine (exec_cont_eq_next_iff ho).2 ⟨_, .stop h, ?_⟩
    rw [finishCont_of_open (by rw [contStart_sess, ha]; decide), contStart_run]
    unfold contStart checkTarget
    split <;> rfl
  constructor
  · intro hcount
    rw [hstop (by rw [contStart_run, hcount]; simp), contStart_eos]
    rfl
  · intro heos
    have hstart : (contStart s).eos = true := by rw [contStart_eos, heos, Bool.true_or]
    rw [hstop (by simp [hstart]), hstart, ← heos]

/-- What a CONTINUE that did not fault has done, for the number `m` of bytes it returns (R140). -/
theorem exec_cont_open_end {s t : State} (ho : engineOpen s = true) (hs : exec .cont s = .next t) (hf : t.sess ≠ .faulted) :
    ∃ u m, Looped s.count m (contStart s) u ∧ LoopEnd s.count m (contStart s) u ∧
      t = { u with result := BitVec.ofNat 32 m, run := .rest } := by
  obtain ⟨u, hu, rfl⟩ := (exec_cont_eq_next_iff ho).1 hs
  obtain ⟨m, hl⟩ := hu.looped_of_start (engineOpen_iff.1 ho).1
  rw [finishCont_sess] at hf
  have hend := hl.ending.resolve_left hf
  exact ⟨u, m, hl, hend, by rw [finishCont_of_open hf, hend.n_eq]⟩

/-- A CONTINUE of an open session leaves it open or faults (R133). -/
theorem exec_cont_active {s t : State} (ho : engineOpen s = true) (hs : exec .cont s = .next t) (hf : t.sess ≠ .faulted) :
    t.sess = .active := by
  obtain ⟨u, m, -, hend, rfl⟩ := exec_cont_open_end ho hs hf
  exact hend.going.sess.trans (by simpa using (engineOpen_iff.1 ho).1)

/-- Settles O24: the loop stops short of COUNT only at EOS. -/
theorem continueResultAndEnd : Obligations.ContinueResultAndEnd := by
  intro s t ha he hs hf
  obtain ⟨u, m, hl, hend, rfl⟩ := exec_cont_open_end (engineOpen_iff.2 ⟨ha, he⟩) hs hf
  have hle : m ≤ s.count.toNat := by simpa using hl.within
  have hm : (BitVec.ofNat 32 m).toNat = m := by
    have := s.count.isLt
    rw [BitVec.toNat_ofNat]
    omega
  refine ⟨by rw [hm]; exact hle, fun hlt => ?_, ?_⟩
  · rw [hm] at hlt
    by_contra heos
    have hfull : 0 + m = s.count.toNat := by simpa using hend.full (by simpa using heos)
    omega
  · show u.outTotal = _
    rw [hl.wrote.total, (contStart_unwritten s).outTotal]

/-! ### The frame of CONTINUE (R133, R136) -/

/-- What an engine step keeps, as one equation between the states. -/
theorem StepKept.eq_with {s t : State} (h : StepKept s t) : t = { s with
    sess := t.sess, phase := t.phase, eos := t.eos
    port0 := { s.port0 with pos := t.port0.pos }, port1 := { s.port1 with pos := t.port1.pos }
    br0 := t.br0, br1 := t.br1, win := t.win, cur := t.cur, ctrlSr := t.ctrlSr, ctrlLeft := t.ctrlLeft
    copySrc := t.copySrc, copyLeft := t.copyLeft, lhs := t.lhs, rhs := t.rhs, nextNode := t.nextNode, root := t.root
    outTotal := t.outTotal, result := t.result, cause := t.cause, mem := t.mem, run := t.run } := by
  rw [← InPort.eq_with_pos h.src0 h.lim0, ← InPort.eq_with_pos h.src1 h.lim1, ← h.params, ← h.lcfg, ← h.nodata, ← h.cfg,
    ← h.outAddr, ← h.count, ← h.bound0, ← h.bound1, ← h.ops, ← h.busData]

/-- Every CONTINUE keeps what no engine step changes, and writes some number of bytes from `OUT_ADDR` on. -/
theorem exec_cont_wrote {s t : State} (hs : exec .cont s = .next t) :
    StepKept s t ∧ ∃ m, m < 2 ^ 32 ∧ Wrote m (contStart s) t := by
  have hback : Unwritten (contStart s) s := (contStart_unwritten s).symm
  by_cases hf : s.sess = .faulted
  · rw [exec_cont_of_faulted hf] at hs
    cases hs
    exact ⟨.refl s, 0, by decide, hback.wrote⟩
  by_cases ho : engineOpen s = true
  · obtain ⟨u, hu, rfl⟩ := (exec_cont_eq_next_iff ho).1 hs
    obtain ⟨m, hl⟩ := hu.looped_of_start (engineOpen_iff.1 ho).1
    have hend := finishCont_unwritten u
    refine ⟨((contStart_kept s).trans hl.kept).trans (finishCont_kept u), m, ?_, ?_, ?_⟩
    · have := hl.within
      have := s.count.isLt
      omega
    · rw [hend.outTotal]; exact hl.wrote.total
    · rw [hend.mem]; exact hl.wrote.memory
  · rw [exec_cont_of_not_engineOpen hf (by simpa using ho)] at hs
    cases hs
    exact ⟨raise_kept _ s, 0, by decide, (hback.trans (raise_unwritten _ s)).wrote⟩

/-- Settles O25: the bytes a CONTINUE has written are the growth of `OUT_TOTAL`. -/
theorem continueFrame : Obligations.ContinueFrame := by
  intro s t hs
  obtain ⟨hk, m, hm, hw⟩ := exec_cont_wrote hs
  refine ⟨hk.eq_with, fun a ha => ?_⟩
  have hgrown : (t.outTotal - s.outTotal).toNat = m := by
    rw [hw.total, (contStart_unwritten s).outTotal, BitVec.add_comm, BitVec.add_sub_cancel, BitVec.toNat_ofNat,
      Nat.mod_eq_of_lt hm]
  rw [hgrown] at ha
  rw [hw.memory a, (contStart_unwritten s).mem]
  rw [contStart_run, (contStart_kept s).params, (contStart_kept s).outAddr]
  intro k _ hk
  exact ha k (by simpa using hk)

end Sys2Proof.Machine
end

section
/-! PROOFS. The engine's steps by phase (41_session.md R134, R145), and why every command completes from a state of the invariant:
an engine fetches tokens only at their places, and its loops end (R134, R257). -/

namespace Sys2Proof.Machine

/-! ### Tokens in an engine step (R97, R134) -/

/-- Settles O8: a fetch gives a token of its place, and an engine runs tokens as `exec` does. -/
theorem engineRunsDecodedToken : Obligations.EngineRunsDecodedToken := by
  intro p s s' i hf
  obtain ⟨j, t, hj, hp, -⟩ | ⟨t, ht, -⟩ := fetchToken_read p s
  · rw [hf] at hj
    cases hj
    refine ⟨hp, ?_⟩
    rw [engineToken, hf]
    exact runToken_eq_exec hp s'
  · rw [hf] at ht
    cases ht

/-! ### Phases (R145) -/

/-- CLOSE leaves no phase. -/
theorem exec_close_phase {s t : State} (hs : exec .close s = .next t) : t.phase = .none := by cases hs; rfl

/-- INIT starts the phase of its engine, or faults (R131). -/
theorem exec_init_phase {s t : State} (hs : exec .init s = .next t) :
    t.phase = if t.sess = .faulted then .none else if s.cfg.engine = 0 then .lzToken
      else if s.cfg.engine = 1 then .hufBuild else .none := by
  cases initDid hs with
  | lzss he => simp [he, startLzss, openSession]
  | huffman he => simp [he, openSession]
  | raw he => simp [he, openSession]
  | rejected => rfl

/-- Settles O50: the ends of an engine step, of which the tree build has none that stays in `HUF_BUILD`. -/
theorem phaseTransitions : Obligations.PhaseTransitions := by
  refine ⟨fun s t _ he hsel hnode hstack hs => ?_, fun s t => exec_close_phase, fun s t => exec_init_phase⟩
  obtain ⟨hend, -⟩ := engineStep_end he (Run.eq_between rfl hsel hnode hstack) hs
  cases hend with
  | fault f u raised => rw [raised]; exact .inl ⟨rfl, rfl⟩
  | ended _ _ _ _ phase =>
    unfold engineStep at hs
    rw [phase]
    cases hp : s.phase with
    | none => rw [hp] at hs; cases hs
    | hufBuild => rw [hp] at hs; exact absurd (phase.trans hp) (hufBuildLoop_phase _ hs)
    | lzToken | lzCopy | hufSym => simp
  | emitted _ _ _ _ _ phase => rcases phase with ⟨hs, ht⟩ | ⟨hs, ht | ht⟩ | ⟨hs, ht⟩ <;> simp [hs, ht]
  | quiet _ _ _ phase => rcases phase with ⟨hs, ht⟩ | ⟨hs, ht⟩ <;> simp [hs, ht]

/-! ### Tokens in place -/

/-- A fetch changes nothing that decides which token is read next (R97). -/
theorem InputRead.awaits {k : Port} {s t : State} (h : InputRead k s t) : awaits t = awaits s := by
  obtain ⟨pos, r, rfl⟩ := h
  cases k <;> rfl

/-- Exhaustion drops the unfinished token (R168). -/
@[simp] theorem exhaust_run_sel (f : FaultCode) (s : State) : (exhaust f s).run.sel = none := by
  unfold exhaust; split <;> rfl

@[simp] theorem exhaust_run_node (f : FaultCode) (s : State) : (exhaust f s).run.node = none := by
  unfold exhaust; split <;> rfl

/-- At its place a token's meaning is never refused (R97). -/
theorem engineToken_completes {p : Place} {s : State} (ha : awaits s = some p) : ∃ t, engineToken p s = .next t := by
  obtain ⟨i, u, hu, hi, hin⟩ | ⟨u, hu, -⟩ := engineToken_cases p s
  · obtain ⟨effect, he⟩ := exec_token_eq_atPlace hi u
    exact ⟨_, hu.trans (he.trans (atPlace_of_awaits (hin.awaits.trans ha)))⟩
  · exact ⟨_, hu⟩

/-! ### The LZSS steps complete -/

theorem lzItemStep_completes {s : State} {x : LzItem} (ha : s.sess = .active) (he : s.eos = false) (hp : s.phase = .lzToken)
    (hx : s.run.sel = some x) : ∃ t, lzItemStep s = .next t := by
  unfold lzItemStep
  rw [hx]
  cases x with
  | literal => exact engineToken_completes (awaits_literal.2 ⟨ha, he, hp, hx⟩)
  | reference => exact engineToken_completes (awaits_reference.2 ⟨ha, he, hp, hx⟩)

theorem lzTokenStep_completes {s : State} (ha : s.sess = .active) (he : s.eos = false) (hp : s.phase = .lzToken)
    (hr : s.run = .between s.run.n) : ∃ t, lzTokenStep s = .next t := by
  unfold lzTokenStep
  split
  next hc =>
    obtain ⟨i, v, hv, hi, hin⟩ | ⟨v, hv, -⟩ := engineToken_cases .ctrl s
    · obtain ⟨u, hu⟩ := engineToken_completes (awaits_ctrl.2 ⟨ha, he, hp, by rw [hr]; rfl, hc⟩)
      rw [hu, andThen_next]
      rw [hu] at hv
      cases i <;> simp only [Instr.place, Option.some.injEq, reduceCtorEq] at hi
      obtain ⟨-, rfl⟩ := execLzCtrl_next hv.symm
      exact lzItemStep_completes (hin.going.sess.trans ha) (hin.eos.trans he) (hin.phase.trans hp) (takeCtrlBit_sel _)
    · rw [hv, andThen_next]
      have hsel : (exhaustAt .ctrl v).run.sel = none := exhaust_run_sel .truncCtrl v
      unfold lzItemStep
      rw [hsel]
      exact ⟨_, rfl⟩
  next => exact lzItemStep_completes ha he hp (takeCtrlBit_sel s)

/-! ### The Huffman steps complete -/

/-- A tree token that leaves the tree unfinished is followed by another (R193, R194). -/
theorem engineToken_tree_awaits {s t : State} (ha : awaits s = some .tree) (hs : engineToken .tree s = .next t)
    (hp : t.phase = .hufBuild) : awaits t = some .tree := by
  obtain ⟨i, u, hu, hi, hin⟩ | ⟨u, hu, -⟩ := engineToken_cases .tree s
  · rw [hs] at hu
    obtain ⟨hact, he, -⟩ := awaits_tree.1 (hin.awaits.trans ha)
    cases i <;> simp only [Instr.place, Option.some.injEq, reduceCtorEq] at hi
    · obtain ⟨-, ⟨-, rfl⟩ | ⟨-, rfl⟩⟩ := execHufBranch_next hu.symm
      · cases hp
      · exact awaits_tree.2 ⟨hact, he, hp⟩
    · obtain ⟨-, rfl⟩ := execHufLeaf_next hu.symm
      obtain ⟨-, -, hg, heos, -⟩ := returnSubtree_cases u.run.stack _ u
      exact awaits_tree.2 ⟨hg.sess.trans hact, heos.trans he, hp⟩
  · rw [hs] at hu
    cases hu
    cases hp

theorem hufBuildLoop_completes (k : Nat) {s : State} (ha : awaits s = some .tree) : ∃ t, hufBuildLoop k s = .next t := by
  induction k generalizing s with
  | zero => exact ⟨_, rfl⟩
  | succ k ih =>
    obtain ⟨u, hu⟩ := engineToken_completes ha
    unfold hufBuildLoop
    rw [hu, andThen_next]
    split
    next hp => exact ih (engineToken_tree_awaits ha hu hp)
    next => exact ⟨_, rfl⟩

/-- Moving to a child that leaves the symbol unfinished waits at an internal node (R195). -/
theorem awaits_moveTo {c : BitVec 9} {s : State} (ha : awaits s = some .code) (hn : (moveTo c s).run.node ≠ none) :
    awaits (moveTo c s) = some .code := by
  obtain ⟨hact, he, hp, -⟩ := awaits_code.1 ha
  unfold moveTo at hn ⊢
  split
  next hleaf => rw [if_pos hleaf] at hn; exact absurd rfl hn
  next hnode => exact awaits_code.2 ⟨hact, he, hp, (by simpa using hnode : isLeaf c = false)⟩

/-- A code bit that leaves the symbol unfinished is followed by another (R195). -/
theorem engineToken_code_awaits {s t : State} (ha : awaits s = some .code) (hs : engineToken .code s = .next t)
    (hn : t.run.node ≠ none) : awaits t = some .code := by
  obtain ⟨i, u, hu, hi, hin⟩ | ⟨u, hu, -⟩ := engineToken_cases .code s
  · rw [hs] at hu
    have hau := hin.awaits.trans ha
    cases i <;> simp only [Instr.place, Option.some.injEq, reduceCtorEq] at hi
    · obtain ⟨-, rfl⟩ := execHufCode0_next hu.symm
      exact awaits_moveTo hau hn
    · obtain ⟨-, rfl⟩ := execHufCode1_next hu.symm
      exact awaits_moveTo hau hn
  · rw [hs] at hu
    cases hu
    exact absurd (exhaust_run_node .truncSymbol u) hn

theorem hufSymLoop_completes (k : Nat) {s : State} (ha : awaits s = some .code) : ∃ t, hufSymLoop k s = .next t := by
  induction k generalizing s with
  | zero => exact ⟨_, rfl⟩
  | succ k ih =>
    obtain ⟨u, hu⟩ := engineToken_completes ha
    unfold hufSymLoop
    rw [hu, andThen_next]
    split
    next => exact ⟨_, rfl⟩
    next hn => exact ih (engineToken_code_awaits ha hu hn)

theorem hufSymStep_completes {s : State} (ha : s.sess = .active) (he : s.eos = false) (hp : s.phase = .hufSym)
    (hr : s.run = .between s.run.n) : ∃ t, hufSymStep s = .next t := by
  unfold hufSymStep
  split
  next => exact ⟨_, rfl⟩
  next hroot =>
    have hnode : symNode s = s.root := by rw [symNode, hr]; rfl
    exact hufSymLoop_completes _ (awaits_code.2 ⟨ha, he, hp, by rw [hnode]; simpa using hroot⟩)

/-! ### Commands complete -/

/-- The engine of a running session has a step while EOS is 0 (R134). -/
theorem engineStep_completes {s : State} (h : Running s) (he : s.eos = false) : ∃ t, engineStep s = .next t := by
  unfold engineStep
  rcases h.engine_cases with hz | hz
  · rcases (h.active.lzss hz).phase with hp | hp <;> rw [hp]
    · exact lzTokenStep_completes h.sess he hp h.between
    · exact ⟨_, rfl⟩
  · rcases (h.active.huffman hz).phase with hp | hp <;> rw [hp]
    · exact hufBuildLoop_completes _ (awaits_tree.2 ⟨h.sess, he, hp⟩)
    · exact hufSymStep_completes h.sess he hp h.between

theorem contLoop_completes {want : Word} (k : Nat) {s : State} (h : Running s) :
    ∃ t, contLoop want k (checkTarget s) = .next t := by
  induction k generalizing s with
  | zero => exact ⟨_, rfl⟩
  | succ k ih =>
    unfold contLoop
    split
    next hgo =>
      obtain ⟨u, hu⟩ := engineStep_completes h.checkTarget hgo.2
      rw [hu, andThen_next]
      split
      next => exact ⟨_, rfl⟩
      next hopen =>
        obtain hrun | ⟨f, v, rfl, -⟩ := engineStep_running h.checkTarget hgo.2 (checkTarget_ne_target hgo.2) hu
        · exact ih hrun
        · exact absurd rfl hopen
    next => exact ⟨_, rfl⟩

/-- CONTINUE completes in every session and outside one (R133, R257). -/
theorem exec_cont_completes {s : State} (h : Inv s) : ∃ t, exec .cont s = .next t := by
  by_cases hf : s.sess = .faulted
  · exact ⟨_, exec_cont_of_faulted hf⟩
  by_cases ho : engineOpen s = true
  · have hrest : ({ s with run := .rest } : State) = s := by rw [← h.atRest]
    obtain ⟨t, ht⟩ := contLoop_completes (want := s.count) (2 * s.count.toNat) (h.running ho)
    rw [exec_cont_of_open ho, contStart, hrest, ht]
    exact ⟨_, rfl⟩
  · exact ⟨_, exec_cont_of_not_engineOpen hf (by simpa using ho)⟩

theorem exec_getbits_completes (n : Byte) (s : State) : ∃ t, exec (.getbits n) s = .next t := by
  simp only [exec, execGetbits]
  repeat' split
  all_goals exact ⟨_, rfl⟩

theorem exec_bitreset_completes (s : State) : ∃ t, exec .bitreset s = .next t := by
  simp only [exec, execBitreset]
  repeat' split
  all_goals exact ⟨_, rfl⟩

/-- Settles O30: only CONTINUE needs the invariant, whose sessions always have an engine step. -/
theorem commandsAlwaysComplete : Obligations.CommandsAlwaysComplete := by
  intro s i h hi
  cases i
  case init => exact (exec_init_did s).imp fun _ h => h.1
  case cont => exact exec_cont_completes h
  case getbits n => exact exec_getbits_completes n s
  case bitreset => exact exec_bitreset_completes s
  case close => exact ⟨_, rfl⟩
  all_goals cases hi

end Sys2Proof.Machine
end

section
/-! PROOFS. Bounded sessions (41_session.md R137, R142): a CONTINUE stops at the target, and the one-shot decode. -/

namespace Sys2Proof.Machine

/-- A state on which `CheckTarget` does nothing has EOS at its target (R137). -/
theorem eos_of_checked {s : State} (hc : checkTarget s = s) (hb : s.lcfg.bounded = true)
    (ht : s.outTotal = s.lcfg.unpackedSize) : s.eos = true := by
  rw [← hc, checkTarget_eos]
  simp [targetReached, hb, ht]

/-- How many bytes a CONTINUE of a bounded session returns: it passes no target, and stops short of COUNT only there. -/
theorem Looped.bounded_count {m : Nat} {s u : State} (hl : Looped s.count m (contStart s) u)
    (hend : LoopEnd s.count m (contStart s) u) (hb : s.lcfg.bounded = true)
    (hle : s.outTotal.toNat ≤ s.lcfg.unpackedSize.toNat) (hended : u.eos = true → u.outTotal = s.lcfg.unpackedSize) :
    m = min s.count.toNat (s.lcfg.unpackedSize.toNat - s.outTotal.toNat) := by
  have htotal : (contStart s).outTotal = s.outTotal := (contStart_unwritten s).outTotal
  have hm : m ≤ s.count.toNat := by simpa using hl.within
  have htarget : s.outTotal.toNat + m ≤ s.lcfg.unpackedSize.toNat := by
    simpa only [(contStart_kept s).lcfg, htotal] using hl.target (by rw [(contStart_kept s).lcfg]; exact hb)
      (by rw [(contStart_kept s).lcfg, htotal]; exact hle)
  cases heos : u.eos with
  | true =>
    have hgrown : u.outTotal.toNat = s.outTotal.toNat + m := by
      rw [hl.wrote.total, htotal]
      bv_omega
    have hreached := congrArg BitVec.toNat (hended heos)
    omega
  | false =>
    have hfull : 0 + m = s.count.toNat := by simpa using hend.full heos
    omega

/-- Settles O28: the invariant has EOS of a bounded session at its target only, and `CheckTarget` sets it there. -/
theorem boundedContinueStopsAtTarget : Obligations.BoundedContinueStopsAtTarget := by
  intro s t h ha he hb hs hf
  have hopen := engineOpen_iff.2 ⟨ha, he⟩
  have hact : ActiveOk t := (execCont_keeps_inv h hs).active (exec_cont_active hopen hs hf)
  have hlcfg : t.lcfg = s.lcfg := (exec_cont_wrote hs).1.lcfg
  obtain ⟨u, m, hl, hend, rfl⟩ := exec_cont_open_end hopen hs hf
  change u.lcfg = s.lcfg at hlcfg
  have hreached : u.outTotal.toNat ≤ s.lcfg.unpackedSize.toNat := hlcfg ▸ hact.target (hlcfg ▸ hb)
  have hended : u.eos = true → u.outTotal = s.lcfg.unpackedSize := hlcfg ▸ hact.ended (hlcfg ▸ hb)
  have hchecked : u.outTotal = s.lcfg.unpackedSize → u.eos = true := fun ht =>
    eos_of_checked hend.checked (hlcfg ▸ hb) (hlcfg ▸ ht)
  have hcount := hl.bounded_count hend hb ((h.active ha).target hb) hended
  refine ⟨?_, hreached, hended, hchecked⟩
  show (BitVec.ofNat 32 m).toNat = _
  rw [BitVec.toNat_ofNat, Nat.mod_eq_of_lt (by omega), hcount]

/-- INIT latches the configuration, resets `OUT_TOTAL` and keeps COUNT (R131). -/
theorem exec_init_latches {s t : State} (hs : exec .init s = .next t) :
    t.lcfg = s.cfg ∧ t.outTotal = 0 ∧ t.count = s.count := by
  cases initDid hs <;> exact ⟨rfl, rfl, rfl⟩

/-- Settles O29: CONTINUE completes (O30), and without a fault it returns COUNT = U bytes, the whole way to the target (O28). -/
theorem oneShotDecodeEnds : Obligations.OneShotDecodeEnds := by
  intro s s1 h hb he hcount hinit ha
  have h1 : Inv s1 := execInit_keeps_inv h hinit
  obtain ⟨hlcfg, hzero, hkept⟩ := exec_init_latches hinit
  obtain ⟨t, ht⟩ := exec_cont_completes h1
  refine ⟨t, ht, ?_⟩
  by_cases hf : t.sess = .faulted
  · exact .inr ⟨hf, ((execCont_keeps_inv h1 ht).faulted hf).1⟩
  have hdriven : s1.lcfg.engine ≠ 2 := by rw [hlcfg]; exact he
  have hopen := engineOpen_iff.2 ⟨ha, hdriven⟩
  obtain ⟨-, -, htotal⟩ := continueResultAndEnd s1 t ha hdriven ht hf
  obtain ⟨hres, -, heos⟩ := boundedContinueStopsAtTarget s1 t h1 ha hdriven (by rw [hlcfg]; exact hb) ht hf
  rw [hzero, zero_add] at htotal
  rw [hlcfg, hkept, hcount, hzero] at hres
  rw [hlcfg] at heos
  have hU : t.result = s.cfg.unpackedSize := BitVec.eq_of_toNat_eq (by simpa using hres)
  exact .inl ⟨exec_cont_active hopen ht hf, hU, htotal.trans hU, heos.2 (htotal.trans hU)⟩

end Sys2Proof.Machine
end

section
/-! PROOFS. A CONTINUE counts its bytes from where it starts (41_session.md R139, 70_reset_and_hazards.md R256): the steps of the same
session with another count and the base moved to match are the same steps, so two CONTINUEs end where one ends. -/

namespace Sys2Proof.Machine

/-! ### Another count, and the base moved to match -/

/-- The same state inside a CONTINUE that has counted `d` bytes more from an `OUT_ADDR` lower by `d`, with `COUNT` and `RESULT` at
`c` and `r`. A fault has set `RESULT` and the command's own n, which then stay (R222). -/
def State.rebased (d c r : Word) (s : State) : State :=
  { s with
    count := c
    outAddr := s.outAddr - d
    result := if s.sess = .faulted then s.result else r
    run := { s.run with n := if s.sess = .faulted then s.run.n else s.run.n + d } }

/-- An outcome, moved likewise. -/
def rebaseRes (d c r : Word) (o : Res) : Res := andThen o fun s => .next (s.rebased d c r)

/-- A fetch, moved likewise. -/
def Fetched.rebased (d c r : Word) : Fetched → Fetched
  | .token i s => .token i (s.rebased d c r)
  | .exhausted s => .exhausted (s.rebased d c r)

section Commutes

variable (d c r : Word)

@[simp] theorem rebased_lcfg (s : State) : (s.rebased d c r).lcfg = s.lcfg := rfl
@[simp] theorem rebased_phase (s : State) : (s.rebased d c r).phase = s.phase := rfl
@[simp] theorem rebased_ctrlLeft (s : State) : (s.rebased d c r).ctrlLeft = s.ctrlLeft := rfl
@[simp] theorem rebased_nextNode (s : State) : (s.rebased d c r).nextNode = s.nextNode := rfl
@[simp] theorem rebased_root (s : State) : (s.rebased d c r).root = s.root := rfl
@[simp] theorem rebased_run_sel (s : State) : (s.rebased d c r).run.sel = s.run.sel := rfl
@[simp] theorem rebased_run_node (s : State) : (s.rebased d c r).run.node = s.run.node := rfl
@[simp] theorem rebased_targetReached (s : State) : targetReached (s.rebased d c r) = targetReached s := rfl
@[simp] theorem rebased_awaits (s : State) : awaits (s.rebased d c r) = awaits s := rfl

theorem rebased_run_n {s : State} (h : s.sess ≠ .faulted) : (s.rebased d c r).run.n = s.run.n + d := if_neg h

/-- Rebasing passes through a chain of steps when it passes through each. -/
theorem andThen_rebaseRes {o : Res} {f : State → Res}
    (h : ∀ u, o = .next u → f (u.rebased d c r) = rebaseRes d c r (f u)) :
    andThen (rebaseRes d c r o) f = rebaseRes d c r (andThen o f) := by
  cases o with
  | next u => exact h u rfl
  | fault | refused => rfl

/-! ### The operations of the state -/

theorem raise_rebased (f : FaultCode) (s : State) : raise f (s.rebased d c r) = (raise f s).rebased d c r := rfl

theorem exhaust_rebased (f : FaultCode) (s : State) : exhaust f (s.rebased d c r) = (exhaust f s).rebased d c r := by
  unfold exhaust
  rw [rebased_lcfg]
  split <;> rfl

theorem exhaustAt_rebased (p : Place) (s : State) : exhaustAt p (s.rebased d c r) = (exhaustAt p s).rebased d c r := by
  cases p with
  | tree => exact raise_rebased d c r .truncTree s
  | ctrl | literal | reference | code => exact exhaust_rebased d c r _ s

theorem checkTarget_rebased (s : State) : checkTarget (s.rebased d c r) = (checkTarget s).rebased d c r := by
  unfold checkTarget
  rw [rebased_targetReached]
  split <;> rfl

theorem outAw_le_of_params_ok {p : Params} (h : p.ok = true) : p.outAw ≤ 32 := by
  simp only [Params.ok, Bool.and_eq_true, decide_eq_true_eq] at h
  omega

/-- A byte's address depends on the sum of base and count only, since addresses have at most 32 bits (R9, R65). -/
theorem outByteAddr_rebased {p : Params} (h : p.outAw ≤ 32) (base n : Word) :
    outByteAddr p (base - d) (n + d).toNat = outByteAddr p base n.toNat := by
  have hdvd : 2 ^ p.outAw ∣ 2 ^ 32 := pow_dvd_pow 2 h
  have hsum : ((base - d).toNat + (n + d).toNat) % 2 ^ 32 = (base.toNat + n.toNat) % 2 ^ 32 := by bv_omega
  unfold outByteAddr
  rw [← Nat.mod_mod_of_dvd _ hdvd, hsum, Nat.mod_mod_of_dvd _ hdvd]

/-- An emitted byte goes to the same address (R136). -/
theorem emit_rebased {s : State} (b : Byte) (h32 : s.params.outAw ≤ 32) (ho : s.sess ≠ .faulted) :
    emit b (s.rebased d c r) = (emit b s).rebased d c r := by
  have hn : s.run.n + d + 1 = s.run.n + 1 + d := by ring
  simp only [emit, memWrite, State.rebased, ho, if_false, outByteAddr_rebased d h32, hn]

/-! ### Fetching a token -/

theorem getBits_rebased (k : Port) (n : Nat) (s : State) :
    getBits k n (s.rebased d c r) = ((getBits k n s).1, (getBits k n s).2.rebased d c r) := by
  cases k <;> rfl

theorem fetchByte_rebased (k : Port) (mk : Byte → Instr) (s : State) :
    fetchByte k mk (s.rebased d c r) = (fetchByte k mk s).rebased d c r := by
  unfold fetchByte
  rw [getBits_rebased]
  obtain ⟨v, u⟩ := getBits k 8 s
  cases v <;> rfl

theorem fetchToken_rebased (p : Place) (s : State) : fetchToken p (s.rebased d c r) = (fetchToken p s).rebased d c r := by
  cases p with
  | ctrl => exact fetchByte_rebased d c r _ _ s
  | literal => exact fetchByte_rebased d c r _ _ s
  | reference =>
    simp only [fetchToken]
    rw [rebased_lcfg, getBits_rebased]
    obtain ⟨v, u⟩ := getBits .p0 s.lcfg.distW s
    cases v with
    | none => rfl
    | some x =>
      dsimp only
      rw [rebased_lcfg, getBits_rebased]
      obtain ⟨l, w⟩ := getBits .p0 u.lcfg.lenW u
      cases l <;> rfl
  | tree =>
    simp only [fetchToken]
    rw [getBits_rebased]
    obtain ⟨v, u⟩ := getBits .p0 1 s
    cases v with
    | none => rfl
    | some x =>
      dsimp only
      split
      · rfl
      · exact fetchByte_rebased d c r _ _ u
  | code =>
    simp only [fetchToken]
    rw [getBits_rebased]
    obtain ⟨v, u⟩ := getBits .p0 1 s
    cases v <;> rfl

/-! ### The meanings of the tokens -/

theorem atPlace_rebased {p : Place} {s : State} {e : State → State}
    (h : awaits s = some p → e (s.rebased d c r) = (e s).rebased d c r) :
    atPlace p (s.rebased d c r) e = rebaseRes d c r (atPlace p s e) := by
  unfold atPlace
  rw [rebased_awaits]
  split
  next ha => rw [h ha]; rfl
  next => rfl

theorem returnSubtree_rebased (l : List BuildSlot) (x : BitVec 9) (s : State) :
    returnSubtree l x (s.rebased d c r) = (returnSubtree l x s).rebased d c r := by
  induction l generalizing x s with
  | nil => rfl
  | cons slot rest ih =>
    cases slot with
    | left v => rfl
    | right v => exact ih v (setRhs v x s)

theorem moveTo_rebased {s : State} (child : BitVec 9) (h32 : s.params.outAw ≤ 32) (ho : s.sess ≠ .faulted) :
    moveTo child (s.rebased d c r) = (moveTo child s).rebased d c r := by
  unfold moveTo
  split
  · exact emit_rebased d c r (s := { s with run := { s.run with node := none } }) (leafByte child) h32 ho
  · rfl

/-- A token awaited belongs to an open session. -/
theorem not_faulted_of_awaits {p : Place} {s : State} (h : awaits s = some p) : s.sess ≠ .faulted := by
  intro hf
  unfold awaits at h
  rw [if_neg (by simp [hf])] at h
  cases h

theorem runToken_rebased (i : Instr) {s : State} (h32 : s.params.outAw ≤ 32) :
    runToken i (s.rebased d c r) = rebaseRes d c r (runToken i s) := by
  cases i with
  | init | cont | getbits | bitreset | close => rfl
  | lzCtrl x =>
    simp only [runToken, execLzCtrl]
    exact atPlace_rebased d c r fun _ => rfl
  | lzLit b =>
    simp only [runToken, execLzLit]
    refine atPlace_rebased d c r fun ha => ?_
    have ho : s.sess ≠ .faulted := not_faulted_of_awaits ha
    exact emit_rebased d c r (s := windowPush b { s with run := { s.run with sel := none } }) b h32 ho
  | lzRef x l =>
    simp only [runToken, execLzRef]
    refine atPlace_rebased d c r fun _ => ?_
    rw [rebased_lcfg]
    split
    · rfl
    · split <;> rfl
  | hufBranch =>
    simp only [runToken, execHufBranch]
    refine atPlace_rebased d c r fun _ => ?_
    rw [rebased_nextNode]
    split <;> rfl
  | hufLeaf v => exact atPlace_rebased d c r fun _ => returnSubtree_rebased d c r _ _ s
  | hufCode0 => exact atPlace_rebased d c r fun ha => moveTo_rebased d c r _ h32 (not_faulted_of_awaits ha)
  | hufCode1 => exact atPlace_rebased d c r fun ha => moveTo_rebased d c r _ h32 (not_faulted_of_awaits ha)

theorem engineToken_rebased (p : Place) {s : State} (h32 : s.params.outAw ≤ 32) :
    engineToken p (s.rebased d c r) = rebaseRes d c r (engineToken p s) := by
  unfold engineToken
  rw [fetchToken_rebased]
  obtain ⟨i, u, hf, -, hin⟩ | ⟨u, hf, -⟩ := fetchToken_read p s
  · rw [hf]
    exact runToken_rebased d c r i (by rw [hin.kept.params]; exact h32)
  · rw [hf]
    exact congrArg Host.Outcome.next (exhaustAt_rebased d c r p u)

/-! ### The engine steps -/

theorem moveTo_kept (child : BitVec 9) (s : State) : StepKept s (moveTo child s) := by
  obtain hm | hm := moveTo_cases child s <;> rw [hm] <;> constructor <;> rfl

/-- A token's meaning keeps what no engine step changes. -/
theorem exec_token_kept {i : Instr} {p : Place} {s t : State} (hp : i.place = some p) (hs : exec i s = .next t) :
    StepKept s t := by
  cases i with
  | init | cont | getbits | bitreset | close => cases hp
  | lzCtrl x => obtain ⟨-, rfl⟩ := execLzCtrl_next hs; constructor <;> rfl
  | lzLit b => obtain ⟨-, rfl⟩ := execLzLit_next hs; constructor <;> rfl
  | lzRef x l => obtain ⟨-, ⟨f, rfl⟩ | ⟨-, -, -, rfl⟩⟩ := execLzRef_next hs <;> constructor <;> rfl
  | hufBranch => obtain ⟨-, ⟨-, rfl⟩ | ⟨-, rfl⟩⟩ := execHufBranch_next hs <;> constructor <;> rfl
  | hufLeaf v => obtain ⟨-, rfl⟩ := execHufLeaf_next hs; exact (returnSubtree_cases _ _ s).1
  | hufCode0 => obtain ⟨-, rfl⟩ := execHufCode0_next hs; exact moveTo_kept _ s
  | hufCode1 => obtain ⟨-, rfl⟩ := execHufCode1_next hs; exact moveTo_kept _ s

theorem engineToken_kept {p : Place} {s t : State} (hs : engineToken p s = .next t) : StepKept s t := by
  obtain ⟨i, u, hu, hi, hin⟩ | ⟨u, hu, hin⟩ := engineToken_cases p s
  · exact hin.kept.trans (exec_token_kept hi (hu.symm.trans hs))
  · rw [hs] at hu
    cases hu
    exact hin.kept.trans (exhaustAt_kept p u)

theorem lzItemStep_rebased {s : State} (h32 : s.params.outAw ≤ 32) :
    lzItemStep (s.rebased d c r) = rebaseRes d c r (lzItemStep s) := by
  unfold lzItemStep
  rw [rebased_run_sel]
  split
  · exact engineToken_rebased d c r .literal h32
  · exact engineToken_rebased d c r .reference h32
  · rfl

theorem lzTokenStep_rebased {s : State} (h32 : s.params.outAw ≤ 32) :
    lzTokenStep (s.rebased d c r) = rebaseRes d c r (lzTokenStep s) := by
  unfold lzTokenStep
  rw [rebased_ctrlLeft]
  split
  · rw [engineToken_rebased d c r .ctrl h32]
    exact andThen_rebaseRes d c r fun u hu => lzItemStep_rebased d c r (by rw [(engineToken_kept hu).params]; exact h32)
  · exact lzItemStep_rebased d c r (s := takeCtrlBit s) h32

theorem lzCopyStep_rebased {s : State} (h32 : s.params.outAw ≤ 32) (ho : s.sess ≠ .faulted) :
    lzCopyStep (s.rebased d c r) = (lzCopyStep s).rebased d c r :=
  emit_rebased d c r (s := { windowPush (s.win.get s.copySrc.toNat) s with
    copySrc := BitVec.ofNat 24 ((s.copySrc.toNat + 1) % s.lcfg.frame)
    copyLeft := s.copyLeft - 1
    phase := if s.copyLeft - 1 = 0 then .lzToken else .lzCopy }) _ h32 ho

theorem hufBuildLoop_rebased (k : Nat) {s : State} (h32 : s.params.outAw ≤ 32) :
    hufBuildLoop k (s.rebased d c r) = rebaseRes d c r (hufBuildLoop k s) := by
  induction k generalizing s with
  | zero => exact congrArg Host.Outcome.next (exhaustAt_rebased d c r .tree s)
  | succ k ih =>
    unfold hufBuildLoop
    rw [engineToken_rebased d c r .tree h32]
    refine andThen_rebaseRes d c r fun u hu => ?_
    rw [rebased_phase]
    split
    · exact ih (by rw [(engineToken_kept hu).params]; exact h32)
    · rfl

theorem hufSymLoop_rebased (k : Nat) {s : State} (h32 : s.params.outAw ≤ 32) :
    hufSymLoop k (s.rebased d c r) = rebaseRes d c r (hufSymLoop k s) := by
  induction k generalizing s with
  | zero => exact congrArg Host.Outcome.next (exhaustAt_rebased d c r .code s)
  | succ k ih =>
    unfold hufSymLoop
    rw [engineToken_rebased d c r .code h32]
    refine andThen_rebaseRes d c r fun u hu => ?_
    rw [rebased_run_node]
    split
    · rfl
    · exact ih (by rw [(engineToken_kept hu).params]; exact h32)

theorem hufSymStep_rebased {s : State} (h32 : s.params.outAw ≤ 32) (ho : s.sess ≠ .faulted) :
    hufSymStep (s.rebased d c r) = rebaseRes d c r (hufSymStep s) := by
  unfold hufSymStep
  rw [rebased_root]
  split
  · exact congrArg Host.Outcome.next (emit_rebased d c r _ h32 ho)
  · exact hufSymLoop_rebased d c r _ h32

/-- An engine step reads neither COUNT nor RESULT, and uses base and count of bytes by their sum only. -/
theorem engineStep_rebased {s : State} (h32 : s.params.outAw ≤ 32) (ho : s.sess ≠ .faulted) :
    engineStep (s.rebased d c r) = rebaseRes d c r (engineStep s) := by
  unfold engineStep
  rw [rebased_phase]
  split
  · rfl
  · exact lzTokenStep_rebased d c r h32
  · exact congrArg Host.Outcome.next (lzCopyStep_rebased d c r h32 ho)
  · exact hufBuildLoop_rebased d c r _ h32
  · exact hufSymStep_rebased d c r h32 ho

/-! ### The loop and its end -/

theorem rebased_goes_on {want want' : Word} {s : State} (ho : s.sess ≠ .faulted)
    (hcmp : s.run.n + d < want' ↔ s.run.n < want) :
    ((s.rebased d c r).run.n < want' ∧ (s.rebased d c r).eos = false) ↔ (s.run.n < want ∧ s.eos = false) := by
  rw [rebased_run_n d c r ho, hcmp]
  rfl

/-- The loop takes the same turns when the bytes asked move with the bytes counted. -/
theorem Loop.rebased {want want' : Word} {s t : State} (h : Loop want s t) (hr : s.run = .between s.run.n)
    (h32 : s.params.outAw ≤ 32) (ho : s.sess ≠ .faulted) (hcmp : ∀ m, s.run.n ≤ m → (m + d < want' ↔ m < want)) :
    Loop want' (s.rebased d c r) (t.rebased d c r) := by
  induction h with
  | stop hstop => exact .stop fun hgo => hstop ((rebased_goes_on d c r ho (hcmp _ (BitVec.le_refl _))).1 hgo)
  | @fault s t hgo hstep hf =>
    refine .fault ((rebased_goes_on d c r ho (hcmp _ (BitVec.le_refl _))).2 hgo) ?_ hf
    rw [engineStep_rebased d c r h32 ho, hstep]
    rfl
  | @turn s u t hgo hstep hopen _ ih =>
    obtain ⟨m, hturn⟩ := engineStep_turned hgo.2 hr hstep hopen
    have hn := hturn.n_toNat hgo.1
    have hrest := ih hturn.between (by rw [hturn.kept.params]; exact h32) (by rw [hturn.going.sess]; exact ho)
      fun j hj => hcmp j (by rw [BitVec.le_def] at hj ⊢; omega)
    rw [← checkTarget_rebased] at hrest
    refine .turn (u := u.rebased d c r) ((rebased_goes_on d c r ho (hcmp _ (BitVec.le_refl _))).2 hgo) ?_ hopen hrest
    rw [engineStep_rebased d c r h32 ho, hstep]
    rfl

/-- The end of CONTINUE differs in COUNT, OUT_ADDR and RESULT only. -/
theorem finishCont_rebased (s : State) (x y z : Word) :
    { finishCont (s.rebased d c r) with count := x, outAddr := y, result := z } =
      { finishCont s with count := x, outAddr := y, result := z } := by
  by_cases hf : s.sess = .faulted
  · rw [finishCont_of_faulted hf, finishCont_of_faulted (show (s.rebased d c r).sess = .faulted from hf)]
    simp only [State.rebased, if_pos hf]
  · rw [finishCont_of_open hf, finishCont_of_open (show (s.rebased d c r).sess ≠ .faulted from hf)]
    rfl

end Commutes

/-! ### Two CONTINUEs (R139) -/

/-- A loop that asks for more bytes passes through the end of one that asks for fewer, or ends in the same fault. -/
theorem Loop.continues {want want' : Word} {s t u : State} (h : Loop want s u) (h' : Loop want' s t) (hle : want ≤ want')
    (ho : s.sess ≠ .faulted) : (u.sess = .faulted ∧ t = u) ∨ (u.sess ≠ .faulted ∧ Loop want' u t) := by
  have hmore : ∀ {x : State}, x.run.n < want ∧ x.eos = false → x.run.n < want' ∧ x.eos = false := by
    rintro x ⟨hn, he⟩
    rw [BitVec.lt_def] at hn ⊢
    rw [BitVec.le_def] at hle
    exact ⟨by omega, he⟩
  induction h with
  | stop => exact .inr ⟨ho, h'⟩
  | fault hgo hstep hf => exact .inl ⟨hf, (loop_iff_of_fault (hmore hgo) hstep hf).1 h'⟩
  | turn hgo hstep hopen _ ih =>
    exact ih ((loop_iff_of_turn (hmore hgo) hstep hopen).1 h') (by rw [checkTarget_sess]; exact hopen)

/-- Without EOS a CONTINUE has written all the bytes asked (R140). -/
theorem LoopEnd.n_eq_of_not_eos {want : Word} {m : Nat} {s u : State} (h : LoopEnd want m (contStart s) u)
    (heos : u.eos = false) : u.run.n = want := by
  have hm : 0 + m = want.toNat := by simpa using h.full heos
  rw [h.n_eq, ← Nat.zero_add m, hm, BitVec.ofNat_toNat, BitVec.setWidth_eq]

/-- Entering the loop, only the count of bytes asked differs. -/
theorem contStart_withCount (s : State) (a b : Word) :
    (contStart { s with count := a }).rebased 0 b s.result = contStart { s with count := b } := by
  unfold contStart
  rw [← checkTarget_rebased]
  simp [State.rebased, Run.rest]

/-- The second CONTINUE enters its loop where the first left it, its count moved to 0 and its base to match (R256). -/
theorem contStart_finishCont {u : State} (b : Word) (hr : u.run = .between u.run.n) (ho : u.sess ≠ .faulted)
    (hc : checkTarget u = u) :
    contStart { finishCont u with count := b, outAddr := u.outAddr + (finishCont u).result } = u.rebased (-u.run.n) b u.run.n := by
  rw [← hc, ← checkTarget_rebased, hc, finishCont_of_open ho]
  unfold contStart
  congr 1
  have hrun : ({ u.run with n := u.run.n + -u.run.n } : Run) = .rest := by rw [hr, add_neg_cancel]; rfl
  simp only [State.rebased, if_neg ho, hrun, sub_neg_eq_add]

/-- The rest of the loop for `a + b` bytes is the loop of a second CONTINUE for `b`, after a first that wrote `a` or set EOS. -/
theorem Loop.second {a b : Word} {u t : State} (h : Loop (a + b) u t) (hab : a.toNat + b.toNat < 2 ^ 32)
    (hr : u.run = .between u.run.n) (ho : u.sess ≠ .faulted) (h32 : u.params.outAw ≤ 32)
    (hfull : u.eos = false → u.run.n = a) :
    Loop b (u.rebased (-u.run.n) b u.run.n) (t.rebased (-u.run.n) b u.run.n) := by
  cases heos : u.eos with
  | true =>
    have hstop : ¬(u.run.n < a + b ∧ u.eos = false) := fun hgo => by rw [heos] at hgo; cases hgo.2
    rw [(loop_iff_of_stop hstop).1 h]
    exact .stop fun hgo => by cases heos.symm.trans hgo.2
  | false =>
    have hn := hfull heos
    refine h.rebased _ _ _ hr h32 ho fun m hm => ?_
    rw [hn] at hm ⊢
    rw [BitVec.le_def] at hm
    rw [BitVec.lt_def, BitVec.lt_def]
    bv_omega

/-- Settles O26: the one loop passes through the end of the first CONTINUE, and its rest is the loop of the second. -/
theorem chunkedContinueEqualsOne : Obligations.ChunkedContinueEqualsOne := by
  intro s s1 t a b hp ha he hab h1 ht
  have h32 := outAw_le_of_params_ok hp
  have hopen : ∀ n, engineOpen { s with count := n } = true := fun _ => engineOpen_iff.2 ⟨ha, he⟩
  obtain ⟨u, hu, rfl⟩ := (exec_cont_eq_next_iff (hopen a)).1 h1
  obtain ⟨v, hv, rfl⟩ := (exec_cont_eq_next_iff (hopen (a + b))).1 ht
  have hstart : (contStart { s with count := a }).sess ≠ .faulted := by rw [contStart_sess, ha]; decide
  have hone : Loop (a + b) (contStart { s with count := a }) (v.rebased 0 a s.result) := by
    rw [← contStart_withCount s (a + b) a]
    refine hv.rebased 0 a s.result (by rw [contStart_run]; rfl) (by rw [(contStart_kept _).params]; exact h32)
      (by rw [contStart_sess, ha]; decide) fun m _ => by rw [add_zero]
  have hle : a ≤ a + b := by rw [BitVec.le_def]; bv_omega
  obtain ⟨hf, hsame⟩ | ⟨hf, hrest⟩ := hu.continues hone hle hstart
  · have hfin : (finishCont u).sess = .faulted := by rw [finishCont_sess]; exact hf
    refine ⟨_, exec_cont_of_faulted hfin, ?_⟩
    rw [← hsame]
    exact finishCont_rebased 0 a s.result v _ _ _
  · obtain ⟨m, hl⟩ := hu.looped_of_start ha
    have hend := hl.ending.resolve_left hf
    have hkept := (contStart_kept _).trans hl.kept
    have hfull : u.eos = false → u.run.n = a := hend.n_eq_of_not_eos
    have hbetween : u.run = .between u.run.n := by rw [hend.run]; rfl
    have hopen2 : engineOpen { finishCont u with count := b, outAddr := u.outAddr + (finishCont u).result } = true :=
      engineOpen_iff.2 ⟨(finishCont_sess u).trans (hend.going.sess.trans ((contStart_sess _).trans ha)),
        by rw [show (finishCont u).lcfg = s.lcfg from (hkept.trans (finishCont_kept u)).lcfg]; exact he⟩
    have hsecond := hrest.second hab hbetween hf (by rw [hkept.params]; exact h32) hfull
    rw [← contStart_finishCont b hbetween hf hend.checked] at hsecond
    have hexec := (exec_cont_eq_next_iff hopen2).2 ⟨_, hsecond, rfl⟩
    have haddr : u.outAddr = s.outAddr := hkept.outAddr
    rw [← haddr]
    refine ⟨_, hexec, ?_⟩
    rw [finishCont_rebased, finishCont_rebased]

end Sys2Proof.Machine
end

section
/-! PROOFS. The rules of the LZSS engine (42_lzss.md): indices mod FS, and what each of its tokens and its copy step does, said
once. -/

namespace Sys2Proof.Machine

/-! ### Indices mod FS -/

/-- An index mod FS fits the 24 bits of `CUR` and `COPY_SRC` (R28). -/
theorem toNat_ofNat_mod {f : Nat} (x : Nat) (hpos : 0 < f) (hf : f ≤ 2 ^ 24) : (BitVec.ofNat 24 (x % f)).toNat = x % f := by
  rw [BitVec.toNat_ofNat]
  exact Nat.mod_eq_of_lt (lt_of_lt_of_le (Nat.mod_lt x hpos) hf)

/-- Two positions of one turn around the window are two cells. -/
theorem mod_ne_mod_of_lt_of_lt_add {a b f : Nat} (hab : a < b) (hb : b < a + f) : a % f ≠ b % f := fun h => by
  have hdvd : f ∣ b - a := (Nat.modEq_iff_dvd' hab.le).1 h
  have := Nat.le_of_dvd (by omega) hdvd
  omega

/-- The j-th cell before a position depends on the position mod FS only. -/
theorem mod_add_sub_mod {f j : Nat} (x : Nat) (hj : j ≤ f) : (x % f + f - j) % f = (x + f - j) % f := by
  rw [Nat.add_sub_assoc hj, Nat.mod_add_mod, ← Nat.add_sub_assoc hj]

/-! ### The tokens at their places (R162 to R165) -/

theorem exec_lzCtrl_of_awaits {s : State} (x : Byte) (h : awaits s = some .ctrl) :
    exec (.lzCtrl x) s = .next (takeCtrlBit { s with ctrlSr := x, ctrlLeft := 8 }) := by
  rw [exec, execLzCtrl, atPlace_of_awaits h]

theorem exec_lzLit_of_awaits {s : State} (b : Byte) (h : awaits s = some .literal) :
    exec (.lzLit b) s = .next (emit b (windowPush b { s with run := { s.run with sel := none } })) := by
  rw [exec, execLzLit, atPlace_of_awaits h]

theorem exec_lzRef_of_badDistance {s : State} {d : BitVec 24} (l : BitVec 24) (h : awaits s = some .reference)
    (hd : refDistance s.lcfg d = 0 ∨ s.lcfg.frame < refDistance s.lcfg d) :
    exec (.lzRef d l) s = .next (raise .malBadDistance s) := by
  rw [exec, execLzRef, atPlace_of_awaits h, if_pos hd]

theorem exec_lzRef_of_zeroLength {s : State} {d l : BitVec 24} (h : awaits s = some .reference)
    (h1 : 1 ≤ refDistance s.lcfg d) (hf : refDistance s.lcfg d ≤ s.lcfg.frame) (hl : refLength s.lcfg l = 0) :
    exec (.lzRef d l) s = .next (raise .malZeroLength s) := by
  rw [exec, execLzRef, atPlace_of_awaits h, if_neg (by omega), if_pos hl]

theorem exec_lzRef_of_legal {s : State} {d l : BitVec 24} (h : awaits s = some .reference)
    (h1 : 1 ≤ refDistance s.lcfg d) (hf : refDistance s.lcfg d ≤ s.lcfg.frame) (hl : 1 ≤ refLength s.lcfg l) :
    exec (.lzRef d l) s = .next (startCopy (refDistance s.lcfg d) (refLength s.lcfg l) s) := by
  rw [exec, execLzRef, atPlace_of_awaits h, if_neg (by omega), if_neg (by omega)]

/-! ### The copy step (R167) -/

@[simp] theorem lzCopyStep_lcfg (s : State) : (lzCopyStep s).lcfg = s.lcfg := rfl

@[simp] theorem lzCopyStep_cur (s : State) :
    (lzCopyStep s).cur = BitVec.ofNat 24 ((s.cur.toNat + 1) % s.lcfg.frame) := rfl

@[simp] theorem lzCopyStep_copySrc (s : State) :
    (lzCopyStep s).copySrc = BitVec.ofNat 24 ((s.copySrc.toNat + 1) % s.lcfg.frame) := rfl

@[simp] theorem lzCopyStep_win (s : State) :
    (lzCopyStep s).win = s.win.set s.cur.toNat (s.win.get s.copySrc.toNat) := rfl

theorem engineStep_of_lzCopy {s : State} (h : s.phase = .lzCopy) : engineStep s = .next (lzCopyStep s) := by
  rw [engineStep, h]

end Sys2Proof.Machine
end

section
/-! PROOFS. One token and one copy step of the LZSS engine, with their effect and frame (42_lzss.md R162 to R167). -/

namespace Sys2Proof.Machine

/-! ### Control bytes and literals -/

/-- Settles O31: the byte is loaded with eight bits, and its first bit is taken. -/
theorem controlByteIsTaken : Obligations.ControlByteIsTaken := by
  intro s x hs he hp hsel hc
  rw [exec_lzCtrl_of_awaits x (awaits_ctrl.2 ⟨hs, he, hp, hsel, hc⟩), takeCtrlBit]
  simp only [Bool.bne_eq_xor]
  rfl

/-- Settles O33: a window push, then an emit. -/
theorem literalWritesWindowAndOutput : Obligations.LiteralWritesWindowAndOutput := by
  intro s b hs he hp hsel hpos hf
  refine ⟨_, exec_lzLit_of_awaits b (awaits_literal.2 ⟨hs, he, hp, hsel⟩), ?_, ?_, ?_, rfl⟩
  · exact Window.get_set s.win s.cur.toNat b
  · exact toNat_ofNat_mod _ hpos hf
  · exact read_emit b _

/-! ### Back-reference headers -/

/-- The position d before the cursor, computed in the naturals, is `(CUR - d) mod FS`. -/
theorem cast_add_sub_mod {c d f : Nat} (hd : d ≤ f) :
    (((c + f - d) % f : Nat) : Int) = ((c : Int) - (d : Int)) % (f : Int) := by
  have hsub : ((c + f - d : Nat) : Int) = (c : Int) - d + f := by omega
  rw [Int.natCast_mod, hsub, Int.add_emod_right]

/-- Settles O34: a legal header passes both checks, and its sums fit `COPY_SRC` and `COPY_LEFT`. -/
theorem backReferenceStartsCopy : Obligations.BackReferenceStartsCopy := by
  intro s d l hs he hp hsel hcur hf h1 hd hl
  refine ⟨_, exec_lzRef_of_legal (awaits_reference.2 ⟨hs, he, hp, hsel⟩) h1 hd hl, ?_, ?_, rfl⟩
  · rw [startCopy_copySrc, toNat_ofNat_mod _ (by omega) hf]
    exact cast_add_sub_mod hd
  · rw [startCopy_copyLeft, BitVec.toNat_ofNat]
    exact Nat.mod_eq_of_lt (refLength_lt s.lcfg l)

/-- Settles O35: the distance is checked first, and each check raises its own fault. -/
theorem backReferenceRangeChecks : Obligations.BackReferenceRangeChecks := by
  intro s d l hs he hp hsel
  have hawaits := awaits_reference.2 ⟨hs, he, hp, hsel⟩
  constructor
  · intro hbad
    rw [exec_lzRef_of_badDistance l hawaits hbad]
    rfl
  · intro h1 hd hl
    rw [exec_lzRef_of_zeroLength hawaits h1 hd hl]
    rfl

/-! ### The copy step -/

/-- Settles O36: the byte is read before the window push that may overwrite it. -/
theorem copyStepCopiesOneByte : Obligations.CopyStepCopiesOneByte := by
  intro s hp hpos hf
  refine ⟨_, engineStep_of_lzCopy hp, ?_, ?_, ?_, rfl, rfl, ?_, rfl⟩
  · exact Window.get_set s.win s.cur.toNat _
  · exact toNat_ofNat_mod _ hpos hf
  · exact toNat_ofNat_mod _ hpos hf
  · exact read_emit _ _

/-! ### Exhaustion -/

/-- Settles O40: the places differ in their fault, and the tree also in raising it in unbounded sessions. -/
theorem exhaustionByPlace : Obligations.ExhaustionByPlace := by
  intro p s t hfetch
  have hrun : engineToken p s = .next (exhaustAt p t) := by rw [engineToken, hfetch]
  rw [hrun]
  cases p with
  | tree => rfl
  | ctrl | literal | reference | code =>
    cases hb : t.lcfg.bounded with
    | true =>
      rw [exhaustAt, exhaust_of_bounded _ _ hb]
      rfl
    | false =>
      rw [exhaustAt, exhaust_of_unbounded _ _ hb]
      rfl

end Sys2Proof.Machine
end

section
/-! PROOFS. Any number of copy steps (42_lzss.md R171, R172): the bytes a copy repeats, and the copy that changes no cell. -/

namespace Sys2Proof.Machine

/-! ### A copy of distance d (R171) -/

/-- The k-th byte of a copy of distance d that starts in `s`, as R171 gives it: the d bytes before the cursor, repeated. -/
def copiedByte (s : State) (d k : Nat) : Byte :=
  s.win.get ((s.cur.toNat + s.lcfg.frame - d + k % d) % s.lcfg.frame)

/-- The copy has period d. -/
theorem copiedByte_add (s : State) (d k : Nat) : copiedByte s d (k + d) = copiedByte s d k := by
  rw [copiedByte, Nat.add_mod_right, copiedByte]

/-- `t` is k steps into the copy of distance d that starts in `s`: the source and the cursor have both moved by k, and the d cells
from the source on, which end just before the cursor, hold the next d bytes of the copy. -/
structure Copying (s : State) (d k : Nat) (t : State) : Prop where
  lcfg : t.lcfg = s.lcfg
  source : t.copySrc.toNat = (s.cur.toNat + s.lcfg.frame - d + k) % s.lcfg.frame
  cursor : t.cur.toNat = (s.cur.toNat + s.lcfg.frame - d + (k + d)) % s.lcfg.frame
  cells : ∀ i, i < d → t.win.get ((s.cur.toNat + s.lcfg.frame - d + (k + i)) % s.lcfg.frame) = copiedByte s d (k + i)

theorem Copying.start {s : State} {d : Nat} (hcur : s.cur.toNat < s.lcfg.frame) (hd : d ≤ s.lcfg.frame)
    (hsrc : s.copySrc.toNat = (s.cur.toNat + s.lcfg.frame - d) % s.lcfg.frame) : Copying s d 0 s where
  lcfg := rfl
  source := hsrc
  cursor := by
    rw [show s.cur.toNat + s.lcfg.frame - d + (0 + d) = s.cur.toNat + s.lcfg.frame by omega, Nat.add_mod_right,
      Nat.mod_eq_of_lt hcur]
  cells i hi := by rw [copiedByte, Nat.zero_add, Nat.mod_eq_of_lt hi]

/-- The byte a copy step is about to emit. -/
theorem Copying.next_byte {s t : State} {d k : Nat} (h : Copying s d k t) (h1 : 1 ≤ d) :
    t.win.get t.copySrc.toNat = copiedByte s d k := by
  rw [h.source]
  exact h.cells 0 h1

/-- One copy step: the byte written at the cursor is the one the period calls for there, and the other cells are not written. -/
theorem Copying.step {s t : State} {d k : Nat} (h : Copying s d k t) (h1 : 1 ≤ d) (hd : d ≤ s.lcfg.frame)
    (hf : s.lcfg.frame ≤ 2 ^ 24) : Copying s d (k + 1) (lzCopyStep t) where
  lcfg := h.lcfg
  source := by
    rw [lzCopyStep_copySrc, h.lcfg, toNat_ofNat_mod _ (by omega) hf, h.source, Nat.mod_add_mod]
    rfl
  cursor := by
    rw [lzCopyStep_cur, h.lcfg, toNat_ofNat_mod _ (by omega) hf, h.cursor, Nat.mod_add_mod]
    congr 1
    omega
  cells i hi := by
    rw [lzCopyStep_win, Window.get_set, h.cursor, h.next_byte h1, show k + 1 + i = k + (i + 1) by omega]
    by_cases hlast : i + 1 = d
    · rw [hlast, if_pos rfl, copiedByte_add]
    · rw [if_neg (mod_ne_mod_of_lt_of_lt_add (by omega) (by omega))]
      exact h.cells (i + 1) (by omega)

theorem Copying.iterate {s : State} {d : Nat} (h : Copying s d 0 s) (h1 : 1 ≤ d) (hd : d ≤ s.lcfg.frame)
    (hf : s.lcfg.frame ≤ 2 ^ 24) (k : Nat) : Copying s d k (lzCopyStep^[k] s) := by
  induction k with
  | zero => exact h
  | succ k ih =>
    rw [Function.iterate_succ_apply']
    exact ih.step h1 hd hf

/-- Settles O37, by induction on the steps of the copy: the d cells before the cursor always hold its next d bytes. -/
theorem copyRepeatsWithPeriodDistance : Obligations.CopyRepeatsWithPeriodDistance := by
  intro s d k hf hcur h1 hd hsrc
  exact ((Copying.start hcur hd hsrc).iterate h1 hd hf k).next_byte h1

/-! ### A copy of distance FS (R172) -/

/-- The source is the cursor, and every cell holds what it holds in `s`. -/
structure CopyInPlace (s t : State) : Prop where
  source : t.copySrc = t.cur
  cells : ∀ i, t.win.get i = s.win.get i

/-- A step that reads at the cursor writes back the byte it has read. -/
theorem CopyInPlace.step {s t : State} (h : CopyInPlace s t) : CopyInPlace s (lzCopyStep t) where
  source := by rw [lzCopyStep_copySrc, lzCopyStep_cur, h.source]
  cells i := by
    rw [lzCopyStep_win, Window.get_set, h.source]
    split
    next hi => rw [← hi, h.cells]
    next => exact h.cells i

theorem CopyInPlace.iterate {s t : State} (h : CopyInPlace s t) (k : Nat) : CopyInPlace s (lzCopyStep^[k] t) := by
  induction k with
  | zero => exact h
  | succ k ih =>
    rw [Function.iterate_succ_apply']
    exact ih.step

/-- A header of distance FS puts the source at the cursor. -/
theorem CopyInPlace.start {s : State} (len : Nat) (hf : s.lcfg.frame ≤ 2 ^ 24) (hcur : s.cur.toNat < s.lcfg.frame) :
    CopyInPlace s (startCopy s.lcfg.frame len s) where
  source := by
    apply BitVec.eq_of_toNat_eq
    rw [startCopy_copySrc, startCopy_cur, toNat_ofNat_mod _ (by omega) hf, Nat.add_sub_cancel, Nat.mod_eq_of_lt hcur]
  cells _ := rfl

/-- Settles O38. -/
theorem copyAtFullDistanceKeepsWindow : Obligations.CopyAtFullDistanceKeepsWindow := by
  intro s len k i hf hcur
  have h := (CopyInPlace.start len hf hcur).iterate k
  exact ⟨h.cells i, h.source⟩

end Sys2Proof.Machine
end

section
/-! PROOFS. The window as a record of the output (42_lzss.md R160, R173): established by INIT, kept by every token and every copy
step. -/

namespace Sys2Proof.Machine

/-! ### What keeps the record -/

/-- The record speaks of the latched configuration, the window and the cursor only. -/
theorem WindowHistory.congr {s t : State} {out : List Byte} (h : WindowHistory s out) (hl : t.lcfg = s.lcfg)
    (hw : t.win = s.win) (hc : t.cur = s.cur) : WindowHistory t out :=
  ⟨by rw [hl, hc]; exact h.cursor, by rw [hl, hw, hc]; exact h.cells⟩

/-- A byte pushed into the window is the most recent one: the cell it takes is FS before the new cursor, so the other FS - 1 cells
keep the bytes that are now one further back. -/
theorem WindowHistory.windowPush {s : State} {out : List Byte} (h : WindowHistory s out) (hpos : 0 < s.lcfg.frame)
    (hf : s.lcfg.frame ≤ 2 ^ 24) (b : Byte) : WindowHistory (windowPush b s) (out ++ [b]) where
  cursor := by
    rw [windowPush_cur, windowPush_lcfg, toNat_ofNat_mod _ hpos hf, h.cursor, Nat.mod_add_mod, List.length_append]
    rfl
  cells j h1 hj := by
    rw [windowPush_lcfg] at hj ⊢
    rw [windowPush_cur, windowPush_win, toNat_ofNat_mod _ hpos hf, mod_add_sub_mod _ hj, Window.get_set,
      List.reverse_append]
    obtain ⟨i, rfl⟩ : ∃ i, j = i + 1 := ⟨j - 1, by omega⟩
    have hcur : (s.cur.toNat + s.lcfg.frame) % s.lcfg.frame = s.cur.toNat := by
      rw [Nat.add_mod_right, h.cursor, Nat.mod_mod]
    cases i with
    | zero =>
      rw [show s.cur.toNat + 1 + s.lcfg.frame - (0 + 1) = s.cur.toNat + s.lcfg.frame by omega, if_pos hcur]
      rfl
    | succ i =>
      have hother : (s.cur.toNat + s.lcfg.frame - (i + 1)) % s.lcfg.frame ≠ s.cur.toNat := fun heq =>
        mod_ne_mod_of_lt_of_lt_add (by omega) (by omega) (heq.trans hcur.symm)
      rw [show s.cur.toNat + 1 + s.lcfg.frame - (i + 1 + 1) = s.cur.toNat + s.lcfg.frame - (i + 1) by omega,
        if_neg hother]
      exact h.cells (i + 1) (by omega) (by omega)

theorem WindowHistory.lzCopyStep {s : State} {out : List Byte} (h : WindowHistory s out) (hpos : 0 < s.lcfg.frame)
    (hf : s.lcfg.frame ≤ 2 ^ 24) : WindowHistory (lzCopyStep s) (out ++ [s.win.get s.copySrc.toNat]) :=
  (h.windowPush hpos hf _).congr rfl rfl rfl

theorem WindowHistory.lzLit {s t : State} {out : List Byte} {b : Byte} (h : WindowHistory s out) (hpos : 0 < s.lcfg.frame)
    (hf : s.lcfg.frame ≤ 2 ^ 24) (hs : exec (.lzLit b) s = .next t) : WindowHistory t (out ++ [b]) := by
  obtain ⟨-, rfl⟩ := execLzLit_next hs
  exact (h.windowPush hpos hf b).congr rfl rfl rfl

theorem WindowHistory.lzCtrl {s t : State} {out : List Byte} {x : Byte} (h : WindowHistory s out)
    (hs : exec (.lzCtrl x) s = .next t) : WindowHistory t out := by
  obtain ⟨-, rfl⟩ := execLzCtrl_next hs
  exact h.congr rfl rfl rfl

/-- A header writes no byte, whether it starts a copy or faults (R164, R165). -/
theorem WindowHistory.lzRef {s t : State} {out : List Byte} {d l : BitVec 24} (h : WindowHistory s out)
    (hs : exec (.lzRef d l) s = .next t) : WindowHistory t out := by
  obtain ⟨-, ⟨f, rfl⟩ | ⟨-, -, -, rfl⟩⟩ := execLzRef_next hs
  · exact h.congr rfl rfl rfl
  · exact h.congr rfl rfl rfl

/-! ### What establishes it -/

/-- INIT fills the window and puts the cursor at `FRAME_INIT_POS` mod FS (R131, R160). -/
theorem startLzss_windowHistory {s : State} (hpos : 0 < s.lcfg.frame) (hf : s.lcfg.frame ≤ 2 ^ 24) :
    WindowHistory (startLzss s) [] where
  cursor := toNat_ofNat_mod _ hpos hf
  cells _ _ _ := rfl

/-- An LZSS configuration that INIT accepts has a frame size in 1..2^24 (R9, R131). -/
theorem frame_bounds_of_not_badLzss {p : Params} {c : ConfigRegs} (hp : p.ok = true) (h : c.badLzss p = false) :
    0 < c.frame ∧ c.frame ≤ 2 ^ 24 := by
  have hok : frameOk p c := by
    by_contra hno
    rw [badLzss_iff.2 (.inl hno)] at h
    cases h
  refine ⟨frameOk_pos hok, ?_⟩
  obtain ⟨k, hk, hframe⟩ := hok
  rw [hframe]
  exact two_pow_le_of_params_ok hp hk

theorem init_windowHistory {s t : State} (hp : s.params.ok = true) (he : s.cfg.engine = engineLzss)
    (hs : exec .init s = .next t) (ha : t.sess = .active) : WindowHistory t [] := by
  cases hbad : s.cfg.badLzss s.params with
  | true =>
    cases hs.symm.trans (exec_init_of_bad_lzss he hbad)
    cases ha
  | false =>
    cases hs.symm.trans (exec_init_of_lzss he hbad)
    obtain ⟨hpos, hf⟩ := frame_bounds_of_not_badLzss hp hbad
    exact startLzss_windowHistory (s := openSession s) hpos hf

/-- Settles O39: INIT establishes the record, and each token and the copy step keep it. -/
theorem windowHoldsRecentOutput : Obligations.WindowHoldsRecentOutput :=
  ⟨fun _ _ hinv he hs ha => init_windowHistory hinv.params he hs ha,
    fun _ _ _ h hpos hf => ⟨fun _ => h.lzLit hpos hf, fun _ => h.lzCtrl, fun _ _ => h.lzRef, h.lzCopyStep hpos hf⟩⟩

end Sys2Proof.Machine
end

section
/-! PROOFS. The tokens of the Huffman engine (43_huffman.md R193 to R195, 30_encoding.md R95, R96): what each does at its place, and
what a leaf does to the subtrees that wait for it. -/

namespace Sys2Proof.Machine

/-! ### Tree tokens (R193, R194) -/

/-- The state after a tree branch that finds a free node: the node waits for its left subtree. -/
def afterBranch (s : State) : State :=
  { s with
    nextNode := s.nextNode + 1
    run := { s.run with stack := .left (s.nextNode.setWidth 9) :: s.run.stack } }

theorem exec_hufBranch_of_free {s : State} (h : awaits s = some .tree) (hn : s.nextNode.toNat < 512) :
    exec .hufBranch s = .next (afterBranch s) := by
  rw [exec, execHufBranch, atPlace_of_awaits h, if_neg (by omega), afterBranch]

theorem exec_hufBranch_of_full {s : State} (h : awaits s = some .tree) (hn : 512 ≤ s.nextNode.toNat) :
    exec .hufBranch s = .next (raise .malTreeOverflow s) := by
  rw [exec, execHufBranch, atPlace_of_awaits h, if_pos hn]

theorem exec_hufLeaf_of_awaits {s : State} (v : Byte) (h : awaits s = some .tree) :
    exec (.hufLeaf v) s = .next (returnSubtree s.run.stack (v.setWidth 9) s) := by
  rw [exec, execHufLeaf, atPlace_of_awaits h]

/-- Settles O41: a branch has the two ends of R193, by the node it finds. -/
theorem treeBranchAllocates : Obligations.TreeBranchAllocates := by
  intro s hs he hp
  have hawaits := awaits_tree.2 ⟨hs, he, hp⟩
  refine ⟨exec_hufBranch_of_free hawaits, fun hfull => ?_⟩
  rw [exec_hufBranch_of_full hawaits hfull]
  rfl

/-! ### A subtree returned (R191, R193) -/

theorem returnSubtree_nil (x : BitVec 9) (s : State) :
    returnSubtree [] x s = { s with root := x, phase := .hufSym, run := { s.run with stack := [] } } := rfl

theorem returnSubtree_left (v x : BitVec 9) (rest : List BuildSlot) (s : State) :
    returnSubtree (.left v :: rest) x s = { setLhs v x s with run := { s.run with stack := .right v :: rest } } := rfl

theorem returnSubtree_right (v x : BitVec 9) (rest : List BuildSlot) (s : State) :
    returnSubtree (.right v :: rest) x s = returnSubtree rest v (setRhs v x s) := rfl

/-- Settles O42: `returnSubtree`, for each of the four stacks. -/
theorem treeLeafReturns : Obligations.TreeLeafReturns := by
  intro s v hs he hp
  refine ⟨_, exec_hufLeaf_of_awaits v (awaits_tree.2 ⟨hs, he, hp⟩), returnSubtree_frame .., ?_, ?_, ?_, ?_⟩
  · intro n rest hstack
    rw [hstack, returnSubtree_left]
    exact ⟨rfl, rfl, rfl, hp, rfl⟩
  · intro n m rest hstack
    rw [hstack, returnSubtree_right, returnSubtree_left]
    exact ⟨rfl, rfl, rfl, hp, rfl⟩
  · intro n hstack
    rw [hstack, returnSubtree_right, returnSubtree_nil]
    exact ⟨rfl, rfl, rfl, rfl, rfl⟩
  · intro hstack
    rw [hstack, returnSubtree_nil]
    exact ⟨rfl, rfl, rfl, rfl, rfl⟩

/-! ### Leaves and nodes (R29) -/

theorem isLeaf_iff {x : BitVec 9} : isLeaf x = true ↔ x.toNat < 256 := decide_eq_true_iff

theorem isLeaf_eq_false_iff {x : BitVec 9} : isLeaf x = false ↔ 256 ≤ x.toNat := by
  rw [isLeaf, decide_eq_false_iff_not, not_lt]

@[simp] theorem isLeaf_setWidth (v : Byte) : isLeaf (v.setWidth 9) = true := by
  rw [isLeaf_iff, BitVec.toNat_setWidth_of_le (by omega)]
  exact v.isLt

@[simp] theorem leafByte_setWidth (v : Byte) : leafByte (v.setWidth 9) = v := by
  rw [leafByte, BitVec.setWidth_setWidth_of_le _ (by omega), BitVec.setWidth_eq]

/-! ### Code bits (R195) -/

theorem moveTo_of_leaf {c : BitVec 9} (s : State) (h : isLeaf c = true) :
    moveTo c s = emit (leafByte c) { s with run := { s.run with node := none } } := if_pos h

theorem moveTo_of_node {c : BitVec 9} (s : State) (h : isLeaf c = false) :
    moveTo c s = { s with run := { s.run with node := some c } } := if_neg (by simp [h])

/-- The code bit `b`, as the token it is (R96). -/
def codeBit (b : Bool) : Instr := if b then .hufCode1 else .hufCode0

/-- The child of a node that the code bit `b` leads to (R195). -/
def childAt (s : State) (b : Bool) (x : BitVec 9) : BitVec 9 := if b then rhsAt s x else lhsAt s x

theorem exec_codeBit_of_awaits {s : State} (b : Bool) (h : awaits s = some .code) :
    exec (codeBit b) s = .next (moveTo (childAt s b (symNode s)) s) := by
  cases b with
  | false => exact atPlace_of_awaits h
  | true => exact atPlace_of_awaits h

/-- Settles O43: the child is a node or a leaf, and `moveTo` does what R195 says of either. -/
theorem codeBitFollowsChild : Obligations.CodeBitFollowsChild := by
  rintro s x hs he hp rfl hx i child hchild
  have hawaits := awaits_code.2 ⟨hs, he, hp, isLeaf_eq_false_iff.2 hx⟩
  have hexec : exec i s = .next (moveTo child s) := by
    obtain ⟨rfl, rfl⟩ | ⟨rfl, rfl⟩ := hchild
    · exact exec_codeBit_of_awaits false hawaits
    · exact exec_codeBit_of_awaits true hawaits
  refine ⟨_, hexec, fun hnode => moveTo_of_node s (isLeaf_eq_false_iff.2 hnode), fun hleaf => ?_⟩
  rw [moveTo_of_leaf s (isLeaf_iff.2 hleaf)]
  exact ⟨read_emit _ _, rfl⟩

end Sys2Proof.Machine
end

section
/-! PROOFS. The Huffman tokens at the front of the bit stream (30_encoding.md R95, R96): an engine fetches each through BR0 and runs
it, and needs no more of the readers than that port 0's is within its bounds. -/

namespace Sys2Proof.Machine

/-! ### A request on one port (R110, R115) -/

/-- Port k and its reader are within R119's bounds. -/
def State.inputOk (s : State) (k : Port) : Prop := ReaderOk s.lcfg.lsb (s.port k) (s.reader k)

/-- Reading on port k has gone on to the bits `rest`, and has changed nothing else. -/
structure Advanced (k : Port) (rest : List Bool) (s t : State) : Prop where
  read : InputRead k s t
  ready : t.inputOk k
  pending : t.pending k = rest

theorem Advanced.trans {k : Port} {bits rest : List Bool} {s t u : State} (h : Advanced k bits s t) (h' : Advanced k rest t u) :
    Advanced k rest s u :=
  ⟨h.read.trans h'.read, h'.ready, h'.pending⟩

/-- A request takes its n bits off the stream, where the stream has as many. -/
theorem getBits_advanced {k : Port} {s : State} {bits rest : List Bool} (h : s.inputOk k)
    (hn : bits.length ≤ maxRequest s.lcfg.lsb) (hs : s.pending k = bits ++ rest) :
    ∃ x t, getBits k bits.length s = (some x, t) ∧ x.toNat = fieldValue s.lcfg.lsb bits ∧ Advanced k rest s t := by
  obtain ⟨v, p, r, he, hok, -, -, hend⟩ := getBitsReturnsNextBits _ _ _ _ h hn
  rw [show pendingBits s.lcfg.lsb (s.port k) (s.reader k) = bits ++ rest from hs, if_pos (by simp), List.take_left,
    List.drop_left] at hend
  obtain ⟨⟨x, rfl, hx⟩, hrest⟩ := hend
  have hg := getBits_of_readBits he
  exact ⟨x, _, hg, hx, getBits_read_of_eq hg, by simpa [State.inputOk] using hok, by simpa [State.pending] using hrest⟩

/-- A request for a bit of an exhausted stream takes nothing. -/
theorem getBits_one_of_pending_nil {k : Port} {s : State} (h : s.inputOk k) (hs : s.pending k = []) :
    ∃ t, getBits k 1 s = (none, t) ∧ InputRead k s t := by
  obtain ⟨v, p, r, he, -, -, -, hend⟩ := getBitsReturnsNextBits _ 1 _ _ h (le_maxRequest (by omega) _)
  rw [show pendingBits s.lcfg.lsb (s.port k) (s.reader k) = [] from hs, if_neg (by simp)] at hend
  obtain ⟨rfl, -⟩ := hend
  have hg := getBits_of_readBits he
  exact ⟨_, hg, getBits_read_of_eq hg⟩

/-- A request for one bit gives the bit at the front of the stream. -/
theorem getBits_one_advanced {k : Port} {s : State} {b : Bool} {rest : List Bool} (h : s.inputOk k)
    (hs : s.pending k = b :: rest) : ∃ t, getBits k 1 s = (some (BitVec.ofNat 32 b.toNat), t) ∧ Advanced k rest s t := by
  obtain ⟨x, t, hg, hx, ha⟩ := getBits_advanced (bits := [b]) h (le_maxRequest (by simp) _) hs
  have hvalue : fieldValue s.lcfg.lsb [b] = b.toNat := by cases s.lcfg.lsb <;> simp [fieldValue, lowValue]
  rw [hvalue] at hx
  obtain rfl : x = BitVec.ofNat 32 b.toNat := by rw [← hx, BitVec.ofNat_toNat, BitVec.setWidth_eq]
  exact ⟨t, hg, ha⟩

/-- An 8-bit field at the front of the stream makes its token. -/
theorem fetchByte_advanced {k : Port} {mk : Byte → Instr} {s : State} {v : Byte} {rest : List Bool} (h : s.inputOk k)
    (hs : s.pending k = fieldBits s.lcfg.lsb 8 v.toNat ++ rest) :
    ∃ t, fetchByte k mk s = .token (mk v) t ∧ Advanced k rest s t := by
  obtain ⟨x, t, hg, hx, ha⟩ := getBits_advanced h (le_maxRequest (by simp) _) hs
  rw [length_fieldBits] at hg
  rw [fieldValue_fieldBits, Nat.mod_eq_of_lt v.isLt] at hx
  have hv : x.setWidth 8 = v := by apply BitVec.eq_of_toNat_eq; rw [BitVec.toNat_setWidth, hx]; exact Nat.mod_eq_of_lt v.isLt
  exact ⟨t, by simp only [fetchByte, hg, hv], ha⟩

/-! ### Tokens fetched and run (R95, R96) -/

/-- Where a fetch gives a token, the engine runs it. -/
theorem engineToken_of_fetch {p : Place} {i : Instr} {s u : State} (hf : fetchToken p s = .token i u) :
    engineToken p s = exec i u :=
  (engineRunsDecodedToken p s u i hf).2

/-- A 1 in the tree part is a branch. -/
theorem engineToken_branch {s : State} {rest : List Bool} (h : s.inputOk .p0) (hs : s.pending .p0 = true :: rest) :
    ∃ u, engineToken .tree s = exec .hufBranch u ∧ Advanced .p0 rest s u := by
  obtain ⟨u, hg, ha⟩ := getBits_one_advanced h hs
  exact ⟨u, engineToken_of_fetch (by simp [fetchToken, hg]), ha⟩

/-- A 0 in the tree part, and the field after it, is a leaf. -/
theorem engineToken_leaf {s : State} {v : Byte} {rest : List Bool} (h : s.inputOk .p0)
    (hs : s.pending .p0 = false :: (fieldBits s.lcfg.lsb 8 v.toNat ++ rest)) :
    ∃ u, engineToken .tree s = exec (.hufLeaf v) u ∧ Advanced .p0 rest s u := by
  obtain ⟨t, hg, ht⟩ := getBits_one_advanced h hs
  obtain ⟨u, hf, hu⟩ := fetchByte_advanced (mk := .hufLeaf) ht.ready (by rw [ht.pending, ht.read.kept.lcfg])
  exact ⟨u, engineToken_of_fetch (by simpa [fetchToken, hg] using hf), ht.trans hu⟩

/-- A bit of the code part is a code bit. -/
theorem engineToken_codeBit {s : State} {b : Bool} {rest : List Bool} (h : s.inputOk .p0) (hs : s.pending .p0 = b :: rest) :
    ∃ u, engineToken .code s = exec (codeBit b) u ∧ Advanced .p0 rest s u := by
  obtain ⟨u, hg, ha⟩ := getBits_one_advanced h hs
  exact ⟨u, engineToken_of_fetch (by cases b <;> simp [fetchToken, hg, codeBit]), ha⟩

/-- Inside a code an exhausted stream ends the symbol (R196). -/
theorem engineToken_code_of_pending_nil {s : State} (h : s.inputOk .p0) (hs : s.pending .p0 = []) :
    ∃ u, engineToken .code s = .next (exhaust .truncSymbol u) ∧ InputRead .p0 s u := by
  obtain ⟨u, hg, hr⟩ := getBits_one_of_pending_nil h hs
  exact ⟨u, by simp only [engineToken, fetchToken, hg, exhaustAt], hr⟩

/-- The bits an engine step may take as its fuel are those still to be delivered. -/
theorem bitsLeft_eq_length_pending (k : Port) (s : State) : bitsLeft k s = (s.pending k).length :=
  (length_pendingBits ..).symm

end Sys2Proof.Machine
end

section
/-! PROOFS. The tree build (43_huffman.md R191 to R194, R199, R200): its loop as a run of tree tokens, which on the description of a
tree stores that tree node by node in pre-order, and overflows where it has more than 256 nodes. -/

namespace Sys2Proof.Machine

/-! ### The tree arrays, node by node (R29) -/

/-- Two nodes are held at the same index only if they are the same node. -/
theorem slotOf_eq_iff {v w : BitVec 9} (hv : 256 ≤ v.toNat) (hw : 256 ≤ w.toNat) : slotOf v = slotOf w ↔ v = w := by
  constructor
  · intro h
    have hval : v.toNat % 256 = w.toNat % 256 := by simpa [slotOf] using congrArg Fin.val h
    apply BitVec.eq_of_toNat_eq
    omega
  · rintro rfl
    rfl

theorem lhsAt_setLhs_same (v x : BitVec 9) (s : State) : lhsAt (setLhs v x s) v = x := by
  simp [lhsAt]

theorem rhsAt_setRhs_same (v x : BitVec 9) (s : State) : rhsAt (setRhs v x s) v = x := by
  simp [rhsAt]

/-- Both children of node `v` are the same in `t` as in `s`. -/
def SameNode (v : BitVec 9) (s t : State) : Prop := lhsAt t v = lhsAt s v ∧ rhsAt t v = rhsAt s v

theorem SameNode.trans {v : BitVec 9} {s t u : State} (h : SameNode v s t) (h' : SameNode v t u) : SameNode v s u :=
  ⟨h'.1.trans h.1, h'.2.trans h.2⟩

theorem setLhs_sameNode {v w : BitVec 9} (x : BitVec 9) (s : State) (hv : 256 ≤ v.toNat) (hw : 256 ≤ w.toNat) (hne : w ≠ v) :
    SameNode w s (setLhs v x s) := by
  have hslot : (slotOf v).val ≠ (slotOf w).val := fun h => hne ((slotOf_eq_iff hw hv).1 (Fin.ext h.symm))
  exact ⟨Vector.getElem_set_ne (slotOf v).isLt (slotOf w).isLt hslot, rfl⟩

theorem setRhs_sameNode {v w : BitVec 9} (x : BitVec 9) (s : State) (hv : 256 ≤ v.toNat) (hw : 256 ≤ w.toNat) (hne : w ≠ v) :
    SameNode w s (setRhs v x s) := by
  have hslot : (slotOf v).val ≠ (slotOf w).val := fun h => hne ((slotOf_eq_iff hw hv).1 (Fin.ext h.symm))
  exact ⟨rfl, Vector.getElem_set_ne (slotOf v).isLt (slotOf w).isLt hslot⟩

/-! ### A tree stored in pre-order (R193) -/

/-- The child arrays hold a tree at `x`, its nodes numbered in pre-order from `lo` up, as the build allocates them. -/
def StoredFrom (s : State) : Nat → BitVec 9 → HufTree → Prop
  | _, x, .leaf v => x = v.setWidth 9
  | lo, x, .node l r =>
    x.toNat = lo ∧ StoredFrom s (lo + 1) (lhsAt s x) l ∧ StoredFrom s (lo + 1 + l.nodes) (rhsAt s x) r

/-- A tree is stored in the nodes from `lo` up, as many as it has; no other node matters. -/
theorem StoredFrom.congr {s t : State} {lo : Nat} {x : BitVec 9} {tree : HufTree} (h : StoredFrom s lo x tree)
    (hsame : ∀ v : BitVec 9, lo ≤ v.toNat → v.toNat < lo + tree.nodes → SameNode v s t) : StoredFrom t lo x tree := by
  induction tree generalizing lo x with
  | leaf v => exact h
  | node l r ihl ihr =>
    obtain ⟨rfl, hl, hr⟩ := h
    simp only [HufTree.nodes] at hsame
    obtain ⟨hleft, hright⟩ := hsame x (le_refl _) (by omega)
    refine ⟨rfl, ?_, ?_⟩
    · rw [hleft]
      exact ihl hl fun v h1 h2 => hsame v (by omega) (by omega)
    · rw [hright]
      exact ihr hr fun v h1 h2 => hsame v (by omega) (by omega)

theorem StoredFrom.represents {s : State} {lo : Nat} {x : BitVec 9} {tree : HufTree} (h : StoredFrom s lo x tree)
    (hlo : 256 ≤ lo) : Represents s x tree := by
  induction tree generalizing lo x with
  | leaf v => exact h
  | node l r ihl ihr =>
    obtain ⟨rfl, hl, hr⟩ := h
    exact ⟨isLeaf_eq_false_iff.2 hlo, ihl hl (by omega), ihr hr (by omega)⟩

theorem Represents.congr {s t : State} {x : BitVec 9} {tree : HufTree} (h : Represents s x tree) (hl : t.lhs = s.lhs)
    (hr : t.rhs = s.rhs) : Represents t x tree := by
  induction tree generalizing x with
  | leaf v => exact h
  | node l r ihl ihr =>
    obtain ⟨hnode, hleft, hright⟩ := h
    have hlx : lhsAt t x = lhsAt s x := by rw [lhsAt, hl, lhsAt]
    have hrx : rhsAt t x = rhsAt s x := by rw [rhsAt, hr, rhsAt]
    exact ⟨hnode, hlx ▸ ihl hleft, hrx ▸ ihr hright⟩

/-! ### The loop as a run of tokens (R192) -/

/-- One tree token of the build, which takes at least one bit. -/
structure TreeToken (s t : State) : Prop where
  phase : s.phase = .hufBuild
  token : engineToken .tree s = .next t
  shorter : (t.pending .p0).length < (s.pending .p0).length

/-- Any number of tree tokens. -/
abbrev TreeTokens : State → State → Prop := Relation.ReflTransGen TreeToken

/-- With a bit of fuel for each bit of the stream, the loop runs tokens until one of them ends the build. -/
theorem hufBuildLoop_of_tokens {s t : State} (h : TreeTokens s t) (hs : s.phase = .hufBuild) (ht : t.phase ≠ .hufBuild) {k : Nat}
    (hk : (s.pending .p0).length ≤ k) : hufBuildLoop k s = .next t := by
  induction h using Relation.ReflTransGen.head_induction_on generalizing k with
  | refl => exact absurd hs ht
  | @head s u htoken hrest ih =>
    have hshort := htoken.shorter
    obtain ⟨k, rfl⟩ : ∃ j, k = j + 1 := ⟨k - 1, by omega⟩
    rw [hufBuildLoop, htoken.token, andThen_next]
    split
    next hu => exact ih hu (by omega)
    next hu =>
      obtain rfl | ⟨w, hw, -⟩ := hrest.cases_head
      · rfl
      · exact absurd hw.phase hu

theorem engineStep_of_tokens {s t : State} (h : TreeTokens s t) (hs : s.phase = .hufBuild) (ht : t.phase ≠ .hufBuild) :
    engineStep s = .next t := by
  rw [engineStep, hs]
  exact hufBuildLoop_of_tokens h hs ht (bitsLeft_eq_length_pending .p0 s).ge

/-! ### Between two tree tokens -/

/-- The build goes on: a tree token is read next, and `NEXT_NODE` is a node's number. -/
structure Building (s : State) : Prop where
  awaits : awaits s = some .tree
  input : s.inputOk .p0
  nodes : 256 ≤ s.nextNode.toNat

theorem Building.phase {s : State} (h : Building s) : s.phase = .hufBuild := by
  obtain ⟨-, -, hp⟩ := awaits_tree.1 h.awaits
  exact hp

/-- What tree tokens change while the build goes on: port 0, its reader, the tree and the return stack. -/
def TreeRead (s t : State) : Prop :=
  ∃ pos r lhs rhs next stack, t = { s with
    port0 := { s.port0 with pos := pos }, br0 := r, lhs := lhs, rhs := rhs, nextNode := next
    run := { s.run with stack := stack } }

theorem TreeRead.trans {s t u : State} (h : TreeRead s t) (h' : TreeRead t u) : TreeRead s u := by
  obtain ⟨pos, r, lhs, rhs, next, stack, rfl⟩ := h
  obtain ⟨pos', r', lhs', rhs', next', stack', rfl⟩ := h'
  exact ⟨pos', r', lhs', rhs', next', stack', rfl⟩

theorem TreeRead.lcfg {s t : State} (h : TreeRead s t) : t.lcfg = s.lcfg := by
  obtain ⟨pos, r, lhs, rhs, next, stack, rfl⟩ := h
  rfl

theorem TreeRead.awaits {s t : State} (h : TreeRead s t) (ha : awaits s = some .tree) : awaits t = some .tree := by
  obtain ⟨pos, r, lhs, rhs, next, stack, rfl⟩ := h
  exact awaits_tree.2 (awaits_tree.1 ha)

theorem InputRead.treeRead {s t : State} (h : InputRead .p0 s t) : TreeRead s t := by
  obtain ⟨pos, r, rfl⟩ := h
  exact ⟨pos, r, s.lhs, s.rhs, s.nextNode, s.run.stack, rfl⟩

theorem afterBranch_treeRead (s : State) : TreeRead s (afterBranch s) := ⟨s.port0.pos, s.br0, _, _, _, _, rfl⟩

theorem setRhs_treeRead (v x : BitVec 9) (s : State) : TreeRead s (setRhs v x s) :=
  ⟨s.port0.pos, s.br0, _, _, _, s.run.stack, rfl⟩

theorem returnSubtree_left_treeRead (v x : BitVec 9) (rest : List BuildSlot) (s : State) :
    TreeRead s (returnSubtree (.left v :: rest) x s) := ⟨s.port0.pos, s.br0, _, _, _, _, rfl⟩

theorem returnSubtree_pending (l : List BuildSlot) (x : BitVec 9) (s : State) :
    (returnSubtree l x s).pending .p0 = s.pending .p0 := by
  rw [returnSubtree_frame]
  rfl

theorem InputRead.nextNode {k : Port} {s t : State} (h : InputRead k s t) : t.nextNode = s.nextNode := by
  obtain ⟨pos, r, rfl⟩ := h
  simp

theorem InputRead.sameNode {k : Port} {s t : State} (h : InputRead k s t) (v : BitVec 9) : SameNode v s t := by
  obtain ⟨pos, r, rfl⟩ := h
  exact ⟨by simp [lhsAt], by simp [rhsAt]⟩

/-- A branch that finds none overflows. -/
theorem Building.overflow {s : State} {rest : List Bool} (h : Building s) (hs : s.pending .p0 = true :: rest)
    (hn : 512 ≤ s.nextNode.toNat) : ∃ u, TreeToken s (raise .malTreeOverflow u) ∧ Advanced .p0 rest s u := by
  obtain ⟨u, hu, ha⟩ := engineToken_branch h.input hs
  refine ⟨u, ⟨h.phase, ?_, ?_⟩, ha⟩
  · rw [hu, exec_hufBranch_of_full (ha.read.awaits.trans h.awaits) (by rw [ha.read.nextNode]; exact hn)]
  · rw [show (raise .malTreeOverflow u).pending .p0 = rest from ha.pending, hs, List.length_cons]
    omega

/-- A leaf returns itself. -/
theorem Building.leaf {s : State} {v : Byte} {rest : List Bool} (h : Building s)
    (hs : s.pending .p0 = false :: (fieldBits s.lcfg.lsb 8 v.toNat ++ rest)) :
    ∃ u, TreeToken s (returnSubtree s.run.stack (v.setWidth 9) u) ∧ Advanced .p0 rest s u := by
  obtain ⟨u, hu, ha⟩ := engineToken_leaf h.input hs
  refine ⟨u, ⟨h.phase, ?_, ?_⟩, ha⟩
  · rw [hu, exec_hufLeaf_of_awaits v (ha.read.awaits.trans h.awaits), ha.read.run]
  · rw [returnSubtree_pending, ha.pending, hs, List.length_cons, List.length_append]
    omega

/-! ### The description of a tree (R192, R193, R199) -/

/-- From `s` the build has read `tree`, which stands at `x` in `u`, and `rest` is left of the stream. The nodes allocated before are
as they were. -/
structure Built (tree : HufTree) (rest : List Bool) (x : BitVec 9) (s u : State) : Prop where
  read : TreeRead s u
  input : u.inputOk .p0
  pending : u.pending .p0 = rest
  nextNode : u.nextNode.toNat = s.nextNode.toNat + tree.nodes
  stored : StoredFrom u s.nextNode.toNat x tree
  before : ∀ v : BitVec 9, 256 ≤ v.toNat → v.toNat < s.nextNode.toNat → SameNode v s u

theorem Advanced.built_leaf {s u : State} {rest : List Bool} (h : Advanced .p0 rest s u) (v : Byte) :
    Built (.leaf v) rest (v.setWidth 9) s u where
  read := h.read.treeRead
  input := h.ready
  pending := h.pending
  nextNode := by rw [h.read.nextNode]; rfl
  stored := rfl
  before w _ _ := h.read.sameNode w

/-! ### A node and its two subtrees -/

/-- The number of the next node to be allocated, as an index of the tree arrays (R193). -/
def freshNode (s : State) : BitVec 9 := s.nextNode.setWidth 9

theorem freshNode_toNat {s : State} (h : s.nextNode.toNat < 512) : (freshNode s).toNat = s.nextNode.toNat := by
  rw [freshNode, BitVec.toNat_setWidth, Nat.mod_eq_of_lt h]

/-- A branch in `s` has found a free node, and the left subtree of that node is read next. -/
structure Branched (rest : List Bool) (s b : State) : Prop where
  building : Building b
  read : TreeRead s b
  pending : b.pending .p0 = rest
  stack : b.run.stack = .left (freshNode s) :: s.run.stack
  free : s.nextNode.toNat < 512
  nextNode : b.nextNode.toNat = s.nextNode.toNat + 1
  before : ∀ v : BitVec 9, SameNode v s b

theorem Building.branch {s : State} {rest : List Bool} (h : Building s) (hs : s.pending .p0 = true :: rest)
    (hn : s.nextNode.toNat < 512) : ∃ b, TreeToken s b ∧ Branched rest s b := by
  obtain ⟨u, hu, ha⟩ := engineToken_branch h.input hs
  have hawaits := ha.read.awaits.trans h.awaits
  have hu512 : u.nextNode.toNat < 512 := by rw [ha.read.nextNode]; exact hn
  have hnext : (afterBranch u).nextNode.toNat = s.nextNode.toNat + 1 := by
    show (u.nextNode + 1).toNat = _
    rw [ha.read.nextNode]
    bv_omega
  refine ⟨afterBranch u, ⟨h.phase, hu.trans (exec_hufBranch_of_free hawaits hu512), ?_⟩, ?_⟩
  · rw [show (afterBranch u).pending .p0 = rest from ha.pending, hs, List.length_cons]
    omega
  · have hnodes := h.nodes
    refine ⟨⟨(afterBranch_treeRead u).awaits hawaits, ha.ready, by omega⟩, ha.read.treeRead.trans (afterBranch_treeRead u),
      ha.pending, ?_, hn, hnext, ha.read.sameNode⟩
    show .left (u.nextNode.setWidth 9) :: u.run.stack = _
    rw [ha.read.nextNode, ha.read.run, freshNode]

/-- A branch in `s` and its left subtree `l`, which stands at `x`, have been read, and the right subtree is read next. -/
structure LeftRead (l : HufTree) (rest : List Bool) (x : BitVec 9) (s m : State) : Prop where
  building : Building m
  read : TreeRead s m
  pending : m.pending .p0 = rest
  stack : m.run.stack = .right (freshNode s) :: s.run.stack
  free : s.nextNode.toNat < 512
  nextNode : m.nextNode.toNat = s.nextNode.toNat + 1 + l.nodes
  child : lhsAt m (freshNode s) = x
  stored : StoredFrom m (s.nextNode.toNat + 1) x l
  before : ∀ v : BitVec 9, 256 ≤ v.toNat → v.toNat < s.nextNode.toNat → SameNode v s m

/-- The left subtree returned fills the left child of its node, which is not one of its own nodes. -/
theorem Branched.leftRead {s b u : State} {l : HufTree} {bits rest : List Bool} {x : BitVec 9} (hb : Branched bits s b)
    (h256 : 256 ≤ s.nextNode.toNat) (hl : Built l rest x b u) :
    LeftRead l rest x s (returnSubtree b.run.stack x u) := by
  have hnode := freshNode_toNat hb.free
  have hnext := hb.nextNode
  have hsame : ∀ v : BitVec 9, 256 ≤ v.toNat → v.toNat ≠ s.nextNode.toNat →
      SameNode v u (returnSubtree (.left (freshNode s) :: s.run.stack) x u) := fun v hv hne =>
    setLhs_sameNode x u (by omega) hv (by rintro rfl; exact hne hnode)
  rw [hb.stack]
  have hread := returnSubtree_left_treeRead (freshNode s) x s.run.stack u
  exact
    { building := ⟨(hl.read.trans hread).awaits hb.building.awaits, hl.input, by
        show 256 ≤ u.nextNode.toNat
        rw [hl.nextNode]; omega⟩
      read := (hb.read.trans hl.read).trans hread
      pending := hl.pending
      stack := rfl
      free := hb.free
      nextNode := hl.nextNode.trans (by rw [hnext])
      child := lhsAt_setLhs_same (freshNode s) x u
      stored := (hnext ▸ hl.stored).congr fun v h1 _ => hsame v (by omega) (by omega)
      before := fun v hv hlt => ((hb.before v).trans (hl.before v hv (by omega))).trans (hsame v hv (by omega)) }

/-- The right subtree returned fills the right child, and the node is returned in turn (R193). -/
theorem LeftRead.built {s m u : State} {l r : HufTree} {bits rest : List Bool} {x y : BitVec 9} (hm : LeftRead l bits x s m)
    (h256 : 256 ≤ s.nextNode.toNat) (hr : Built r rest y m u) :
    Built (.node l r) rest (freshNode s) s (setRhs (freshNode s) y u) := by
  have hnode := freshNode_toNat hm.free
  have hnext := hm.nextNode
  have hsame : ∀ v : BitVec 9, 256 ≤ v.toNat → v.toNat ≠ s.nextNode.toNat → SameNode v u (setRhs (freshNode s) y u) :=
    fun v hv hne => setRhs_sameNode y u (by omega) hv (by rintro rfl; exact hne hnode)
  have hleft : lhsAt (setRhs (freshNode s) y u) (freshNode s) = x :=
    (hr.before (freshNode s) (by omega) (by omega)).1.trans hm.child
  exact
    { read := (hm.read.trans hr.read).trans (setRhs_treeRead (freshNode s) y u)
      input := hr.input
      pending := hr.pending
      nextNode := by
        show u.nextNode.toNat = _
        rw [hr.nextNode, hnext, HufTree.nodes]
        omega
      stored := by
        refine ⟨hnode, ?_, ?_⟩
        · rw [hleft]
          exact hm.stored.congr fun v h1 h2 => (hr.before v (by omega) (by omega)).trans (hsame v (by omega) (by omega))
        · rw [rhsAt_setRhs_same]
          exact (hnext ▸ hr.stored).congr fun v h1 _ => hsame v (by omega) (by omega)
      before := fun v hv hlt =>
        ((hm.before v hv hlt).trans (hr.before v hv (by omega))).trans (hsame v hv (by omega)) }

/-! ### The whole description (R199, R200) -/

theorem describe_node_append (lsb : Bool) (l r : HufTree) (rest : List Bool) :
    (HufTree.node l r).describe lsb ++ rest = true :: (l.describe lsb ++ (r.describe lsb ++ rest)) := by
  rw [HufTree.describe, List.cons_append, List.append_assoc]

theorem describe_leaf_append (lsb : Bool) (v : Byte) (rest : List Bool) :
    (HufTree.leaf v).describe lsb ++ rest = false :: (fieldBits lsb 8 v.toNat ++ rest) := rfl

/-- A description whose nodes are all free is read token by token, and its tree is returned to the subtree that waits for it. -/
theorem Building.built {tree : HufTree} {s : State} {rest : List Bool} (h : Building s)
    (hs : s.pending .p0 = tree.describe s.lcfg.lsb ++ rest) (hn : s.nextNode.toNat + tree.nodes ≤ 512) :
    ∃ x u, TreeTokens s (returnSubtree s.run.stack x u) ∧ Built tree rest x s u := by
  induction tree generalizing s rest with
  | leaf v =>
    rw [describe_leaf_append] at hs
    obtain ⟨u, htoken, ha⟩ := h.leaf hs
    exact ⟨_, u, .single htoken, ha.built_leaf v⟩
  | node l r ihl ihr =>
    rw [describe_node_append] at hs
    simp only [HufTree.nodes] at hn
    obtain ⟨b, htoken, hb⟩ := h.branch hs (by omega)
    obtain ⟨x, u, hltokens, hl⟩ := ihl hb.building (by rw [hb.pending, hb.read.lcfg]) (by rw [hb.nextNode]; omega)
    have hm := hb.leftRead h.nodes hl
    obtain ⟨y, w, hrtokens, hr⟩ := ihr hm.building (by rw [hm.pending, hm.read.lcfg]) (by rw [hm.nextNode]; omega)
    rw [hm.stack, returnSubtree_right] at hrtokens
    exact ⟨_, _, .head htoken (hltokens.trans hrtokens), hm.built h.nodes hr⟩

/-- A description with more nodes than are free overflows, with nothing written to memory. -/
theorem Building.overflows {tree : HufTree} {s : State} {rest : List Bool} (h : Building s)
    (hs : s.pending .p0 = tree.describe s.lcfg.lsb ++ rest) (h512 : s.nextNode.toNat ≤ 512)
    (hn : 512 < s.nextNode.toNat + tree.nodes) :
    ∃ u, TreeTokens s (raise .malTreeOverflow u) ∧ TreeRead s u := by
  induction tree generalizing s rest with
  | leaf v => simp only [HufTree.nodes] at hn; omega
  | node l r ihl ihr =>
    rw [describe_node_append] at hs
    simp only [HufTree.nodes] at hn
    by_cases hfull : 512 ≤ s.nextNode.toNat
    · obtain ⟨u, htoken, ha⟩ := h.overflow hs hfull
      exact ⟨u, .single htoken, ha.read.treeRead⟩
    obtain ⟨b, htoken, hb⟩ := h.branch hs (by omega)
    have hbnext := hb.nextNode
    have hbs : b.pending .p0 = l.describe b.lcfg.lsb ++ (r.describe s.lcfg.lsb ++ rest) := by rw [hb.pending, hb.read.lcfg]
    by_cases hleft : 512 < b.nextNode.toNat + l.nodes
    · obtain ⟨u, htokens, hread⟩ := ihl hb.building hbs (by omega) hleft
      exact ⟨u, .head htoken htokens, hb.read.trans hread⟩
    · obtain ⟨x, w, hltokens, hl⟩ := hb.building.built hbs (by omega)
      have hm := hb.leftRead h.nodes hl
      have hmnext := hm.nextNode
      obtain ⟨u, hrtokens, hread⟩ := ihr hm.building (by rw [hm.pending, hm.read.lcfg]) (by omega) (by omega)
      exact ⟨u, .head htoken (hltokens.trans hrtokens), hm.read.trans hread⟩

theorem building_of_fresh {s : State} (ha : s.sess = .active) (he : s.eos = false) (hp : s.phase = .hufBuild)
    (hn : s.nextNode = 256) (hr : ReaderOk s.lcfg.lsb s.port0 s.br0) : Building s :=
  ⟨awaits_tree.2 ⟨ha, he, hp⟩, hr, by rw [hn]; decide⟩

/-- Settles O44: the tree is returned to an empty stack, and so becomes ROOT. -/
theorem treeDescriptionBuildsTree : Obligations.TreeDescriptionBuildsTree := by
  intro s tree rest ha he hp hrun hn hr hnodes hs
  have h256 : s.nextNode.toNat = 256 := by rw [hn]; rfl
  obtain ⟨x, u, htokens, hu⟩ := (building_of_fresh ha he hp hn hr).built hs (by omega)
  rw [hrun, rest_stack, returnSubtree_nil] at htokens
  refine ⟨_, engineStep_of_tokens htokens hp (by simp), ?_, ?_, hu.pending, ?_⟩
  · exact ((h256 ▸ hu.stored).represents (le_refl _)).congr rfl rfl
  · rw [← h256]
    exact hu.nextNode
  · obtain ⟨pos, r, lhs, rhs, next, stack, rfl⟩ := hu.read
    rw [hrun]
    rfl

/-- Settles O45: 256 nodes are free, and the description has more. -/
theorem oversizedTreeOverflows : Obligations.OversizedTreeOverflows := by
  intro s tree rest ha he hp _ hn hr hnodes hs
  have h256 : s.nextNode.toNat = 256 := by rw [hn]; rfl
  obtain ⟨u, htokens, hread⟩ := (building_of_fresh ha he hp hn hr).overflows hs (by omega) (by omega)
  refine ⟨_, engineStep_of_tokens htokens hp (by simp), rfl, rfl, rfl, ?_⟩
  obtain ⟨pos, r, lhs, rhs, next, stack, rfl⟩ := hread
  rfl

end Sys2Proof.Machine
end

section
/-! PROOFS. The symbol step (43_huffman.md R195, R196): its loop follows the bits of the stream through the tree at ROOT, to a leaf
or to the end of the stream. -/

namespace Sys2Proof.Machine

/-! ### The tree the walk is in -/

/-- The subtree the code bit `b` leads to. -/
def HufTree.child (l r : HufTree) (b : Bool) : HufTree := if b then r else l

theorem HufTree.walk_cons (l r : HufTree) (b : Bool) (bits : List Bool) :
    (HufTree.node l r).walk (b :: bits) = (l.child r b).walk bits := by
  cases b <;> rfl

/-- The child array of a bit holds the subtree of that bit. -/
theorem Represents.child {s : State} {x : BitVec 9} {l r : HufTree} (h : Represents s x (.node l r)) (b : Bool) :
    Represents s (childAt s b x) (l.child r b) := by
  obtain ⟨-, hl, hr⟩ := h
  cases b with
  | false => exact hl
  | true => exact hr

/-- At a leaf the tree is that leaf. -/
theorem Represents.eq_leaf {s : State} {x : BitVec 9} {tree : HufTree} (h : Represents s x tree) (hx : isLeaf x = true) :
    tree = .leaf (leafByte x) := by
  cases tree with
  | leaf v => rw [show x = v.setWidth 9 from h, leafByte_setWidth]
  | node l r => rw [h.1] at hx; cases hx

/-! ### Between two code bits -/

/-- What code bits change while the symbol goes on: port 0, its reader and the node reached. -/
def SymbolRead (s t : State) : Prop :=
  ∃ pos r node, t = { s with
    port0 := { s.port0 with pos := pos }, br0 := r, run := { s.run with node := node } }

theorem SymbolRead.trans {s t u : State} (h : SymbolRead s t) (h' : SymbolRead t u) : SymbolRead s u := by
  obtain ⟨pos, r, node, rfl⟩ := h
  obtain ⟨pos', r', node', rfl⟩ := h'
  exact ⟨pos', r', node', rfl⟩

theorem SymbolRead.refl (s : State) : SymbolRead s s := ⟨s.port0.pos, s.br0, s.run.node, rfl⟩

theorem SymbolRead.represents {s t : State} {x : BitVec 9} {tree : HufTree} (h : SymbolRead s t)
    (hx : Represents s x tree) : Represents t x tree := by
  obtain ⟨pos, r, node, rfl⟩ := h
  exact hx.congr rfl rfl

theorem InputRead.symbolRead {s t : State} (h : InputRead .p0 s t) : SymbolRead s t := by
  obtain ⟨pos, r, rfl⟩ := h
  exact ⟨pos, r, s.run.node, rfl⟩

theorem InputRead.symNode {k : Port} {s t : State} (h : InputRead k s t) : symNode t = symNode s := by
  obtain ⟨pos, r, rfl⟩ := h
  cases k <;> rfl

/-- The walk goes on to node `c`. -/
theorem withNode_symbolRead (c : Option (BitVec 9)) (s : State) :
    SymbolRead s { s with run := { s.run with node := c } } := ⟨s.port0.pos, s.br0, c, rfl⟩

/-! ### The walk (R195, R196) -/

/-- How the symbol step ends, where `bits` are pending in `s` and the walk has reached `tree`. -/
inductive SymbolEnd (tree : HufTree) (bits : List Bool) (s t : State) : Prop
  /-- The code ends at a leaf, whose byte is emitted. -/
  | emitted (v : Byte) (rest : List Bool) (u : State) (walk : tree.walk bits = some (v, rest)) (read : SymbolRead s u)
      (pending : u.pending .p0 = rest) (emit : t = emit v u)
  /-- The stream ends inside the code. -/
  | exhausted (u : State) (walk : tree.walk bits = none) (read : SymbolRead s u) (exhaust : t = exhaust .truncSymbol u)

/-- A code bit first, then the rest of the code. -/
theorem SymbolEnd.cons {l r : HufTree} {b : Bool} {bits : List Bool} {s u t : State} (hread : SymbolRead s u)
    (h : SymbolEnd (l.child r b) bits u t) : SymbolEnd (.node l r) (b :: bits) s t := by
  cases h with
  | emitted v rest w walk read pending emit =>
    exact .emitted v rest w ((HufTree.walk_cons l r b bits).trans walk) (hread.trans read) pending emit
  | exhausted w walk read exhaust =>
    exact .exhausted w ((HufTree.walk_cons l r b bits).trans walk) (hread.trans read) exhaust

/-- The walk has reached the subtree `tree`, and `bits` are pending. -/
structure Walking (tree : HufTree) (bits : List Bool) (s : State) : Prop where
  awaits : awaits s = some .code
  input : s.inputOk .p0
  pending : s.pending .p0 = bits
  tree : Represents s (symNode s) tree

/-- A code is read only at an internal node (R195). -/
theorem Walking.exists_node {tree : HufTree} {bits : List Bool} {s : State} (h : Walking tree bits s) :
    ∃ l r, tree = .node l r := by
  cases tree with
  | node l r => exact ⟨l, r, rfl⟩
  | leaf v =>
    obtain ⟨-, -, -, hnode⟩ := awaits_code.1 h.awaits
    rw [show symNode s = v.setWidth 9 from h.tree, isLeaf_setWidth] at hnode
    cases hnode

/-- A code bit reaches a leaf and ends the symbol, or the walk goes on from its child. -/
theorem Walking.step {l r : HufTree} {b : Bool} {bits : List Bool} {s : State} (h : Walking (.node l r) (b :: bits) s) :
    ∃ u, engineToken .code s = .next u ∧
      ((u.run.node = none ∧ SymbolEnd (.node l r) (b :: bits) s u) ∨
        (u.run.node ≠ none ∧ SymbolRead s u ∧ Walking (l.child r b) bits u)) := by
  obtain ⟨u, hu, hadv⟩ := engineToken_codeBit h.input h.pending
  have hawaits := hadv.read.awaits.trans h.awaits
  have hread := hadv.read.symbolRead
  have hchild : Represents u (childAt u b (symNode u)) (l.child r b) := by
    rw [hadv.read.symNode]
    exact (hread.represents h.tree).child b
  rw [hu, exec_codeBit_of_awaits b hawaits]
  refine ⟨_, rfl, ?_⟩
  cases hleaf : isLeaf (childAt u b (symNode u)) with
  | true =>
    rw [moveTo_of_leaf u hleaf]
    refine .inl ⟨rfl, .cons hread ?_⟩
    rw [hchild.eq_leaf hleaf]
    exact .emitted _ bits _ rfl (withNode_symbolRead none u) hadv.pending rfl
  | false =>
    have hnode := moveTo_of_node u hleaf
    have hnext := awaits_moveTo (c := childAt u b (symNode u)) hawaits (by rw [hnode]; simp)
    rw [hnode] at hnext ⊢
    have hmoved := withNode_symbolRead (some (childAt u b (symNode u))) u
    exact .inr ⟨by simp, hread.trans hmoved, hnext, hadv.ready, hadv.pending, hmoved.represents hchild⟩

/-- With a bit of fuel for each bit of the stream, the loop follows the stream from the node it has reached. -/
theorem Walking.loop {tree : HufTree} {s : State} {bits : List Bool} (h : Walking tree bits s) {k : Nat}
    (hk : bits.length ≤ k) : ∃ t, hufSymLoop k s = .next t ∧ SymbolEnd tree bits s t := by
  induction bits generalizing tree s k with
  | nil =>
    obtain ⟨l, r, rfl⟩ : ∃ l r, tree = .node l r := h.exists_node
    cases k with
    | zero => exact ⟨_, rfl, .exhausted s rfl (.refl s) rfl⟩
    | succ k =>
      obtain ⟨u, hu, hread⟩ := engineToken_code_of_pending_nil h.input h.pending
      refine ⟨exhaust .truncSymbol u, ?_, .exhausted u rfl hread.symbolRead rfl⟩
      rw [hufSymLoop, hu, andThen_next, if_pos (exhaust_run_node .truncSymbol u)]
  | cons b bits ih =>
    obtain ⟨l, r, rfl⟩ : ∃ l r, tree = .node l r := h.exists_node
    obtain ⟨k, rfl⟩ : ∃ j, k = j + 1 := ⟨k - 1, by rw [List.length_cons] at hk; omega⟩
    obtain ⟨u, hu, ⟨hnone, hend⟩ | ⟨hsome, hread, hwalk⟩⟩ := h.step
    · exact ⟨u, by rw [hufSymLoop, hu, andThen_next, if_pos hnone], hend⟩
    · obtain ⟨t, ht, hend⟩ := ih hwalk (by simpa using hk)
      exact ⟨t, by rw [hufSymLoop, hu, andThen_next, if_neg hsome, ht], .cons hread hend⟩

/-- The symbol step follows the stream from the root; at a leaf root the code has no bits (R195, R197). -/
theorem hufSymStep_walk {tree : HufTree} {s : State} (ha : s.sess = .active) (he : s.eos = false) (hp : s.phase = .hufSym)
    (hn : s.run.node = none) (hi : s.inputOk .p0) (htree : Represents s s.root tree) :
    ∃ t, hufSymStep s = .next t ∧ SymbolEnd tree (s.pending .p0) s t := by
  unfold hufSymStep
  split
  next hleaf =>
    refine ⟨_, rfl, ?_⟩
    rw [htree.eq_leaf hleaf]
    exact .emitted _ _ s rfl (.refl s) rfl rfl
  next hnode =>
    have hroot : symNode s = s.root := by rw [symNode, hn, Option.getD_none]
    have hwalk : Walking tree (s.pending .p0) s :=
      ⟨awaits_code.2 ⟨ha, he, hp, by rw [hroot]; simpa using hnode⟩, hi, rfl, hroot ▸ htree⟩
    exact hwalk.loop (bitsLeft_eq_length_pending .p0 s).ge

theorem engineStep_of_hufSym {s : State} (h : s.phase = .hufSym) : engineStep s = hufSymStep s := by
  rw [engineStep, h]

/-- Settles O46: the two ends of the walk are the two ends of the symbol step. -/
theorem symbolStepWalksTree : Obligations.SymbolStepWalksTree := by
  intro s tree ha he hp hn hr htree
  obtain ⟨t, ht, hend⟩ := hufSymStep_walk ha he hp hn hr htree
  refine ⟨t, (engineStep_of_hufSym hp).trans ht, ?_⟩
  cases hend with
  | emitted v rest u walk read pending emit =>
    subst emit
    rw [walk]
    refine ⟨pending, ?_⟩
    obtain ⟨pos, r, node, rfl⟩ := read
    exact ⟨rfl, rfl, hp, he, read_emit v _⟩
  | exhausted u walk read exhaust =>
    subst exhaust
    rw [walk]
    obtain ⟨hmem, htotal, hlcfg, hsess⟩ :
        u.mem = s.mem ∧ u.outTotal = s.outTotal ∧ u.lcfg = s.lcfg ∧ u.sess = s.sess := by
      obtain ⟨pos, r, node, rfl⟩ := read
      exact ⟨rfl, rfl, rfl, rfl⟩
    refine ⟨(exhaust_mem ..).trans hmem, (exhaust_outTotal ..).trans htotal, ?_⟩
    rw [← hlcfg]
    split
    next hb => rw [exhaust_of_bounded _ u hb]; exact ⟨rfl, rfl⟩
    next hb => rw [exhaust_of_unbounded _ u (by simpa using hb)]; exact ⟨hsess.trans ha, rfl⟩

end Sys2Proof.Machine
end

section
/-! PROOFS. A tree of one leaf (43_huffman.md R197): in an unbounded session each step of a CONTINUE emits the leaf's byte and
takes no bit, until COUNT bytes are written. -/

namespace Sys2Proof.Machine

/-! ### One byte emitted any number of times (R136) -/

/-- Emitting changes memory, `OUT_TOTAL` and the count of bytes written, however often. -/
theorem emit_iterate (b : Byte) (m : Nat) (s : State) :
    (emit b)^[m] s = { s with
      mem := ((emit b)^[m] s).mem, outTotal := s.outTotal + BitVec.ofNat 32 m
      run := { s.run with n := s.run.n + BitVec.ofNat 32 m } } := by
  induction m with
  | zero => simp
  | succ m ih =>
    rw [Function.iterate_succ_apply']
    conv_lhs => rw [ih]
    rw [BitVec.ofNat_add, ← BitVec.add_assoc, ← BitVec.add_assoc, ih]
    rfl

theorem read_emit_succ (b : Byte) {m : Nat} {s : State} (hm : s.run.n.toNat + m < 2 ^ 32) (a : Nat) :
    Memory.read ((emit b)^[m + 1] s).mem a =
      if a = outByteAddr s.params s.outAddr (s.run.n.toNat + m) then some b else Memory.read ((emit b)^[m] s).mem a := by
  have hn : ((emit b)^[m] s).run.n.toNat = s.run.n.toNat + m := by
    rw [emit_iterate]
    show (s.run.n + BitVec.ofNat 32 m).toNat = _
    rw [BitVec.toNat_add, BitVec.toNat_ofNat]
    omega
  have hparams : ((emit b)^[m] s).params = s.params := by rw [emit_iterate]
  have hbase : ((emit b)^[m] s).outAddr = s.outAddr := by rw [emit_iterate]
  rw [Function.iterate_succ_apply', read_emit, hn, hparams, hbase]

/-- The addresses of the m bytes hold the byte, even where they wrap onto each other, and no other address has changed (R65). -/
theorem read_emit_iterate (b : Byte) {m : Nat} {s : State} (hm : s.run.n.toNat + m ≤ 2 ^ 32) :
    (∀ k, s.run.n.toNat ≤ k → k < s.run.n.toNat + m →
      Memory.read ((emit b)^[m] s).mem (outByteAddr s.params s.outAddr k) = some b) ∧
      ∀ a, (∀ k, s.run.n.toNat ≤ k → k < s.run.n.toNat + m → a ≠ outByteAddr s.params s.outAddr k) →
        Memory.read ((emit b)^[m] s).mem a = Memory.read s.mem a := by
  induction m with
  | zero => exact ⟨fun k h1 h2 => absurd h1 (by omega), fun _ _ => rfl⟩
  | succ m ih =>
    obtain ⟨hwritten, hkept⟩ := ih (by omega)
    refine ⟨fun k h1 h2 => ?_, fun a ha => ?_⟩
    · rw [read_emit_succ b (by omega)]
      split
      next => rfl
      next hne => exact hwritten k h1 (by have : k ≠ s.run.n.toNat + m := fun hk => hne (by rw [hk]); omega)
    · rw [read_emit_succ b (by omega), if_neg (ha _ (by omega) (by omega))]
      exact hkept a fun k h1 h2 => ha k h1 (by omega)

/-! ### The steps at a leaf root (R197) -/

/-- An unbounded session in the code part, not at its end, whose tree is one leaf. -/
structure LeafRoot (s : State) : Prop where
  sess : s.sess = .active
  eos : s.eos = false
  phase : s.phase = .hufSym
  unbounded : s.lcfg.bounded = false
  root : isLeaf s.root = true

theorem LeafRoot.emit {s : State} (h : LeafRoot s) (b : Byte) : LeafRoot (emit b s) := { h with }

theorem LeafRoot.engineStep {s : State} (h : LeafRoot s) : engineStep s = .next (Machine.emit (leafByte s.root) s) := by
  rw [engineStep_of_hufSym h.phase, hufSymStep, if_pos h.root]

/-- An unbounded session has no target (R137). -/
theorem checkTarget_of_unbounded {s : State} (h : s.lcfg.bounded = false) : checkTarget s = s :=
  if_neg (by simp [targetReached, h])

/-- Each turn of the loop emits the byte once more, until COUNT bytes are written. -/
theorem LeafRoot.loop {want : Word} {m : Nat} {s : State} (h : LeafRoot s) (hm : s.run.n.toNat + m = want.toNat) :
    Loop want s ((Machine.emit (leafByte s.root))^[m] s) := by
  induction m generalizing s with
  | zero =>
    refine .stop fun hgo => ?_
    have hlt := hgo.1
    rw [BitVec.lt_def] at hlt
    omega
  | succ m ih =>
    have hemit := h.emit (leafByte s.root)
    have hlt : s.run.n < want := by rw [BitVec.lt_def]; omega
    have hn : (s.run.n + 1).toNat + m = want.toNat := by bv_omega
    have hrest := ih hemit hn
    rw [emit_root] at hrest
    refine .turn ⟨hlt, h.eos⟩ h.engineStep (by rw [hemit.sess]; decide) ?_
    rwa [checkTarget_of_unbounded hemit.unbounded]

/-- A CONTINUE emits the byte COUNT times and records it. -/
theorem LeafRoot.exec_cont {s : State} (h : LeafRoot { s with run := .rest }) (he : s.lcfg.engine ≠ engineRaw) :
    exec .cont s = .next { (Machine.emit (leafByte s.root))^[s.count.toNat] { s with run := .rest } with
      result := s.count, run := .rest } := by
  have ho : engineOpen s = true := engineOpen_iff.2 ⟨h.sess, he⟩
  have hstart : contStart s = { s with run := .rest } := checkTarget_of_unbounded h.unbounded
  have hloop := h.loop (want := s.count) (Nat.zero_add _)
  have hn : ((Machine.emit (leafByte s.root))^[s.count.toNat] { s with run := .rest }).run.n = s.count := by
    rw [emit_iterate]
    simp
  have hopen : ((Machine.emit (leafByte s.root))^[s.count.toNat] { s with run := .rest }).sess ≠ .faulted := by
    rw [emit_iterate, h.sess]
    decide
  rw [exec_cont_eq_next_iff ho, hstart]
  exact ⟨_, hloop, by rw [finishCont_of_open hopen, hn]⟩

/-- Settles O47: the bytes are those of the emissions, which start at `OUT_ADDR`. -/
theorem leafRootFillsEveryCount : Obligations.LeafRootFillsEveryCount := by
  intro s ha hengine hp he hb hroot
  have hleaf : LeafRoot { s with run := .rest } := ⟨ha, he, hp, hb, isLeaf_iff.2 hroot⟩
  obtain ⟨hwritten, hkept⟩ := read_emit_iterate (leafByte s.root) (m := s.count.toNat) (s := { s with run := .rest })
    (by simpa using s.count.isLt.le)
  refine ⟨_, hleaf.exec_cont (by rw [hengine]; decide), fun k hk => ?_, fun a ha => ?_, ?_⟩
  · exact hwritten k (Nat.zero_le k) (by simpa using hk)
  · exact hkept a fun k _ hk => ha k (by simpa using hk)
  · rw [emit_iterate]
    simp

end Sys2Proof.Machine
end

section
/-! PROOFS. Faults (60_exceptions.md): what the fault entry writes (R221, R222), that a faulting engine step has written nothing
before it (R226), and the commands a FAULTED session ignores (R227). -/

namespace Sys2Proof.Machine

/-! ### The fault entry (R221, R222) -/

/-- Settles O48: each code is its `DETAIL` above its `CLASS`, and the entry writes that word. -/
theorem faultEntryAndCodes : Obligations.FaultEntryAndCodes := by
  refine ⟨?_, fun f s => ?_⟩
  · decide
  · rw [raise, FaultCode.causeWord]

/-! ### A FAULTED session ignores commands (R227) -/

theorem exec_getbits_of_faulted {s : State} (n : Byte) (h : s.sess = .faulted) : exec (.getbits n) s = .next s := by
  rw [exec, execGetbits, if_pos h]

theorem exec_bitreset_of_faulted {s : State} (h : s.sess = .faulted) : exec .bitreset s = .next s := by
  rw [exec, execBitreset, if_pos h]

theorem illegalCommand_of_faulted {s : State} (h : s.sess = .faulted) : illegalCommand s = s := if_pos h

/-- Only INIT and CLOSE act in a FAULTED session. -/
theorem exec_command_of_faulted {i : Instr} {s : State} (h : s.sess = .faulted) (hi : i.place = none) (hinit : i ≠ .init)
    (hclose : i ≠ .close) : exec i s = .next s := by
  cases i with
  | init => exact absurd rfl hinit
  | cont => exact exec_cont_of_faulted h
  | getbits n => exact exec_getbits_of_faulted n h
  | bitreset => exact exec_bitreset_of_faulted h
  | close => exact absurd rfl hclose
  | lzCtrl | lzLit | lzRef | hufBranch | hufLeaf | hufCode0 | hufCode1 => cases hi

/-- Settles O18: a word that selects a command runs one of the three ignored, and any other word is illegal, and ignored too. -/
theorem faultedIgnoresCommands : Obligations.FaultedIgnoresCommands := by
  intro s h
  refine ⟨exec_cont_of_faulted h, fun n => exec_getbits_of_faulted n h, exec_bitreset_of_faulted h, ?_⟩
  intro w rest hops hinit hclose
  have hcmd := accessReg_cmd s.params
  have hrest : ({ s with ops := rest } : State).sess = .faulted := h
  by_cases hw : ∃ i, decodeWord w = .ok i
  · obtain ⟨i, hi⟩ := hw
    rw [step_write_cmd hops hcmd hi]
    exact exec_command_of_faulted hrest (decodeWord_place hi) (fun e => hinit (e ▸ hi)) (fun e => hclose (e ▸ hi))
  · rw [step_write_cmd_illegal hops hcmd hw, illegalCommand_of_faulted hrest]

/-! ### A faulting step has written nothing (R226) -/

theorem exhaust_unwritten (f : FaultCode) (s : State) : Unwritten s (exhaust f s) := by constructor <;> simp

theorem exhaustAt_unwritten (p : Place) (s : State) : Unwritten s (exhaustAt p s) := by
  cases p with
  | tree => exact raise_unwritten _ s
  | ctrl | literal | reference | code => exact exhaust_unwritten _ s

theorem returnSubtree_unwritten (l : List BuildSlot) (x : BitVec 9) (s : State) : Unwritten s (returnSubtree l x s) := by
  obtain ⟨-, hw, -⟩ := returnSubtree_cases l x s
  exact hw

/-- A token read at `p` has led to `t` by emitting a byte: it is the last token of its engine step, and no fault. -/
structure LastToken (p : Place) (t : State) : Prop where
  place : p = .literal ∨ (p = .code ∧ t.run.node = none)
  sess : t.sess ≠ .faulted

/-- Following a code bit stays inside the symbol, or emits its byte and ends it. -/
theorem moveTo_unwritten_or_last {s : State} (c : BitVec 9) (h : s.sess ≠ .faulted) :
    Unwritten s (moveTo c s) ∨ LastToken .code (moveTo c s) := by
  obtain hm | hm := moveTo_cases c s
  · rw [hm]; exact .inr ⟨.inr ⟨rfl, rfl⟩, h⟩
  · rw [hm]; exact .inl ⟨rfl, rfl, rfl, rfl⟩

/-- A token writes nothing, or it is the last of its step. -/
theorem exec_token_unwritten_or_last {i : Instr} {p : Place} {s t : State} (hp : i.place = some p) (hs : exec i s = .next t) :
    Unwritten s t ∨ LastToken p t := by
  cases i with
  | init | cont | getbits | bitreset | close => cases hp
  | lzCtrl x =>
    obtain ⟨-, rfl⟩ := execLzCtrl_next hs
    exact .inl ⟨rfl, rfl, rfl, rfl⟩
  | lzLit b =>
    obtain ⟨ha, rfl⟩ := execLzLit_next hs
    cases hp
    have ho := not_faulted_of_awaits ha
    exact .inr ⟨.inl rfl, ho⟩
  | lzRef d l =>
    obtain ⟨-, ⟨f, rfl⟩ | ⟨-, -, -, rfl⟩⟩ := execLzRef_next hs
    · exact .inl (raise_unwritten f s)
    · exact .inl ⟨rfl, rfl, rfl, rfl⟩
  | hufBranch =>
    obtain ⟨-, ⟨-, rfl⟩ | ⟨-, rfl⟩⟩ := execHufBranch_next hs
    · exact .inl (raise_unwritten _ s)
    · exact .inl ⟨rfl, rfl, rfl, rfl⟩
  | hufLeaf v =>
    obtain ⟨-, rfl⟩ := execHufLeaf_next hs
    exact .inl (returnSubtree_unwritten _ _ s)
  | hufCode0 =>
    obtain ⟨ha, rfl⟩ := execHufCode0_next hs
    cases hp
    exact moveTo_unwritten_or_last _ (not_faulted_of_awaits ha)
  | hufCode1 =>
    obtain ⟨ha, rfl⟩ := execHufCode1_next hs
    cases hp
    exact moveTo_unwritten_or_last _ (not_faulted_of_awaits ha)

/-- Nor does fetching the token write anything, and exhaustion writes nothing either. -/
theorem engineToken_unwritten_or_last {p : Place} {s t : State} (hs : engineToken p s = .next t) :
    Unwritten s t ∨ LastToken p t := by
  obtain ⟨i, u, hu, hp, hin⟩ | ⟨u, hu, hin⟩ := engineToken_cases p s
  · rw [hs] at hu
    exact (exec_token_unwritten_or_last hp hu.symm).imp_left hin.unwritten.trans
  · rw [hs] at hu
    cases hu
    exact .inl (hin.unwritten.trans (exhaustAt_unwritten p u))

/-- A token that faults has written nothing. -/
theorem engineToken_unwritten_of_faulted {p : Place} {s t : State} (hs : engineToken p s = .next t) (hf : t.sess = .faulted) :
    Unwritten s t :=
  (engineToken_unwritten_or_last hs).resolve_right fun hlast => hlast.sess hf

theorem lzItemStep_unwritten_of_faulted {s t : State} (hs : lzItemStep s = .next t) (hf : t.sess = .faulted) :
    Unwritten s t := by
  unfold lzItemStep at hs
  split at hs
  next => exact engineToken_unwritten_of_faulted hs hf
  next => exact engineToken_unwritten_of_faulted hs hf
  next => cases hs; exact .refl s

theorem lzTokenStep_unwritten_of_faulted {s t : State} (hs : lzTokenStep s = .next t) (hf : t.sess = .faulted) :
    Unwritten s t := by
  unfold lzTokenStep at hs
  split at hs
  · obtain ⟨u, hctrl, hitem⟩ := andThen_eq_next hs
    have hu : Unwritten s u := (engineToken_unwritten_or_last hctrl).resolve_right fun hlast => by simpa using hlast.place
    exact hu.trans (lzItemStep_unwritten_of_faulted hitem hf)
  · exact Unwritten.trans (t := takeCtrlBit s) ⟨rfl, rfl, rfl, rfl⟩ (lzItemStep_unwritten_of_faulted hs hf)

/-- The tree build emits no byte, however it ends. -/
theorem hufBuildLoop_unwritten (k : Nat) {s t : State} (hs : hufBuildLoop k s = .next t) : Unwritten s t := by
  induction k generalizing s with
  | zero => cases hs; exact exhaustAt_unwritten .tree s
  | succ k ih =>
    obtain ⟨u, htoken, hrest⟩ := andThen_eq_next hs
    have hu : Unwritten s u := (engineToken_unwritten_or_last htoken).resolve_right fun hlast => by simpa using hlast.place
    split at hrest
    next => exact hu.trans (ih hrest)
    next => cases hrest; exact hu

/-- The symbol walk emits a byte only as it ends, without a fault. -/
theorem hufSymLoop_unwritten_of_faulted (k : Nat) {s t : State} (hs : hufSymLoop k s = .next t) (hf : t.sess = .faulted) :
    Unwritten s t := by
  induction k generalizing s with
  | zero => cases hs; exact exhaustAt_unwritten .code s
  | succ k ih =>
    obtain ⟨u, htoken, hrest⟩ := andThen_eq_next hs
    split at hrest
    next => cases hrest; exact engineToken_unwritten_of_faulted htoken hf
    next hnode =>
      have hu : Unwritten s u := (engineToken_unwritten_or_last htoken).resolve_right fun hlast => by
        simpa [hnode] using hlast.place
      exact hu.trans (ih hrest)

/-- An engine step that faults has written nothing, wherever it starts in an open session. -/
theorem engineStep_unwritten_of_faulted {s t : State} (ho : s.sess ≠ .faulted) (hs : engineStep s = .next t)
    (hf : t.sess = .faulted) : Unwritten s t := by
  unfold engineStep at hs
  split at hs
  next => cases hs
  next => exact lzTokenStep_unwritten_of_faulted hs hf
  next => cases hs; exact absurd hf ho
  next => exact hufBuildLoop_unwritten _ hs
  next =>
    unfold hufSymStep at hs
    split at hs
    next => cases hs; exact absurd hf ho
    next => exact hufSymLoop_unwritten_of_faulted _ hs hf

/-- Settles O49: a byte is emitted only by the last token of a step, and that token does not fault. -/
theorem faultingStepWritesNothing : Obligations.FaultingStepWritesNothing := by
  intro s t ha _ _ hs hf
  obtain ⟨hmem, hwin, hcur, htotal⟩ := engineStep_unwritten_of_faulted (by rw [ha]; decide) hs hf
  exact ⟨hmem, hwin, hcur, htotal⟩

end Sys2Proof.Machine
end

section
/-! PROOFS. The block after hardware reset (70_reset_and_hazards.md R250, R251): it is in order, and its answers to a CONTINUE and
to the first INIT. -/

namespace Sys2Proof.Machine

/-! ### The invariant at reset (R250) -/

theorem params_chosen_ok : Params.chosen.ok = true := by decide

/-- The reset block is idle, so only the bounds on its registers, memory and window are to be met. -/
theorem resetWith_inv {p : Params} (h : p.ok = true) : Inv (State.resetWith p) where
  params := h
  memory := Memory.wf_reset p
  addresses _ hc := by cases hc
  window := rfl
  registers := ConfigRegs.clean_zero
  latched := ConfigRegs.clean_zero
  outAddr := Nat.two_pow_pos _
  atRest := rfl
  active e := by cases e
  closed _ := rfl
  faulted e := by cases e
  noFault _ := rfl

/-- Settles O52. -/
theorem resetSatisfiesInv : Obligations.ResetSatisfiesInv :=
  ⟨fun _ => resetWith_inv, resetWith_inv params_chosen_ok⟩

/-! ### The first commands (R251) -/

/-- No session is open after reset. -/
theorem engineOpen_resetWith (p : Params) : engineOpen (State.resetWith p) = false := rfl

/-- A frame size of 0 is no power of two (R37). -/
theorem badLzss_zero (p : Params) : ConfigRegs.zero.badLzss p = true := rfl

/-- Settles O54: no session is open, the reset configuration asks for LZSS with no frame, and the other engines have nothing to
check. -/
theorem firstCommandsAfterReset : Obligations.FirstCommandsAfterReset := by
  intro p
  refine ⟨?cont, ?lzss, ?huffman, ?raw⟩
  case cont => exact ⟨_, exec_cont_of_not_engineOpen nofun (engineOpen_resetWith p), rfl, rfl⟩
  case lzss => exact ⟨_, exec_init_of_bad_lzss rfl (badLzss_zero p), rfl, rfl⟩
  case huffman => exact ⟨_, exec_init_of_huffman rfl, rfl, rfl, rfl, rfl⟩
  case raw => exact ⟨_, exec_init_of_raw rfl, rfl, rfl, rfl, rfl⟩

end Sys2Proof.Machine
end

section
/-! PROOFS. A session reads what INIT took (70_reset_and_hazards.md R254, R255): no operation inside a session looks at the
configuration registers or at the sequences the host presents, so with others of them every command but INIT takes the
same steps. -/

namespace Sys2Proof.Machine

/-! ### Operations that do not see the configuration -/

/-- An operation gives the same outcome whatever the configuration registers and the sequences presented are, and passes them on. -/
def IgnoresConfig (f : State → Res) : Prop :=
  ∀ (s : State) (c : ConfigRegs) (b0 b1 : List Byte),
    f (s.reconfigured c b0 b1) = andThen (f s) fun t => .next (t.reconfigured c b0 b1)

/-- An effect on the state commutes with putting other configuration registers and sequences in place. -/
def PassesConfig (e : State → State) : Prop :=
  ∀ (s : State) (c : ConfigRegs) (b0 b1 : List Byte), e (s.reconfigured c b0 b1) = (e s).reconfigured c b0 b1

/-- A condition that reads neither. -/
def BlindToConfig (P : State → Prop) : Prop :=
  ∀ (s : State) (c : ConfigRegs) (b0 b1 : List Byte), P (s.reconfigured c b0 b1) ↔ P s

theorem PassesConfig.next {e : State → State} (h : PassesConfig e) : IgnoresConfig fun s => .next (e s) :=
  fun s c b0 b1 => congrArg Host.Outcome.next (h s c b0 b1)

theorem ignoresConfig_refused (r : Refusal) : IgnoresConfig fun _ => .refused r := fun _ _ _ _ => rfl

theorem ignoresConfig_next : IgnoresConfig .next := fun _ _ _ _ => rfl

/-! ### How such operations are put together -/

theorem PassesConfig.comp {e e' : State → State} (h : PassesConfig e) (h' : PassesConfig e') :
    PassesConfig fun s => e (e' s) := fun s c b0 b1 => (congrArg e (h' s c b0 b1)).trans (h (e' s) c b0 b1)

theorem IgnoresConfig.comp {f : State → Res} {e : State → State} (hf : IgnoresConfig f) (he : PassesConfig e) :
    IgnoresConfig fun s => f (e s) := fun s c b0 b1 => (congrArg f (he s c b0 b1)).trans (hf (e s) c b0 b1)

/-- A branch on a condition that reads neither; every condition met below is so by definition. -/
theorem PassesConfig.ite {P : State → Prop} [DecidablePred P] {e e' : State → State} (h : PassesConfig e) (h' : PassesConfig e')
    (hP : BlindToConfig P := by exact fun _ _ _ _ => .rfl) : PassesConfig fun s => if P s then e s else e' s := by
  intro s c b0 b1
  simp only [hP s c b0 b1]
  split
  · exact h s c b0 b1
  · exact h' s c b0 b1

theorem IgnoresConfig.ite {P : State → Prop} [DecidablePred P] {f f' : State → Res} (h : IgnoresConfig f)
    (h' : IgnoresConfig f') (hP : BlindToConfig P := by exact fun _ _ _ _ => .rfl) :
    IgnoresConfig fun s => if P s then f s else f' s := by
  intro s c b0 b1
  simp only [hP s c b0 b1]
  split
  · exact h s c b0 b1
  · exact h' s c b0 b1

/-- Operations in a row see nothing when none of them does. -/
theorem IgnoresConfig.andThen {f g : State → Res} (hf : IgnoresConfig f) (hg : IgnoresConfig g) :
    IgnoresConfig fun s => andThen (f s) g := by
  intro s c b0 b1
  beta_reduce
  rw [hf s c b0 b1]
  cases f s with
  | next u => exact hg u c b0 b1
  | fault | refused => rfl

/-! ### The operations of the state -/

section Fields

variable (s : State) (c : ConfigRegs) (b0 b1 : List Byte)

@[simp] theorem reconfigured_lcfg : (s.reconfigured c b0 b1).lcfg = s.lcfg := rfl
@[simp] theorem reconfigured_phase : (s.reconfigured c b0 b1).phase = s.phase := rfl
@[simp] theorem reconfigured_run : (s.reconfigured c b0 b1).run = s.run := rfl

end Fields

theorem raise_passesConfig (f : FaultCode) : PassesConfig (raise f) := fun _ _ _ _ => rfl

theorem emit_passesConfig (b : Byte) : PassesConfig (emit b) := fun _ _ _ _ => rfl

theorem exhaust_passesConfig (f : FaultCode) : PassesConfig (exhaust f) :=
  .ite (raise_passesConfig f) fun _ _ _ _ => rfl

theorem exhaustAt_passesConfig (p : Place) : PassesConfig (exhaustAt p) := by
  cases p with
  | tree => exact raise_passesConfig .truncTree
  | ctrl | literal | reference | code => exact exhaust_passesConfig _

theorem checkTarget_passesConfig : PassesConfig checkTarget := .ite (fun _ _ _ _ => rfl) fun _ _ _ _ => rfl

theorem finishCont_passesConfig : PassesConfig finishCont := .ite (fun _ _ _ _ => rfl) fun _ _ _ _ => rfl

/-! ### Fetching a token -/

/-- A fetch, with other configuration registers and sequences in the state it leaves. -/
def Fetched.reconfigured (c : ConfigRegs) (b0 b1 : List Byte) : Fetched → Fetched
  | .token i s => .token i (s.reconfigured c b0 b1)
  | .exhausted s => .exhausted (s.reconfigured c b0 b1)

section Fetch

variable (s : State) (c : ConfigRegs) (b0 b1 : List Byte)

/-- A request reads the bound port and the latched variant (R110, R254). -/
theorem getBits_reconfigured (k : Port) (n : Nat) :
    getBits k n (s.reconfigured c b0 b1) = ((getBits k n s).1, (getBits k n s).2.reconfigured c b0 b1) := by
  cases k <;> rfl

theorem fetchByte_reconfigured (k : Port) (mk : Byte → Instr) :
    fetchByte k mk (s.reconfigured c b0 b1) = (fetchByte k mk s).reconfigured c b0 b1 := by
  unfold fetchByte
  rw [getBits_reconfigured]
  obtain ⟨v, u⟩ := getBits k 8 s
  cases v <;> rfl

theorem fetchToken_reconfigured (p : Place) :
    fetchToken p (s.reconfigured c b0 b1) = (fetchToken p s).reconfigured c b0 b1 := by
  cases p with
  | ctrl | literal => exact fetchByte_reconfigured s c b0 b1 _ _
  | reference =>
    simp only [fetchToken, reconfigured_lcfg, getBits_reconfigured]
    obtain ⟨_ | d, u⟩ := getBits .p0 s.lcfg.distW s
    · rfl
    · simp only [reconfigured_lcfg, getBits_reconfigured]
      obtain ⟨_ | l, w⟩ := getBits .p0 u.lcfg.lenW u <;> rfl
  | tree =>
    simp only [fetchToken, getBits_reconfigured]
    obtain ⟨_ | t, u⟩ := getBits .p0 1 s
    · rfl
    · simp only [fetchByte_reconfigured]
      split <;> rfl
  | code =>
    simp only [fetchToken, getBits_reconfigured]
    obtain ⟨_ | b, u⟩ := getBits .p0 1 s <;> rfl

end Fetch

/-! ### The meanings of the tokens -/

theorem atPlace_ignoresConfig {p : Place} {e : State → State} (h : PassesConfig e) : IgnoresConfig fun s => atPlace p s e :=
  .ite h.next (ignoresConfig_refused _)

theorem returnSubtree_passesConfig (l : List BuildSlot) (x : BitVec 9) : PassesConfig (returnSubtree l x) := by
  induction l generalizing x with
  | nil => exact fun _ _ _ _ => rfl
  | cons slot rest ih =>
    cases slot with
    | left v => exact fun _ _ _ _ => rfl
    | right v => exact (ih v).comp (e' := setRhs v x) fun _ _ _ _ => rfl

theorem moveTo_passesConfig (child : BitVec 9) : PassesConfig (moveTo child) :=
  .ite ((emit_passesConfig (leafByte child)).comp (e' := fun s => { s with run := { s.run with node := none } })
    fun _ _ _ _ => rfl) fun _ _ _ _ => rfl

theorem runToken_ignoresConfig (i : Instr) : IgnoresConfig (runToken i) := by
  cases i with
  | init | cont | getbits | bitreset | close => exact ignoresConfig_refused _
  | lzCtrl | lzLit => exact atPlace_ignoresConfig fun _ _ _ _ => rfl
  | lzRef d l =>
    refine atPlace_ignoresConfig (.ite (raise_passesConfig _) ?_)
    exact .ite (raise_passesConfig _) fun _ _ _ _ => rfl
  | hufBranch => exact atPlace_ignoresConfig (.ite (raise_passesConfig _) fun _ _ _ _ => rfl)
  | hufLeaf v => exact atPlace_ignoresConfig fun s => returnSubtree_passesConfig s.run.stack (v.setWidth 9) s
  | hufCode0 => exact atPlace_ignoresConfig fun s => moveTo_passesConfig (lhsAt s (symNode s)) s
  | hufCode1 => exact atPlace_ignoresConfig fun s => moveTo_passesConfig (rhsAt s (symNode s)) s

theorem engineToken_ignoresConfig (p : Place) : IgnoresConfig (engineToken p) := by
  intro s c b0 b1
  unfold engineToken
  rw [fetchToken_reconfigured]
  cases fetchToken p s with
  | token i u => exact runToken_ignoresConfig i u c b0 b1
  | exhausted u => exact (exhaustAt_passesConfig p).next u c b0 b1

/-! ### The engine steps -/

theorem lzItemStep_ignoresConfig : IgnoresConfig lzItemStep := by
  intro s c b0 b1
  unfold lzItemStep
  rw [reconfigured_run]
  split
  · exact engineToken_ignoresConfig .literal s c b0 b1
  · exact engineToken_ignoresConfig .reference s c b0 b1
  · rfl

theorem lzTokenStep_ignoresConfig : IgnoresConfig lzTokenStep :=
  .ite ((engineToken_ignoresConfig .ctrl).andThen lzItemStep_ignoresConfig)
    (lzItemStep_ignoresConfig.comp (e := takeCtrlBit) fun _ _ _ _ => rfl)

theorem hufBuildLoop_ignoresConfig (k : Nat) : IgnoresConfig (hufBuildLoop k) := by
  induction k with
  | zero => exact (exhaustAt_passesConfig .tree).next
  | succ k ih => exact (engineToken_ignoresConfig .tree).andThen (.ite ih ignoresConfig_next)

theorem hufSymLoop_ignoresConfig (k : Nat) : IgnoresConfig (hufSymLoop k) := by
  induction k with
  | zero => exact (exhaustAt_passesConfig .code).next
  | succ k ih => exact (engineToken_ignoresConfig .code).andThen (.ite ignoresConfig_next ih)

theorem hufSymStep_ignoresConfig : IgnoresConfig hufSymStep :=
  .ite (fun s => (emit_passesConfig (leafByte s.root)).next s) fun s => hufSymLoop_ignoresConfig (bitsLeft .p0 s) s

theorem engineStep_ignoresConfig : IgnoresConfig engineStep := by
  intro s c b0 b1
  unfold engineStep
  rw [reconfigured_phase]
  split
  · rfl
  · exact lzTokenStep_ignoresConfig s c b0 b1
  · rfl
  · exact hufBuildLoop_ignoresConfig (bitsLeft .p0 s) s c b0 b1
  · exact hufSymStep_ignoresConfig s c b0 b1

/-! ### The commands -/

theorem contLoop_ignoresConfig (want : Word) (k : Nat) : IgnoresConfig (contLoop want k) := by
  induction k with
  | zero => exact ignoresConfig_next
  | succ k ih =>
    have hrest : IgnoresConfig fun s' => if s'.sess = .faulted then .next s' else contLoop want k (checkTarget s') :=
      .ite ignoresConfig_next (ih.comp checkTarget_passesConfig)
    exact .ite (engineStep_ignoresConfig.andThen hrest) ignoresConfig_next

/-- The loop of a CONTINUE, from the count of bytes it is asked for. -/
theorem contRun_ignoresConfig :
    IgnoresConfig fun s => contLoop s.count (2 * s.count.toNat) (checkTarget { s with run := .rest }) := fun s =>
  ((contLoop_ignoresConfig s.count (2 * s.count.toNat)).comp
    (checkTarget_passesConfig.comp (e' := fun s => { s with run := .rest }) fun _ _ _ _ => rfl)) s

theorem execCont_ignoresConfig : IgnoresConfig execCont :=
  .ite ignoresConfig_next (.ite (raise_passesConfig _).next (contRun_ignoresConfig.andThen finishCont_passesConfig.next))

theorem recordBits_reconfigured (x : Option Word) (s : State) (c : ConfigRegs) (b0 b1 : List Byte) :
    recordBits (x, s.reconfigured c b0 b1) = (recordBits (x, s)).reconfigured c b0 b1 := by
  cases x <;> rfl

theorem execGetbits_ignoresConfig (n : Byte) : IgnoresConfig (execGetbits n) := by
  have hread : PassesConfig fun s => recordBits (getBits .p0 n.toNat s) := fun s c b0 b1 => by
    beta_reduce
    rw [getBits_reconfigured, recordBits_reconfigured]
  exact .ite ignoresConfig_next (.ite (raise_passesConfig _).next (.ite (raise_passesConfig _).next hread.next))

theorem execBitreset_ignoresConfig : IgnoresConfig execBitreset :=
  .ite ignoresConfig_next (.ite (raise_passesConfig _).next fun _ _ _ _ => rfl)

theorem exec_token_ignoresConfig {i : Instr} {p : Place} (hp : i.place = some p) : IgnoresConfig (exec i) := by
  rw [← funext (runToken_eq_exec hp)]
  exact runToken_ignoresConfig i

/-- INIT alone looks at the configuration registers and the sequences presented. -/
theorem exec_ignoresConfig {i : Instr} (hi : i ≠ .init) : IgnoresConfig (exec i) := by
  cases i with
  | init => exact absurd rfl hi
  | cont => exact execCont_ignoresConfig
  | getbits n => exact execGetbits_ignoresConfig n
  | bitreset => exact execBitreset_ignoresConfig
  | close => exact fun _ _ _ _ => rfl
  | lzCtrl | lzLit | lzRef | hufBranch | hufLeaf | hufCode0 | hufCode1 => exact exec_token_ignoresConfig rfl

/-- Settles O27: no command but INIT sees what changes, so the outcome is the same with the change passed on. -/
theorem sessionIgnoresLaterConfiguration : Obligations.SessionIgnoresLaterConfiguration := by
  intro s t i c b0 b1 hi hs
  rw [exec_ignoresConfig hi s c b0 b1, hs]
  rfl

end Sys2Proof.Machine
end
